-- ==== Sys2Proof/Syntax.lean ====
section
/-! DEFINITION. The commands of the core, one constructor per row of the opcode map (30_encoding R82). Operands are
implicit (30_encoding R81), so no constructor has an argument. -/

namespace Sys2Proof

/-- The sixteen commands (30_encoding R82). -/
inductive Instr where
  /-- `NOP` (47_output_and_misc R245) -/
  | nop
  /-- `B2B`, bytesToBits (40_bitframer R100) -/
  | b2b
  /-- `PAD`, pad (40_bitframer R101) -/
  | pad
  /-- `GROUP`, group (40_bitframer R102) -/
  | group
  /-- `MAP`, map (41_symbolmapper R120) -/
  | map
  /-- `GRID`, buildGrid (43_ofdm_framer R160) -/
  | grid
  /-- `TOTIME`, toTimeDomain (43_ofdm_framer R161) -/
  | totime
  /-- `FLATTX`, OFDMFramer flatten (43_ofdm_framer R162) -/
  | flattx
  /-- `CHAN`, ChannelModel apply (44_channel R180) -/
  | chan
  /-- `TOBLK`, toBlocks (45_ofdm_deframer R200) -/
  | toblk
  /-- `TOFREQ`, toFrequencyDomain (45_ofdm_deframer R201) -/
  | tofreq
  /-- `FLATRX`, OFDMDeframer flatten (45_ofdm_deframer R202) -/
  | flatrx
  /-- `TRUNC`, the consumer's truncation (45_ofdm_deframer R206) -/
  | trunc
  /-- `DEMAP`, demap (41_symbolmapper R121) -/
  | demap
  /-- `REPACK`, the output boundary (47_output_and_misc R240) -/
  | repack
  /-- `SWEEP`, SweepEvaluator run (46_sweep R220) -/
  | sweep
deriving DecidableEq, Repr

end Sys2Proof
end

