-- ==== Sys2Proof/Word.lean ====
section
/-! DEFINITION. The types of values the core computes with (00_scope R14), all plain data.

A Real of the spec is a mathematical real number (42_cmac_dft R140). It is held here EXACTLY, as a finite expression
in one normal form: a rational combination of products of a cosine, a power of ten and named irrational factors
(DESIGN CHOICE, safe: notes/assumptions/1.md). What real number an expression denotes is `Num.val` in
Machine/Value.lean. -/

namespace Sys2Proof

/-- An unsigned integer 0 to 255; bit 7 is the most significant (00_scope R14, R16). -/
abbrev Byte := BitVec 8

/-- 0 (`false`) or 1 (`true`) (00_scope R14). -/
abbrev Bit := Bool

/-- A Real that the host gives the core: in a register, in the sweep table, in a `.noise` directive. Every Real can be
given: a rational as itself, an irrational under a number of its own. Which irrational a number stands for is open, and
two numbers stand for two different irrationals, so that equal data are equal Reals and unequal data are unequal ones
(DESIGN CHOICE, safe: notes/assumptions/2.md; `HostReal.val` in Machine/Value.lean). -/
inductive HostReal where
  | rat (q : Rat)
  | irr (k : Nat)
deriving DecidableEq, Repr

/-- A real number that is named and not computed: an answer of the noise source (44_channel R183), an irrational Real of
the host, a root or a power of ten that has no closed form; and, so that a root or a power can say what it is taken of,
the expressions a Real is made of. -/
inductive Factor where
  /-- A `draw Real`: the `k`-th free value, under no law. -/
  | free (k : Nat)
  /-- Element `i` of the fixed sequence `NGSEQ(seed)`. -/
  | seq (seed i : Nat)
  /-- The irrational `HostReal.irr k`. -/
  | host (k : Nat)
  | rat (q : Rat)
  /-- `cos(2π·turn)`. -/
  | cos (turn : Rat)
  | add (a b : Factor)
  | mul (a b : Factor)
  | sqrt (a : Factor)
  /-- `10^a`. -/
  | pow10 (a : Factor)
deriving DecidableEq, Repr

/-- The product `cos(2π·turn) · 10^pow · Π factors`. -/
structure Mono where
  turn : Rat
  pow : Rat
  factors : List Factor
deriving DecidableEq, Repr

/-- A Real: the sum of its terms, each a product with a rational coefficient. In normal form the products are strictly
rising and no coefficient is zero, so that a rational is `[]` or one term. -/
structure Num where
  terms : List (Mono × Rat)
deriving DecidableEq, Repr

/-- A Complex: the pair `re + j·im` (00_scope R14). -/
structure Cplx where
  re : Num
  im : Num
deriving DecidableEq, Repr

/-- A Grid: `rows`, `cols` and the elements column by column; element (r, c) is `data[c·rows + r]`
(00_scope R14, 10_state R31). -/
structure Grid where
  rows : Nat
  cols : Nat
  data : List Cplx
deriving DecidableEq, Repr

/-- An Int that the demapper produced (41_symbolmapper R121, R126). -/
inductive IntTerm where
  /-- A known integer. -/
  | lit (z : Int)
  /-- The rounding of `x`: its nearest integer and, where `x` is an exact half, the neighbour that the open parameter
  `ROUND_TIE` picks. -/
  | round (x : Num)
deriving DecidableEq, Repr

/-- An IntPair (00_scope R14). -/
structure IntPair where
  re : IntTerm
  im : IntTerm
deriving DecidableEq, Repr

/-- A Byte that `REPACK` made (47_output_and_misc R241). -/
inductive ByteTerm where
  /-- A known byte. -/
  | lit (b : Byte)
  /-- `byte_of_int` of `v`: `v` itself in 0 to 255, else what the open parameter `BYTE_OF_INT` gives. -/
  | ofInt (v : IntTerm)
deriving DecidableEq, Repr

/-- The error rate of one trial (46_sweep R221, R224). -/
inductive Rate where
  /-- A known quotient. -/
  | known (q : Rat)
  /-- `(errs + the number of pairs in rest whose values differ) / n`. -/
  | counted (errs : Nat) (rest : List (IntTerm × Nat)) (n : Nat)
  /-- `0 / 0`: the free Real number `free`. -/
  | undetermined (free : Nat)
deriving DecidableEq, Repr

/-- A noise seed slot `(en, val)` (10_state R21, R24). -/
structure Seed where
  en : Bit
  val : Nat
deriving DecidableEq, Repr

end Sys2Proof
end

