-- ==== Sys2Proof/WellFormed.lean ====
section
/-! DEFINITION. Checks on terms that the types alone do not make.

A command has no operand (30_encoding R81), so every `Instr` is well formed. What can be ill formed is a command word
(30_encoding R83) and a Grid (10_state R31). -/

namespace Sys2Proof

/-- Every command is well formed: it has no field that could hold a wrong value (30_encoding R80, R81). -/
def Instr.wellFormed : Instr → Bool
  | .nop | .b2b | .pad | .group | .map | .grid | .totime | .flattx
  | .chan | .toblk | .tofreq | .flatrx | .trunc | .demap | .repack | .sweep => true

/-- A command word is well formed when the opcode map has it: 0x00 to 0x0F (30_encoding R82, R83). -/
def wordWellFormed (w : Byte) : Bool := decide (w.toNat < 0x10)

/-- A Grid is well formed when it holds `rows·cols` elements (10_state R31). -/
def Grid.wellFormed (g : Grid) : Bool := decide (g.data.length = g.rows * g.cols)

end Sys2Proof
end

