-- ==== Sys2Proof/Decode.lean ====
section
/-! DEFINITION. Command words: one length, 8 bits, one format, the opcode alone (30_encoding R80, R82, R84). -/

namespace Sys2Proof

/-- Why a sequence of bytes is no command. -/
inductive DecodeError where
  /-- There is no byte to read. -/
  | noWord
  /-- The word is not in the opcode map: 0x10 to 0xFF (30_encoding R83). -/
  | illegalCommand (w : Byte)
deriving DecidableEq, Repr

/-- The command a word selects (30_encoding R82), or its rejection by name (R83). -/
def decode (w : Byte) : Except DecodeError Instr :=
  match w.toNat with
  | 0x00 => .ok .nop
  | 0x01 => .ok .b2b
  | 0x02 => .ok .pad
  | 0x03 => .ok .group
  | 0x04 => .ok .map
  | 0x05 => .ok .grid
  | 0x06 => .ok .totime
  | 0x07 => .ok .flattx
  | 0x08 => .ok .chan
  | 0x09 => .ok .toblk
  | 0x0A => .ok .tofreq
  | 0x0B => .ok .flatrx
  | 0x0C => .ok .trunc
  | 0x0D => .ok .demap
  | 0x0E => .ok .repack
  | 0x0F => .ok .sweep
  | _ => .error (.illegalCommand w)

/-- One command read from a sequence of bytes, with the bytes after it: a command is always one byte
(30_encoding R84). -/
def decodeBytes : List Byte → Except DecodeError (Instr × List Byte)
  | [] => .error .noWord
  | w :: rest =>
    match decode w with
    | .ok i => .ok (i, rest)
    | .error e => .error e

/-- The command word of a command, bit 7 the most significant (30_encoding R80, R82). -/
def encode : Instr → Byte
  | .nop => 0b00000000#8
  | .b2b => 0b00000001#8
  | .pad => 0b00000010#8
  | .group => 0b00000011#8
  | .map => 0b00000100#8
  | .grid => 0b00000101#8
  | .totime => 0b00000110#8
  | .flattx => 0b00000111#8
  | .chan => 0b00001000#8
  | .toblk => 0b00001001#8
  | .tofreq => 0b00001010#8
  | .flatrx => 0b00001011#8
  | .trunc => 0b00001100#8
  | .demap => 0b00001101#8
  | .repack => 0b00001110#8
  | .sweep => 0b00001111#8

/-- The command of an opcode-table word given as a number of `nbits` bits; bits above `nbits` are 0. -/
def decodeTableWord (nbits w : Nat) : Option Instr :=
  match decodeBytes [BitVec.ofNat 8 (w % 2 ^ nbits)] with
  | .ok (i, _) => some i
  | .error _ => none

end Sys2Proof
end

