-- ==== Sys2Proof/Config.lean ====
section
/-! DEFINITION. What an implementation fixes and the spec leaves open (00_scope R13, the table of open parameters of
92_eei_decisions): free values, which have no body so that no proof can see what they are, and the values that the
model gives to registers whose reset value the spec calls unspecified; and the parameters that stand at the spec's
defaults: unbounded CW, CAP and SWEEP_MAX (notes/assumptions/12.md). The parameters NUM and TOL are `Config.num` and
`Config.tol` in Machine/Format.lean (21); the factor 1/N on the inverse transform (13) and the most significant bit
first (14) are written into the rules, as the spec does. -/

namespace Sys2Proof

/-- The `k`-th unconstrained real: an unseeded noise draw (44_channel R183) or the error rate `0 / 0`
(46_sweep R224). Free value (notes/assumptions/7.md, 11.md). -/
opaque Config.drawReal : Nat → ℝ

/-- `NGSEQ`: the fixed, unspecified sequence of a seeded noise generator (44_channel R183, 93 U11).
Free value (notes/assumptions/8.md). -/
opaque Config.ngSeq : Nat → Nat → ℝ

/-- `ROUND_TIE`: whether the exact half above the integer `f` goes to `f + 1` (41_symbolmapper R126). A function of
`f`, since a rounding of the same value always gives the same integer (10_state R33). Free value
(notes/assumptions/9.md). -/
opaque Config.roundTie : Int → Bool

/-- `BYTE_OF_INT`: what an integer outside 0 to 255 yields (47_output_and_misc R241). A function of the integer, since
`REPACK` on unchanged sources always gives the same bytes (10_state R33). Free value (notes/assumptions/10.md). -/
opaque Config.byteOfInt : Int → Byte

/-- The irrational numbers that the host may give the core, by the number each goes under. Free value
(notes/assumptions/2.md). -/
opaque Config.hostReal : Nat → ℝ

/-- What the square root of a negative Real yields, a point the spec leaves open: its only roots are of a power of ten
and of 2, so no exact root of a negative Real is stated. DESIGN CHOICE: a function of the Real. Free value
(notes/assumptions/29.md). -/
opaque Config.sqrtNegative : ℝ → ℝ

/-- The limits of an implementation, each `none` where there is no limit (00_scope R13, 10_state R22): `cw` bits in a
Nat register or a seed value, `cap` elements in a buffer, `sweepMax` entries in the sweep table. -/
structure Limits where
  cw : Option Nat
  cap : Option Nat
  sweepMax : Option Nat
deriving DecidableEq, Repr

/-- `CW`: the spec's default is unbounded (notes/assumptions/12.md). -/
def Config.cw : Option Nat := none

/-- `CAP`: the spec's default is unbounded (notes/assumptions/12.md). -/
def Config.cap : Option Nat := none

/-- `SWEEP_MAX`: the spec's default is unbounded (notes/assumptions/12.md). -/
def Config.sweepMax : Option Nat := none

/-- The limits of this machine: the open parameters `CW`, `CAP` and `SWEEP_MAX`. -/
def Config.limits : Limits := ⟨Config.cw, Config.cap, Config.sweepMax⟩

/-- `CFG_RESET` of the Nat registers `CFG_N`, `CFG_CP`, `CFG_M` and of seed values, which 10_state R40 calls
unspecified. DESIGN CHOICE, unsafe (notes/assumptions/3.md, 4.md). -/
def Config.resetNat : Nat := 0

/-- `CFG_RESET` of the Real registers `CFG_FS`, `CFG_FC`, `CFG_SNR_NOM` and of `SWEEP_SNR[t]`, which 10_state R40
calls unspecified. DESIGN CHOICE, unsafe (notes/assumptions/3.md, 4.md). -/
def Config.resetReal : HostReal := .rat 0

end Sys2Proof
end

