-- ==== Sys2Proof/Machine/State.lean ====
section
/-! DEFINITION. The state of the core as plain data (10_state R20 to R40), the actions of the host that wait to be
performed (60_exceptions R280), and the state after reset (10_state R40, 70_reset_and_hazards R290).

A buffer is `some content` while its valid flag is 1 and `none` while it is 0: "When `valid = 0` the content has no
value" (10_state R31, notes/assumptions/20.md). -/

namespace Sys2Proof.Machine

open Sys2Proof

/-- The sixteen buffers (10_state R30). -/
inductive BufId where
  | inbuf | bits | pbits | idx | sym | txgrid | txblk | txwave
  | rxwave | rxblk | rxgrid | rxflat | rxsym | rxint | outbuf | result
deriving DecidableEq, Repr

/-- A sweep-table entry: `SWEEP_SNR[t]` and `SWEEP_SEED[t]` (10_state R24). -/
structure SweepEntry where
  snr : HostReal
  seed : Seed
deriving DecidableEq, Repr

/-- What a register holds, by the type column of 10_state R21. -/
inductive RegValue where
  | real (x : HostReal)
  | nat (n : Nat)
  | seed (s : Seed)
  | word (w : BitVec 16)
deriving DecidableEq, Repr

/-- One element of a buffer, by the content type of 10_state R30. -/
inductive Elem where
  | byte (b : ByteTerm)
  | bit (b : Bit)
  | index (i : Nat)
  | complex (z : Cplx)
  | intPair (p : IntPair)
  | keyed (snr : HostReal) (rate : Rate)
deriving DecidableEq, Repr

/-- What a host read returned (60_exceptions R280, 20_memory R61). -/
inductive Answer where
  | reg (v : RegValue)
  | entry (e : SweepEntry)
  | elem (e : Elem)
  | len (n : Nat)
  | shape (rows cols : Nat)
deriving DecidableEq, Repr

/-- The answers a test gives the noise source for one use (30_encoding R85, directive `.noise`). -/
inductive NoiseScript where
  /-- `.noise 0*`: every sample is zero. -/
  | zeros
  /-- `.noise w0, w1, ...` -/
  | samples (ws : List Cplx)
deriving DecidableEq, Repr

/-- What the host can do (60_exceptions R280), and the test directive `.noise` (30_encoding R85). -/
inductive HostAction where
  | reset
  | writeReg (no : Nat) (v : RegValue)
  | writeSweep (t : Nat) (e : SweepEntry)
  | readReg (no : Nat)
  | readSweep (t : Nat)
  | loadInbuf (bytes : List Byte)
  | readBuf (b : BufId) (i : Nat)
  | readLen (b : BufId)
  | issue (w : Byte)
  | noise (script : NoiseScript)
deriving DecidableEq, Repr

/-- The state of the core. The last four fields are the model's boundary with the host and the noise source, not
state the spec gives the core. -/
structure State where
  /-- register 0 `CFG_FS` -/
  cfgFs : HostReal
  /-- register 1 `CFG_FC` -/
  cfgFc : HostReal
  /-- register 2 `CFG_N` -/
  cfgN : Nat
  /-- register 3 `CFG_CP` -/
  cfgCp : Nat
  /-- register 4 `CFG_M` -/
  cfgM : Nat
  /-- register 5 `CFG_SNR_NOM` -/
  cfgSnrNom : HostReal
  /-- register 6 `CFG_SWEEP_LEN` -/
  cfgSweepLen : Nat
  /-- register 7 `NOM_SEED` -/
  nomSeed : Seed
  /-- register 8 `STATUS` (10_state R23) -/
  status : BitVec 16
  /-- the sweep table (10_state R24): the listed entries by rising index; an unlisted one is `SweepEntry.unlisted` -/
  sweepTable : List (Nat × SweepEntry)
  /-- buffer 0 `INBUF` -/
  inbuf : Option (List Byte)
  /-- buffer 1 `BITS` -/
  bits : Option (List Bit)
  /-- buffer 2 `PBITS` -/
  pbits : Option (List Bit)
  /-- buffer 3 `IDX` -/
  idx : Option (List Nat)
  /-- buffer 4 `SYM` -/
  sym : Option (List Cplx)
  /-- buffer 5 `TXGRID` -/
  txgrid : Option Grid
  /-- buffer 6 `TXBLK` -/
  txblk : Option Grid
  /-- buffer 7 `TXWAVE` -/
  txwave : Option (List Cplx)
  /-- buffer 8 `RXWAVE` -/
  rxwave : Option (List Cplx)
  /-- buffer 9 `RXBLK` -/
  rxblk : Option Grid
  /-- buffer 10 `RXGRID` -/
  rxgrid : Option Grid
  /-- buffer 11 `RXFLAT` -/
  rxflat : Option (List Cplx)
  /-- buffer 12 `RXSYM` -/
  rxsym : Option (List Cplx)
  /-- buffer 13 `RXINT` -/
  rxint : Option (List IntPair)
  /-- buffer 14 `OUTBUF` -/
  outbuf : Option (List ByteTerm)
  /-- buffer 15 `RESULT` -/
  result : Option (List (HostReal × Rate))
  /-- the host's actions not yet performed, oldest first (notes/assumptions/5.md) -/
  pending : List HostAction
  /-- the noise scripts not yet used, oldest first (notes/assumptions/17.md) -/
  noiseScript : List NoiseScript
  /-- what the last host read returned (notes/assumptions/18.md) -/
  answer : Option Answer
  /-- the number of the next free value (notes/assumptions/6.md) -/
  freeIdx : Nat
deriving DecidableEq, Repr

/-- What stops the machine. The spec gives no such event: its faults are recorded in `STATUS` and the core goes on
answering the host (60_exceptions R266, R267), so a faulting command takes a next state and this type has no
constructor (notes/assumptions/15.md). Safe: there is no fault that the spec lacks. -/
inductive Fault where
deriving DecidableEq, Repr

/-- What the spec gives no meaning to. With the spec's default limits only host actions raise these, never a command. -/
inductive Refusal where
  /-- A command that has no meaning yet; raised by an arm of `exec` (none now). Safe: nothing is claimed of it. -/
  | notModelled (mnemonic : String)
  /-- `WriteReg` of a register that the host cannot write: STATUS, VALID or a number the register space lacks
  (60_exceptions R280). Raised by `hostWriteReg`. Safe: the spec gives the action no effect. -/
  | registerNotWritable (no : Nat)
  /-- `WriteReg` with a value that is not of the register's type (10_state R21). Raised by `hostWriteReg`. Safe. -/
  | registerTypeMismatch (no : Nat)
  /-- `ReadReg` of a number that the register space lacks (20_memory R60). Raised by `hostReadReg`. Safe. -/
  | noSuchRegister (no : Nat)
  /-- `ReadBuf` or `ReadLen` of a buffer whose valid flag is 0 (20_memory R61, 10_state R32). Raised by
  `hostReadBuf`, `hostReadLen`. Safe. -/
  | bufferNotValid (b : BufId)
  /-- `ReadBuf` at an index not below the buffer's length (20_memory R61). Raised by `hostReadBuf`. Safe. -/
  | indexBeyondLength (b : BufId) (i : Nat)
  /-- A Nat register or a seed value beyond the implementation's `CW` (10_state R22, 93 U9). Raised by `hostWriteReg`,
  `hostWriteSweep`; never at the default, unbounded. Safe. -/
  | beyondWidth (n : Nat)
  /-- A buffer longer than the implementation's `CAP` (10_state R22, 93 U9). Raised by `hostLoadInbuf` and by a command
  (`runCommandWithin`); never at the default, unbounded. Safe. -/
  | beyondCapacity (b : BufId)
  /-- A sweep length or an index of a sweep entry beyond the implementation's `SWEEP_MAX` (10_state R22, R24, 93 U9).
  Raised by `hostWriteReg`, `hostWriteSweep`, `hostReadSweep`; never at the default, unbounded. Safe. -/
  | beyondSweepTable (n : Nat)
deriving DecidableEq, Repr

/-- What a sweep-table entry that the host has not written since reset holds: seed enable 0 (10_state R40), SNR and
seed value DESIGN CHOICE, unsafe (notes/assumptions/4.md). -/
def SweepEntry.unlisted : SweepEntry := ⟨Config.resetReal, ⟨false, Config.resetNat⟩⟩

/-- The state after reset (10_state R40). -/
def State.reset : State where
  cfgFs := Config.resetReal
  cfgFc := Config.resetReal
  cfgN := Config.resetNat
  cfgCp := Config.resetNat
  cfgM := Config.resetNat
  cfgSnrNom := Config.resetReal
  cfgSweepLen := 0
  nomSeed := ⟨false, Config.resetNat⟩
  status := 0
  sweepTable := []
  inbuf := none
  bits := none
  pbits := none
  idx := none
  sym := none
  txgrid := none
  txblk := none
  txwave := none
  rxwave := none
  rxblk := none
  rxgrid := none
  rxflat := none
  rxsym := none
  rxint := none
  outbuf := none
  result := none
  pending := []
  noiseScript := []
  answer := none
  freeIdx := 0

end Sys2Proof.Machine
end

