-- ==== Sys2Proof/Machine/Flags.lean ====
section
/-! DEFINITION. The only flags the core has (10_state R36): the valid flags and the register `VALID` (R23, R32), and
the fields of `STATUS` (R23). -/

namespace Sys2Proof.Machine

open Sys2Proof

/-- The fault codes (60_exceptions R261). -/
inductive FaultCode where
  | eConfig | eShape | eSeq | eIllcmd
deriving DecidableEq, Repr

/-- The value of a fault code in `STATUS.FAULT` (60_exceptions R261). -/
def FaultCode.bits : FaultCode → BitVec 4
  | .eConfig => 1
  | .eShape => 2
  | .eSeq => 3
  | .eIllcmd => 4

/-- `STATUS[3:0] = FAULT` (10_state R23). -/
def State.faultField (s : State) : BitVec 4 := s.status.extractLsb' 0 4

/-- `STATUS[15:8] = FCMD` (10_state R23). -/
def State.fcmdField (s : State) : Byte := s.status.extractLsb' 8 8

/-- Whether `STATUS.FAULT ≠ 0` (60_exceptions R267). -/
def State.faulted (s : State) : Bool := decide (s.faultField ≠ 0)

/-- The `STATUS` word of a fault: `FCMD`, four zero bits, `FAULT` (10_state R23). -/
def statusWord (code : FaultCode) (cmd : Byte) : BitVec 16 := cmd ++ (0 : BitVec 4) ++ code.bits

/-- The buffers in the order of their ids (10_state R30). -/
def BufId.all : List BufId :=
  [.inbuf, .bits, .pbits, .idx, .sym, .txgrid, .txblk, .txwave,
   .rxwave, .rxblk, .rxgrid, .rxflat, .rxsym, .rxint, .outbuf, .result]

/-- The id of a buffer (10_state R30). -/
def BufId.id : BufId → Nat
  | .inbuf => 0
  | .bits => 1
  | .pbits => 2
  | .idx => 3
  | .sym => 4
  | .txgrid => 5
  | .txblk => 6
  | .txwave => 7
  | .rxwave => 8
  | .rxblk => 9
  | .rxgrid => 10
  | .rxflat => 11
  | .rxsym => 12
  | .rxint => 13
  | .outbuf => 14
  | .result => 15

/-- `valid(B)` (10_state R32). -/
def State.valid (s : State) : BufId → Bool
  | .inbuf => s.inbuf.isSome
  | .bits => s.bits.isSome
  | .pbits => s.pbits.isSome
  | .idx => s.idx.isSome
  | .sym => s.sym.isSome
  | .txgrid => s.txgrid.isSome
  | .txblk => s.txblk.isSome
  | .txwave => s.txwave.isSome
  | .rxwave => s.rxwave.isSome
  | .rxblk => s.rxblk.isSome
  | .rxgrid => s.rxgrid.isSome
  | .rxflat => s.rxflat.isSome
  | .rxsym => s.rxsym.isSome
  | .rxint => s.rxint.isSome
  | .outbuf => s.outbuf.isSome
  | .result => s.result.isSome

/-- The register `VALID`: bit `i` is the valid flag of the buffer with id `i` (10_state R23). -/
def State.validWord (s : State) : BitVec 16 := (BitVec.ofBoolListLE (BufId.all.map s.valid)).setWidth 16

end Sys2Proof.Machine
end

