-- ==== Sys2Proof/Machine/Operands.lean ====
section
/-! DEFINITION. The operands of the commands, all implicit (30_encoding R81): the buffers each reads and writes (R82),
the configuration values each uses and the predicates on them (10_state R21, R26), the sweep table (10_state R24), and
the limits an implementation sets on them (10_state R22). -/

namespace Sys2Proof.Machine

open Sys2Proof

/-- The buffers a command reads, for content or for length: the "sources" column of 30_encoding R82. -/
def sources : Instr → List BufId
  | .nop => []
  | .b2b => [.inbuf]
  | .pad => [.bits]
  | .group => [.pbits]
  | .map => [.idx]
  | .grid => [.sym]
  | .totime => [.txgrid]
  | .flattx => [.txblk]
  | .chan => [.txwave]
  | .toblk => [.rxwave]
  | .tofreq => [.rxblk]
  | .flatrx => [.rxgrid]
  | .trunc => [.rxflat, .idx]
  | .demap => [.rxsym]
  | .repack => [.rxint, .bits]
  | .sweep => [.idx, .txwave]

/-- The buffers a command writes: the "destinations" column of 30_encoding R82. -/
def destinations : Instr → List BufId
  | .nop => []
  | .b2b => [.bits]
  | .pad => [.pbits]
  | .group => [.idx]
  | .map => [.sym]
  | .grid => [.txgrid]
  | .totime => [.txblk]
  | .flattx => [.txwave]
  | .chan => [.rxwave]
  | .toblk => [.rxblk]
  | .tofreq => [.rxgrid]
  | .flatrx => [.rxflat]
  | .trunc => [.rxsym]
  | .demap => [.rxint]
  | .repack => [.outbuf]
  | .sweep => [.result]

/-- The entry that a sweep table holds at index `t` (10_state R24). -/
def sweepRead (table : List (Nat × SweepEntry)) (t : Nat) : SweepEntry :=
  match table with
  | [] => .unlisted
  | (u, e) :: rest => if t = u then e else sweepRead rest t

/-- The sweep table with entry `t` replaced, in canonical form: an entry equal to the unlisted one is not listed. -/
def sweepWrite (table : List (Nat × SweepEntry)) (t : Nat) (e : SweepEntry) : List (Nat × SweepEntry) :=
  match table with
  | [] => if e = .unlisted then [] else [(t, e)]
  | (u, f) :: rest =>
    if t = u then (if e = .unlisted then rest else (t, e) :: rest)
    else if t < u then (if e = .unlisted then (u, f) :: rest else (t, e) :: (u, f) :: rest)
    else (u, f) :: sweepWrite rest t e

/-- Sweep entries `0` to `cfg.S − 1`, in the configured sweep order (10_state R24). -/
def State.sweepEntries (s : State) : List SweepEntry :=
  (List.range s.cfgSweepLen).map (sweepRead s.sweepTable)

/-- The number of elements of a valid sequence. -/
def lengthOf {α : Type} (b : Option (List α)) : Nat := (b.getD []).length

/-- How many elements a buffer holds (10_state R22); none while it is not valid. -/
def State.size (s : State) : BufId → Nat
  | .inbuf => lengthOf s.inbuf
  | .bits => lengthOf s.bits
  | .pbits => lengthOf s.pbits
  | .idx => lengthOf s.idx
  | .sym => lengthOf s.sym
  | .txgrid => lengthOf (s.txgrid.map (·.data))
  | .txblk => lengthOf (s.txblk.map (·.data))
  | .txwave => lengthOf s.txwave
  | .rxwave => lengthOf s.rxwave
  | .rxblk => lengthOf (s.rxblk.map (·.data))
  | .rxgrid => lengthOf (s.rxgrid.map (·.data))
  | .rxflat => lengthOf s.rxflat
  | .rxsym => lengthOf s.rxsym
  | .rxint => lengthOf s.rxint
  | .outbuf => lengthOf s.outbuf
  | .result => lengthOf s.result

/-- `n` fits a register of width `CW` (10_state R22). -/
def fitsWidth (lim : Limits) (n : Nat) : Bool := lim.cw.all fun w => decide (n < 2 ^ w)

/-- `n` elements fit a buffer of capacity `CAP` (10_state R22). -/
def fitsCapacity (lim : Limits) (n : Nat) : Bool := lim.cap.all fun c => decide (n ≤ c)

/-- `n` entries fit a sweep table of capacity `SWEEP_MAX` (10_state R22, R24). -/
def fitsTable (lim : Limits) (n : Nat) : Bool := lim.sweepMax.all fun m => decide (n ≤ m)

/-- `okN`: `N ≥ 1` and `cp_len < N` (10_state R26). -/
def State.okN (s : State) : Bool := decide (1 ≤ s.cfgN) && decide (s.cfgCp < s.cfgN)

/-- `cfg.k`: the `k` with `2^k = M` where there is one (10_state R21). -/
def State.cfgK (s : State) : Nat := Nat.log2 s.cfgM

/-- `okM`: `M ≥ 2` and `M` is a power of two (10_state R26). -/
def State.okM (s : State) : Bool := decide (2 ≤ s.cfgM) && decide (2 ^ s.cfgK = s.cfgM)

/-- `okSweep`: the configured SNR values are pairwise distinct (10_state R26). -/
def State.okSweep (s : State) : Bool := decide (s.sweepEntries.map (·.snr)).Nodup

end Sys2Proof.Machine
end

