-- ==== Sys2Proof/Machine/Ops.lean ====
section
/-! DEFINITION. The named operations that every command and host action shares: invalidating a buffer, taking a fault
(60_exceptions R266), running a command (R265, R267), and the form of the memory. There is no return from a fault
(R268). -/

namespace Sys2Proof.Machine

open Sys2Proof

/-- `valid(B) <- 0`: the content has no value from then on (10_state R31, R32). -/
def State.invalidate (s : State) : BufId → State
  | .inbuf => { s with inbuf := none }
  | .bits => { s with bits := none }
  | .pbits => { s with pbits := none }
  | .idx => { s with idx := none }
  | .sym => { s with sym := none }
  | .txgrid => { s with txgrid := none }
  | .txblk => { s with txblk := none }
  | .txwave => { s with txwave := none }
  | .rxwave => { s with rxwave := none }
  | .rxblk => { s with rxblk := none }
  | .rxgrid => { s with rxgrid := none }
  | .rxflat => { s with rxflat := none }
  | .rxsym => { s with rxsym := none }
  | .rxint => { s with rxint := none }
  | .outbuf => { s with outbuf := none }
  | .result => { s with result := none }

/-- `raise Fault(code)` in a command with word `w` and destinations `dests`: `STATUS` records the code and the word,
the destinations are invalidated, nothing else changes (60_exceptions R266). -/
def State.raise (s : State) (code : FaultCode) (w : Byte) (dests : List BufId) : State :=
  dests.foldl State.invalidate { s with status := statusWord code w }

/-- Runs a command: a faulted core does not accept it (60_exceptions R267); otherwise its body gives the state after
it, refused where a destination exceeds the implementation's `CAP` (10_state R22, 93 U9), or the fault it takes
(R266). -/
def runCommandWithin (lim : Limits) (i : Instr) (body : State → Except FaultCode State) (s : State) :
    Host.Outcome State Fault Refusal :=
  if s.faulted then .next s
  else
    match body s with
    | .ok t =>
      match (destinations i).find? fun b => !fitsCapacity lim (t.size b) with
      | none => .next t
      | some b => .refused (.beyondCapacity b)
    | .error code => .next (s.raise code (encode i) (destinations i))

/-- Runs a command within the limits of this machine. -/
def runCommand (i : Instr) (body : State → Except FaultCode State) (s : State) : Host.Outcome State Fault Refusal :=
  runCommandWithin Config.limits i body s

/-- Issues a word that the opcode map lacks: `Fault(E_ILLCMD)`, no destination (30_encoding R83, 60_exceptions
R266); a faulted core does not accept it (R267). -/
def illegalWord (w : Byte) (s : State) : Host.Outcome State Fault Refusal :=
  if s.faulted then .next s else .next (s.raise .eIllcmd w [])

/-- The sweep table is in canonical form: indices strictly rising, no entry equal to the unlisted one. -/
def sweepTableWf : List (Nat × SweepEntry) → Bool
  | [] => true
  | (t, e) :: rest => decide (e ≠ .unlisted) && rest.all (fun u => decide (t < u.1)) && sweepTableWf rest

/-- Every valid Grid holds `rows·cols` elements (10_state R31). -/
def gridsWf (s : State) : Bool :=
  s.txgrid.all Grid.wellFormed && s.txblk.all Grid.wellFormed && s.rxblk.all Grid.wellFormed &&
    s.rxgrid.all Grid.wellFormed

/-- The form of the memory: the canonical sweep table and the Grids' shapes. The other buffers hold sequences of
their element type, every one of which is in form. -/
def Memory.wf (s : State) : Bool := sweepTableWf s.sweepTable && gridsWf s

end Sys2Proof.Machine
end

