-- ==== Sys2Proof/Machine/BitFramer.lean ====
section
/-! DEFINITION. The BitFramer commands `B2B`, `PAD`, `GROUP` (40_bitframer R100 to R104). -/

namespace Sys2Proof.Machine

open Sys2Proof

/-- The bits of a byte, bit 7 first (40_bitframer R100, 00_scope R16). -/
def byteBits (b : Byte) : List Bit := (List.range 8).map fun i => b.getLsbD (7 - i)

/-- The bits of a byte sequence (20_memory R63 item 1). -/
def bytesToBits (bytes : List Byte) : List Bit := bytes.flatMap byteBits

/-- Zero bits appended at the tail up to a multiple of `k` (40_bitframer R101). -/
def padBits (k : Nat) (bits : List Bit) : List Bit :=
  if bits.length % k = 0 then bits else bits ++ List.replicate (k - bits.length % k) false

/-- Bits read as an unsigned integer, the first the most significant (00_scope R16). -/
def bitsValue (bits : List Bit) : Nat := bits.foldl (fun acc b => 2 * acc + b.toNat) 0

/-- Consecutive groups of `k` bits, each read as an unsigned integer (40_bitframer R102). -/
def groupBits (k : Nat) (bits : List Bit) : List Nat :=
  (List.range (bits.length / k)).map fun s => bitsValue ((bits.drop (k * s)).take k)

def b2bBody (s : State) : Except FaultCode State :=
  match s.inbuf with
  | none => .error .eSeq
  | some bytes => .ok { s with bits := some (bytesToBits bytes) }

/-- `B2B` (40_bitframer R100). -/
def execB2b (s : State) : Host.Outcome State Fault Refusal := runCommand .b2b b2bBody s

def padBody (s : State) : Except FaultCode State :=
  if !s.okM then .error .eConfig
  else
    match s.bits with
    | none => .error .eSeq
    | some bits => .ok { s with pbits := some (padBits s.cfgK bits) }

/-- `PAD` (40_bitframer R101). -/
def execPad (s : State) : Host.Outcome State Fault Refusal := runCommand .pad padBody s

def groupBody (s : State) : Except FaultCode State :=
  if !s.okM then .error .eConfig
  else
    match s.pbits with
    | none => .error .eSeq
    | some pbits =>
      if pbits.length % s.cfgK ≠ 0 then .error .eShape
      else .ok { s with idx := some (groupBits s.cfgK pbits) }

/-- `GROUP` (40_bitframer R102). -/
def execGroup (s : State) : Host.Outcome State Fault Refusal := runCommand .group groupBody s

end Sys2Proof.Machine
end

