-- ==== Sys2Proof/Machine/Arith.lean ====
section
/-! DEFINITION. Exact arithmetic on Reals and Complex values (42_cmac_dft R140 to R143). Every operation returns the
normal form of the exact result; what each result denotes is proved in Laws/Arith.lean. -/

namespace Sys2Proof

/-- A factor spelt as a sequence of rationals: its kind, then its parts. Different factors are spelt differently. -/
def Factor.spell : Factor → List Rat
  | .free k => [0, k]
  | .seq seed i => [1, seed, i]
  | .host k => [2, k]
  | .rat q => [3, q]
  | .cos turn => [4, turn]
  | .add a b => 5 :: (a.spell ++ b.spell)
  | .mul a b => 6 :: (a.spell ++ b.spell)
  | .sqrt a => 7 :: a.spell
  | .pow10 a => 8 :: a.spell

/-- The lexicographic order of sequences of rationals. -/
def ltSpelling : List Rat → List Rat → Bool
  | [], [] => false
  | [], _ :: _ => true
  | _ :: _, [] => false
  | a :: as, b :: bs => decide (a < b) || (decide (a = b) && ltSpelling as bs)

/-- A fixed order of the factors: that of their spellings. -/
def Factor.lt (a b : Factor) : Bool := ltSpelling a.spell b.spell

/-- The lexicographic order of sequences of factors. -/
def Factor.ltList : List Factor → List Factor → Bool
  | [], [] => false
  | [], _ :: _ => true
  | _ :: _, [] => false
  | a :: as, b :: bs => Factor.lt a b || (decide (a = b) && Factor.ltList as bs)

/-- A fixed order of the products. -/
def Mono.lt (a b : Mono) : Bool :=
  decide (a.turn < b.turn) ||
    (decide (a.turn = b.turn) &&
      (decide (a.pow < b.pow) || (decide (a.pow = b.pow) && Factor.ltList a.factors b.factors)))

/-- The product that is 1. -/
def Mono.one : Mono := ⟨0, 0, []⟩

/-- A product in normal form: the angle in the first quadrant and not a sixth of a turn, the power of ten in [0, 1), the
named factors in order. -/
def Mono.inForm (m : Mono) : Bool :=
  decide (0 ≤ m.turn) && decide (m.turn < 1 / 4) && decide (m.turn ≠ 1 / 6) && decide (0 ≤ m.pow) &&
    decide (m.pow < 1) && decide (m.factors.Pairwise fun a b => Factor.lt b a = false)

/-- A Real in normal form: products in normal form, strictly rising, no coefficient zero. -/
def Num.inForm (x : Num) : Bool :=
  decide (x.terms.Pairwise fun a b => Mono.lt a.1 b.1 = true) &&
    x.terms.all fun t => t.1.inForm && decide (t.2 ≠ 0)

/-- Adds the term `c·m` to a sum in normal form. -/
def Num.insertTerm (m : Mono) (c : Rat) : List (Mono × Rat) → List (Mono × Rat)
  | [] => if c = 0 then [] else [(m, c)]
  | t :: l =>
    if m = t.1 then (if c + t.2 = 0 then l else (m, c + t.2) :: l)
    else if Mono.lt m t.1 then (if c = 0 then t :: l else (m, c) :: t :: l)
    else t :: Num.insertTerm m c l

/-- A rational number as a Real. -/
def Num.ofRat (q : Rat) : Num := ⟨if q = 0 then [] else [(Mono.one, q)]⟩

/-- One factor as a Real. -/
def Num.ofFactor (d : Factor) : Num := ⟨[(⟨0, 0, [d]⟩, 1)]⟩

/-- The Real 0. -/
def Num.zero : Num := ⟨[]⟩

/-- `x + y`. -/
def Num.add (x y : Num) : Num := ⟨x.terms.foldr (fun t acc => Num.insertTerm t.1 t.2 acc) y.terms⟩

/-- `q · x` for a rational `q`. -/
def Num.scale (q : Rat) (x : Num) : Num :=
  if q = 0 then Num.zero else ⟨x.terms.map fun t => (t.1, q * t.2)⟩

/-- `−x`. -/
def Num.neg (x : Num) : Num := Num.scale (-1) x

/-- `x − y`. -/
def Num.sub (x y : Num) : Num := Num.add x (Num.neg y)

/-- `(s, b)` with `cos(2πa) = s·cos(2πb)` and `0 ≤ b < 1/4`: the angle is taken modulo a whole turn and into the
first quadrant; a quarter turn gives 0 and a sixth of a turn 1/2. -/
def Num.foldTurn (a : Rat) : Rat × Rat :=
  let a := a - (a.floor : Rat)
  let a := if 1 / 2 < a then 1 - a else a
  if a = 1 / 4 then (0, 0)
  else
    let (s, b) := if 1 / 4 < a then ((-1 : Rat), 1 / 2 - a) else (1, a)
    if b = 1 / 6 then (s / 2, 0) else (s, b)

/-- `10^n` for an Int `n`. -/
def Num.tenPow (n : Int) : Rat :=
  if 0 ≤ n then ((10 ^ n.toNat : Nat) : Rat) else 1 / ((10 ^ (-n).toNat : Nat) : Rat)

/-- `cos(2πa)`. -/
def Num.cosTurn (a : Rat) : Num :=
  let (s, b) := Num.foldTurn a
  ⟨Num.insertTerm ⟨b, 0, []⟩ s []⟩

/-- `sin(2πa) = cos(2π(a − 1/4))`. -/
def Num.sinTurn (a : Rat) : Num := Num.cosTurn (a - 1 / 4)

/-- `10^p` for a rational `p`, the whole powers of ten taken out as a rational factor. -/
def Num.tenTo (p : Rat) : Num :=
  ⟨[(⟨0, p - (p.floor : Rat), []⟩, Num.tenPow p.floor)]⟩

/-- A Real of the host. -/
def Num.ofHost : HostReal → Num
  | .rat q => Num.ofRat q
  | .irr k => Num.ofFactor (.host k)

/-- A factor put into an ordered sequence of factors. -/
def Factor.insert (d : Factor) : List Factor → List Factor
  | [] => [d]
  | e :: l => if Factor.lt e d then e :: Factor.insert d l else d :: e :: l

/-- Adds `c · cos(2π·turn) · 10^pow · Π factors` to a sum in normal form. -/
def Num.addProduct (turn pow : Rat) (factors : List Factor) (c : Rat) (acc : List (Mono × Rat)) : List (Mono × Rat) :=
  let (s, b) := Num.foldTurn turn
  Num.insertTerm ⟨b, pow - (pow.floor : Rat), factors⟩ (c * s * Num.tenPow pow.floor) acc

/-- Adds the product of two terms to a sum: `cos a · cos b = (cos(a + b) + cos(a − b)) / 2`. -/
def Num.addMul (t u : Mono × Rat) (acc : List (Mono × Rat)) : List (Mono × Rat) :=
  let p := t.1.pow + u.1.pow
  let ds := (t.1.factors ++ u.1.factors).foldr Factor.insert []
  let c := t.2 * u.2
  if t.1.turn = 0 ∨ u.1.turn = 0 then Num.addProduct (t.1.turn + u.1.turn) p ds c acc
  else Num.addProduct (t.1.turn + u.1.turn) p ds (c / 2) (Num.addProduct (t.1.turn - u.1.turn) p ds (c / 2) acc)

/-- `x · y`. -/
def Num.mul (x y : Num) : Num :=
  ⟨x.terms.foldr (fun t acc => y.terms.foldr (fun u acc => Num.addMul t u acc) acc) []⟩

/-- The rational that a Real in normal form is, if it is one. -/
def Num.toRat? (x : Num) : Option Rat :=
  match x.terms with
  | [] => some 0
  | [(m, c)] => if m = Mono.one then some c else none
  | _ => none

/-- A Real written out as one expression, for a root or a power to be taken of. -/
def Num.toFactor (x : Num) : Factor :=
  x.terms.foldr
    (fun t acc =>
      .add (.mul (.rat t.2) (.mul (.mul (.cos t.1.turn) (.pow10 (.rat t.1.pow))) (t.1.factors.foldr .mul (.rat 1)))) acc)
    (.rat 0)

/-- `10^x`: in closed form for a rational `x`, else by name. -/
def Num.pow10 (x : Num) : Num :=
  match x.toRat? with
  | some p => Num.tenTo p
  | none => Num.ofFactor (.pow10 x.toFactor)

/-- Newton's iteration for the square root of `n`, from `x` above it down. -/
def newtonSqrt (n : Nat) : Nat → Nat → Nat
  | 0, x => x
  | fuel + 1, x => if (x + n / x) / 2 < x then newtonSqrt n fuel ((x + n / x) / 2) else x

/-- The candidate for the square root of `n`; it is checked where it is used. -/
def guessSqrt (n : Nat) : Nat := newtonSqrt n (n.log2 + 2) (2 ^ (n.log2 / 2 + 1))

/-- The square root of a rational that is a square. -/
def ratSqrt? (q : Rat) : Option Rat :=
  let r : Rat := (guessSqrt q.num.natAbs : Rat) / (guessSqrt q.den : Rat)
  if r * r = q then some r else none

/-- `sqrt(c·10^p)` where it has a closed form: `c`, `c/10` or `2c` is a square; `1/√2 = cos(2π/8)`. -/
def Num.sqrtTerm? (c p : Rat) : Option Num :=
  match ratSqrt? c with
  | some r => some (Num.scale r (Num.tenTo (p / 2)))
  | none =>
    match ratSqrt? (c / 10) with
    | some r => some (Num.scale r (Num.tenTo ((p + 1) / 2)))
    | none => (ratSqrt? (2 * c)).map fun r => Num.scale r (Num.mul (Num.cosTurn (1 / 8)) (Num.tenTo (p / 2)))

/-- `sqrt(x)`: in closed form for a power of ten and the like, else by name. Of a negative Real it is always by name, and
what the name denotes is a free value (notes/assumptions/29.md). -/
def Num.sqrt (x : Num) : Num :=
  let named := Num.ofFactor (.sqrt x.toFactor)
  match x.terms with
  | [] => Num.zero
  | [(m, c)] => if m.turn = 0 ∧ m.factors = [] then (Num.sqrtTerm? c m.pow).getD named else named
  | _ => named

/-- The integer nearest to a rational, if it is not an exact half (41_symbolmapper R126). -/
def Num.nearest? (q : Rat) : Option Int :=
  let f := q.floor
  let d := q - (f : Rat)
  if d < 1 / 2 then some f else if 1 / 2 < d then some (f + 1) else none

/-- `round(x)` (41_symbolmapper R126): a known integer where `x` is a rational and no exact half. -/
def Num.round (x : Num) : IntTerm :=
  match x.toRat? with
  | some q =>
    match Num.nearest? q with
    | some z => .lit z
    | none => .round x
  | none => .round x

/-- Both parts are in normal form. -/
def Cplx.inForm (z : Cplx) : Bool := z.re.inForm && z.im.inForm

/-- The complex zero `0 + j·0`. -/
def Cplx.zero : Cplx := ⟨Num.zero, Num.zero⟩

/-- The complex number `a + j·b` with rational parts. -/
def Cplx.ofRats (a b : Rat) : Cplx := ⟨Num.ofRat a, Num.ofRat b⟩

/-- `cadd` (42_cmac_dft R141). -/
def Cplx.add (x y : Cplx) : Cplx := ⟨Num.add x.re y.re, Num.add x.im y.im⟩

/-- `csub` (42_cmac_dft R141). -/
def Cplx.sub (x y : Cplx) : Cplx := ⟨Num.sub x.re y.re, Num.sub x.im y.im⟩

/-- `cscale(s, x)` for a Real `s` (42_cmac_dft R141). -/
def Cplx.scale (s : Num) (x : Cplx) : Cplx := ⟨Num.mul s x.re, Num.mul s x.im⟩

/-- `cmul` (42_cmac_dft R142). -/
def Cplx.mul (x y : Cplx) : Cplx :=
  ⟨Num.sub (Num.mul x.re y.re) (Num.mul x.im y.im), Num.add (Num.mul x.re y.im) (Num.mul x.im y.re)⟩

/-- `cmac(acc, x, y)`: one multiply-accumulate step (42_cmac_dft R143). -/
def Cplx.mac (acc x y : Cplx) : Cplx := Cplx.add acc (Cplx.mul x y)

/-- `Σ x[n]·y[n]` as one multiply-accumulate step per element (42_cmac_dft R143). -/
def Cplx.sumOfProducts (xs ys : List Cplx) : Cplx :=
  (xs.zip ys).foldl (fun acc p => Cplx.mac acc p.1 p.2) Cplx.zero

end Sys2Proof
end

