-- ==== Sys2Proof/Machine/Transform.lean ====
section
/-! DEFINITION. The transform engine in exact arithmetic, the prefix inserter and the prefix remover: functions used by
`TOTIME`, `TOBLK`, `TOFREQ` and `SWEEP`, none of them a command (42_cmac_dft R144 to R146, 43_ofdm_framer R163,
45_ofdm_deframer R203). -/

namespace Sys2Proof

/-- The twiddle factor `W(N, e) = cos(2πe/N) − j·sin(2πe/N)` (42_cmac_dft R144). -/
def twiddle (N : Nat) (e : Int) : Cplx :=
  ⟨Num.cosTurn ((e : Rat) / (N : Rat)), Num.neg (Num.sinTurn ((e : Rat) / (N : Rat)))⟩

/-- `DFT_N(x)`: element `m` is `Σ x[n]·W(N, m·n)` (42_cmac_dft R145). -/
def dft (N : Nat) (x : List Cplx) : List Cplx :=
  (List.range N).map fun m =>
    Cplx.sumOfProducts x ((List.range N).map fun n => twiddle N ((m * n : Nat) : Int))

/-- `IDFT_N(X)`: element `n` is `(1/N)·Σ X[m]·W(N, −m·n)` (42_cmac_dft R146). -/
def idft (N : Nat) (X : List Cplx) : List Cplx :=
  (List.range N).map fun n =>
    Cplx.scale (Num.ofRat (1 / (N : Rat)))
      (Cplx.sumOfProducts X ((List.range N).map fun m => twiddle N (-((m * n : Nat) : Int))))

/-- `cpins(t, p) = t[N−p : N] ++ t`, `N` the length of `t` (43_ofdm_framer R163). -/
def cpins (t : List Cplx) (p : Nat) : List Cplx := t.drop (t.length - p) ++ t

/-- `cprem(b, p) = b[p : N+p]` (45_ofdm_deframer R203). -/
def cprem (b : List Cplx) (p : Nat) : List Cplx := b.drop p

/-- Elements `c·n` to `(c+1)·n − 1` of a sequence: block or column number `c` (00_scope R14, 20_memory R63). -/
def chunk (x : List Cplx) (n c : Nat) : List Cplx := (x.drop (c * n)).take n

/-- `col(G, c)` (00_scope R14). -/
def Grid.col (g : Grid) (c : Nat) : List Cplx := chunk g.data g.rows c

end Sys2Proof
end

