-- ==== Sys2Proof/Machine/Format.lean ====
section
/-! DEFINITION. The open parameters `NUM` and `TOL` (00_scope R13, 42_cmac_dft R152): the arithmetic of an implementation
as one record of total functions. Every function that computes with Reals takes the record; the commands of this machine
give it `Config.num`, which is the spec's default: exact (notes/assumptions/21.md). -/

namespace Sys2Proof

/-- A number format: the record of total functions of 42_cmac_dft R152. A value of an inexact format is an exact Real
too, the one it stands for; a Real that a format cannot hold is rounded by the function it is given to. -/
structure NumFormat where
  add : Num → Num → Num
  mul : Num → Num → Num
  dft : Nat → List Cplx → List Cplx
  idft : Nat → List Cplx → List Cplx
  /-- `sqrt(x)`. The spec states no root of a negative Real (notes/assumptions/29.md). -/
  sqrt : Num → Num
  /-- `10^x`. -/
  pow10 : Num → Num
  round : Num → IntTerm

/-- Exact arithmetic (42_cmac_dft R140). -/
def NumFormat.exact : NumFormat where
  add := Num.add
  mul := Num.mul
  dft := Sys2Proof.dft
  idft := Sys2Proof.idft
  sqrt := Num.sqrt
  pow10 := Num.pow10
  round := Num.round

/-- `cadd` in a format (42_cmac_dft R141). -/
def NumFormat.cadd (f : NumFormat) (x y : Cplx) : Cplx := ⟨f.add x.re y.re, f.add x.im y.im⟩

/-- `cscale` in a format (42_cmac_dft R141). -/
def NumFormat.cscale (f : NumFormat) (s : Num) (x : Cplx) : Cplx := ⟨f.mul s x.re, f.mul s x.im⟩

/-- `NUM`: the number format of this machine (00_scope R13). -/
def Config.num : NumFormat := NumFormat.exact

/-- `TOL`: how far a result in the number format may lie from the exact one (00_scope R13). -/
def Config.tol : Rat := 0

end Sys2Proof
end

