-- ==== Sys2Proof/Machine/Channel.lean ====
section
/-! DEFINITION. The ChannelModel command `CHAN` and the noise generator (44_channel R180 to R186). -/

namespace Sys2Proof.Machine

open Sys2Proof

/-- `noisePower = 10^(−snrDb/10)` (44_channel R181). -/
def noisePower (f : NumFormat) (snr : HostReal) : Num := f.pow10 (f.mul (Num.ofRat (-1 / 10)) (Num.ofHost snr))

/-- `sigma = sqrt(noisePower)` (44_channel R181). -/
def sigma (f : NumFormat) (snr : HostReal) : Num := f.sqrt (noisePower f snr)

/-- `channel(x, snrDb, w)` (44_channel R181). -/
def channel (f : NumFormat) (x : List Cplx) (snr : HostReal) (w : List Cplx) : List Cplx :=
  List.zipWith (fun a b => f.cadd a (f.cscale (sigma f snr) b)) x w

/-- `(a + j·b)/√2` for two draws, `1/√2` as `sqrt(1/2)` (44_channel R182). -/
def noiseSample (f : NumFormat) (a b : Factor) : Cplx :=
  f.cscale (f.sqrt (Num.ofRat (1 / 2))) ⟨Num.ofFactor a, Num.ofFactor b⟩

/-- `L` samples from the first `2·L` draws of `NGSEQ(seed)`, in the order `a[0], b[0], a[1], ...`
(44_channel R182, R183). -/
def seededNoise (f : NumFormat) (seed L : Nat) : List Cplx :=
  (List.range L).map fun i => noiseSample f (.seq seed (2 * i)) (.seq seed (2 * i + 1))

/-- Sample `i` of an unseeded use: two draws that nothing constrains (44_channel R183). -/
def freeSample (f : NumFormat) (free i : Nat) : Cplx := noiseSample f (.free (free + 2 * i)) (.free (free + 2 * i + 1))

/-- `L` samples from `2·L` unconstrained draws, the free values from number `free` on (44_channel R183). -/
def freeNoise (f : NumFormat) (free L : Nat) : List Cplx := (List.range L).map (freeSample f free)

/-- `L` samples as a `.noise` directive fixes them, free where it gives none (30_encoding R85). -/
def scriptedNoise (f : NumFormat) (script : NoiseScript) (free L : Nat) : List Cplx :=
  match script with
  | .zeros => List.replicate L Cplx.zero
  | .samples ws => (List.range L).map fun i => (ws[i]?).getD (freeSample f free i)

/-- What one use of the noise source gives and leaves: the samples, the scripts still unused, the number of the next
free value. -/
structure NoiseUse where
  w : List Cplx
  script : List NoiseScript
  free : Nat
deriving DecidableEq, Repr

/-- `noise(seed, L)` (44_channel R183): no generator state is left behind (10_state R37). -/
def noise (f : NumFormat) (seed : Seed) (L : Nat) (script : List NoiseScript) (free : Nat) : NoiseUse :=
  if seed.en then ⟨seededNoise f seed.val L, script, free⟩
  else
    match script with
    | [] => ⟨freeNoise f free L, [], free + 2 * L⟩
    | sc :: rest => ⟨scriptedNoise f sc free L, rest, free + 2 * L⟩

def chanBody (f : NumFormat) (s : State) : Except FaultCode State :=
  match s.txwave with
  | none => .error .eSeq
  | some x =>
    let u := noise f s.nomSeed x.length s.noiseScript s.freeIdx
    .ok { s with rxwave := some (channel f x s.cfgSnrNom u.w), noiseScript := u.script, freeIdx := u.free }

/-- `CHAN` (44_channel R180). -/
def execChan (s : State) : Host.Outcome State Fault Refusal := runCommand .chan (chanBody Config.num) s

end Sys2Proof.Machine
end

