-- ==== Sys2Proof/Machine/OfdmDeframer.lean ====
section
/-! DEFINITION. The OFDMDeframer commands `TOBLK`, `TOFREQ`, `FLATRX`, `TRUNC` (45_ofdm_deframer R200 to R206). -/

namespace Sys2Proof.Machine

open Sys2Proof

/-- The waveform cut into blocks of `N + p` samples, the prefix of each removed (45_ofdm_deframer R200, R203). -/
def toBlocks (N p : Nat) (x : List Cplx) : Grid :=
  let nb := x.length / (N + p)
  ⟨N, nb, (List.range nb).flatMap fun c => cprem (chunk x (N + p) c) p⟩

/-- Every column forward transformed (45_ofdm_deframer R201). -/
def toFrequencyDomain (f : NumFormat) (N : Nat) (g : Grid) : Grid :=
  ⟨N, g.cols, (List.range g.cols).flatMap fun c => f.dft N (g.col c)⟩

/-- `deframe(x, N, p)`: the prefix removed from every block of `N + p` samples, then the forward transform
(45_ofdm_deframer R204). -/
def deframe (f : NumFormat) (x : List Cplx) (N p : Nat) : List Cplx :=
  (List.range (x.length / (N + p))).flatMap fun c => f.dft N (cprem (chunk x (N + p) c) p)

def toblkBody (s : State) : Except FaultCode State :=
  if !s.okN then .error .eConfig
  else
    match s.rxwave with
    | none => .error .eSeq
    | some x =>
      if x.length % (s.cfgN + s.cfgCp) ≠ 0 then .error .eShape
      else .ok { s with rxblk := some (toBlocks s.cfgN s.cfgCp x) }

/-- `TOBLK` (45_ofdm_deframer R200). -/
def execToblk (s : State) : Host.Outcome State Fault Refusal := runCommand .toblk toblkBody s

def tofreqBody (f : NumFormat) (s : State) : Except FaultCode State :=
  if !s.okN then .error .eConfig
  else
    match s.rxblk with
    | none => .error .eSeq
    | some g =>
      if g.rows ≠ s.cfgN then .error .eShape
      else .ok { s with rxgrid := some (toFrequencyDomain f s.cfgN g) }

/-- `TOFREQ` (45_ofdm_deframer R201). -/
def execTofreq (s : State) : Host.Outcome State Fault Refusal := runCommand .tofreq (tofreqBody Config.num) s

def flatrxBody (s : State) : Except FaultCode State :=
  match s.rxgrid with
  | none => .error .eSeq
  | some g => .ok { s with rxflat := some g.data }

/-- `FLATRX` (45_ofdm_deframer R202). -/
def execFlatrx (s : State) : Host.Outcome State Fault Refusal := runCommand .flatrx flatrxBody s

def truncBody (s : State) : Except FaultCode State :=
  match s.rxflat, s.idx with
  | some flat, some idx =>
    if flat.length < idx.length then .error .eShape
    else .ok { s with rxsym := some (flat.take idx.length) }
  | _, _ => .error .eSeq

/-- `TRUNC` (45_ofdm_deframer R206). -/
def execTrunc (s : State) : Host.Outcome State Fault Refusal := runCommand .trunc truncBody s

end Sys2Proof.Machine
end

