-- ==== Sys2Proof/Machine/OfdmFramer.lean ====
section
/-! DEFINITION. The OFDMFramer commands `GRID`, `TOTIME`, `FLATTX` (43_ofdm_framer R160 to R165). -/

namespace Sys2Proof.Machine

open Sys2Proof

/-- The symbols zero-padded at the tail to a multiple of `N` and laid out column by column (43_ofdm_framer R160). -/
def buildGrid (N : Nat) (syms : List Cplx) : Grid :=
  let nb := (syms.length + N - 1) / N
  ⟨N, nb, syms ++ List.replicate (nb * N - syms.length) Cplx.zero⟩

/-- Every column inverse transformed and prefixed (43_ofdm_framer R161, R163). -/
def toTimeDomain (f : NumFormat) (N p : Nat) (g : Grid) : Grid :=
  ⟨N + p, g.cols, (List.range g.cols).flatMap fun c => cpins (f.idft N (g.col c)) p⟩

def gridBody (s : State) : Except FaultCode State :=
  if !s.okN then .error .eConfig
  else
    match s.sym with
    | none => .error .eSeq
    | some syms => .ok { s with txgrid := some (buildGrid s.cfgN syms) }

/-- `GRID` (43_ofdm_framer R160). -/
def execGrid (s : State) : Host.Outcome State Fault Refusal := runCommand .grid gridBody s

def totimeBody (f : NumFormat) (s : State) : Except FaultCode State :=
  if !s.okN then .error .eConfig
  else
    match s.txgrid with
    | none => .error .eSeq
    | some g =>
      if g.rows ≠ s.cfgN then .error .eShape
      else .ok { s with txblk := some (toTimeDomain f s.cfgN s.cfgCp g) }

/-- `TOTIME` (43_ofdm_framer R161). -/
def execTotime (s : State) : Host.Outcome State Fault Refusal := runCommand .totime (totimeBody Config.num) s

def flattxBody (s : State) : Except FaultCode State :=
  match s.txblk with
  | none => .error .eSeq
  | some g => .ok { s with txwave := some g.data }

/-- `FLATTX` (43_ofdm_framer R162). -/
def execFlattx (s : State) : Host.Outcome State Fault Refusal := runCommand .flattx flattxBody s

end Sys2Proof.Machine
end

