-- ==== Sys2Proof/Machine/Output.lean ====
section
/-! DEFINITION. The output-boundary command `REPACK`, and `NOP` (47_output_and_misc R240 to R245). -/

namespace Sys2Proof.Machine

open Sys2Proof

/-- `byte_of_int(v)` (47_output_and_misc R241): a known byte where `v` is known and in 0 to 255. -/
def byteTerm (v : IntTerm) : ByteTerm :=
  match v with
  | .lit z => if 0 ≤ z ∧ z ≤ 255 then .lit (BitVec.ofInt 8 z) else .ofInt (.lit z)
  | .round x => .ofInt (.round x)

/-- The output bytes: each recovered integer is unpacked as one full byte, the bits are truncated to the original bit
count and packed again, so what is left is the first bytes (47_output_and_misc R240, R242). -/
def repackBytes (ints : List IntPair) (nbits : Nat) : List ByteTerm :=
  (ints.take (min nbits (8 * ints.length) / 8)).map fun p => byteTerm p.re

def repackBody (s : State) : Except FaultCode State :=
  match s.rxint, s.bits with
  | some ints, some bits =>
    .ok { s with outbuf := some (repackBytes ints bits.length) }
  | _, _ => .error .eSeq

/-- `REPACK` (47_output_and_misc R240). -/
def execRepack (s : State) : Host.Outcome State Fault Refusal := runCommand .repack repackBody s

/-- `NOP` changes no register, no buffer and no flag (47_output_and_misc R245). -/
def execNop (s : State) : Host.Outcome State Fault Refusal := runCommand .nop (fun s => .ok s) s

end Sys2Proof.Machine
end

