-- ==== Sys2Proof/Machine/Sweep.lean ====
section
/-! DEFINITION. The SweepEvaluator command `SWEEP` (46_sweep R220 to R230). -/

namespace Sys2Proof.Machine

open Sys2Proof

/-- Whether a recovered value is known, and differs from the original index (46_sweep R222). -/
def knownMismatch (p : IntTerm × Nat) : Bool :=
  match p.1 with
  | .lit z => decide (z ≠ (p.2 : Int))
  | .round _ => false

/-- Whether a recovered value is not known as a numeral. -/
def notNumeral (p : IntTerm × Nat) : Bool :=
  match p.1 with
  | .lit _ => false
  | .round _ => true

/-- `errs / n` for pairs of a recovered value and an original index (46_sweep R221, R222). -/
def errorRate (pairs : List (IntTerm × Nat)) (n : Nat) : Rate :=
  let errs := pairs.countP knownMismatch
  match pairs.filter notNumeral with
  | [] => .known ((errs : Rat) / (n : Rat))
  | rest => .counted errs rest n

/-- The real parts of the first `n` recovered symbols, rounded (46_sweep R221). -/
def recovered (f : NumFormat) (flat : List Cplx) (n : Nat) : List IntTerm := (flat.take n).map fun z => f.round z.re

/-- What one trial gives and leaves. -/
structure TrialUse where
  rate : Rate
  script : List NoiseScript
  free : Nat
deriving DecidableEq, Repr

/-- `trial(t)` for the sweep entry `e` (46_sweep R221); with no original index the rate is free (R224). -/
def trial (f : NumFormat) (idx : List Nat) (wave : List Cplx) (N p : Nat) (e : SweepEntry) (script : List NoiseScript)
    (free : Nat) : TrialUse :=
  let u := noise f e.seed wave.length script free
  if idx.length = 0 then ⟨.undetermined u.free, u.script, u.free + 1⟩
  else
    let flat := deframe f (channel f wave e.snr u.w) N p
    ⟨errorRate ((recovered f flat idx.length).zip idx) idx.length, u.script, u.free⟩

/-- What a whole sweep gives and leaves. -/
structure SweepUse where
  result : List (HostReal × Rate)
  script : List NoiseScript
  free : Nat
deriving DecidableEq, Repr

/-- The trials in the configured sweep order (46_sweep R220, R226). -/
def sweepTrials (f : NumFormat) (idx : List Nat) (wave : List Cplx) (N p : Nat) :
    List SweepEntry → List NoiseScript → Nat → SweepUse
  | [], script, free => ⟨[], script, free⟩
  | e :: es, script, free =>
    let r := trial f idx wave N p e script free
    let rs := sweepTrials f idx wave N p es r.script r.free
    ⟨(e.snr, r.rate) :: rs.result, rs.script, rs.free⟩

def sweepBody (f : NumFormat) (s : State) : Except FaultCode State :=
  if !(s.okN && s.okSweep) then .error .eConfig
  else
    match s.idx, s.txwave with
    | some idx, some wave =>
      if wave.length % (s.cfgN + s.cfgCp) ≠ 0 then .error .eShape
      else if wave.length / (s.cfgN + s.cfgCp) * s.cfgN < idx.length then .error .eShape
      else
        let u := sweepTrials f idx wave s.cfgN s.cfgCp s.sweepEntries s.noiseScript s.freeIdx
        .ok { s with result := some u.result, noiseScript := u.script, freeIdx := u.free }
    | _, _ => .error .eSeq

/-- `SWEEP` (46_sweep R220). -/
def execSweep (s : State) : Host.Outcome State Fault Refusal := runCommand .sweep (sweepBody Config.num) s

end Sys2Proof.Machine
end

