-- ==== Sys2Proof/Machine/SymbolMapper.lean ====
section
/-! DEFINITION. The SymbolMapper commands `MAP`, `DEMAP` (41_symbolmapper R120 to R126). -/

namespace Sys2Proof.Machine

open Sys2Proof

/-- `(2·index − 1) + j·(−1)`, exact integer arithmetic in every number format (41_symbolmapper R120). -/
def mapIndex (index : Nat) : Cplx := Cplx.ofRats (2 * (index : Rat) - 1) (-1)

/-- Both parts of a symbol rounded, independently (41_symbolmapper R121). -/
def demapSymbol (f : NumFormat) (z : Cplx) : IntPair := ⟨f.round z.re, f.round z.im⟩

def mapBody (s : State) : Except FaultCode State :=
  match s.idx with
  | none => .error .eSeq
  | some idx => .ok { s with sym := some (idx.map mapIndex) }

/-- `MAP` (41_symbolmapper R120). -/
def execMap (s : State) : Host.Outcome State Fault Refusal := runCommand .map mapBody s

def demapBody (f : NumFormat) (s : State) : Except FaultCode State :=
  match s.rxsym with
  | none => .error .eSeq
  | some syms => .ok { s with rxint := some (syms.map (demapSymbol f)) }

/-- `DEMAP` (41_symbolmapper R121). -/
def execDemap (s : State) : Host.Outcome State Fault Refusal := runCommand .demap (demapBody Config.num) s

end Sys2Proof.Machine
end

