-- ==== Sys2Proof/Machine/Dispatch.lean ====
section
/-! DEFINITION. One arm per command: the whole meaning of issuing it (30_encoding R82). -/

namespace Sys2Proof.Machine

open Sys2Proof

def exec (i : Instr) (s : State) : Host.Outcome State Fault Refusal :=
  match i with
  | .nop => Sys2Proof.Machine.execNop s
  | .b2b => Sys2Proof.Machine.execB2b s
  | .pad => Sys2Proof.Machine.execPad s
  | .group => Sys2Proof.Machine.execGroup s
  | .map => Sys2Proof.Machine.execMap s
  | .grid => Sys2Proof.Machine.execGrid s
  | .totime => Sys2Proof.Machine.execTotime s
  | .flattx => Sys2Proof.Machine.execFlattx s
  | .chan => Sys2Proof.Machine.execChan s
  | .toblk => Sys2Proof.Machine.execToblk s
  | .tofreq => Sys2Proof.Machine.execTofreq s
  | .flatrx => Sys2Proof.Machine.execFlatrx s
  | .trunc => Sys2Proof.Machine.execTrunc s
  | .demap => Sys2Proof.Machine.execDemap s
  | .repack => Sys2Proof.Machine.execRepack s
  | .sweep => Sys2Proof.Machine.execSweep s

end Sys2Proof.Machine
end

