-- ==== Sys2Proof/Machine/HostPort.lean ====
section
/-! DEFINITION. The host's actions (60_exceptions R280) and the directive `.noise` (30_encoding R85). An action is
performed whole, between commands. -/

namespace Sys2Proof.Machine

open Sys2Proof

/-- `Reset`: every piece of the core's state at its reset value (70_reset_and_hazards R290); the model's boundary with
the host and the noise source is no state of the core and stays (notes/assumptions/24.md). -/
def hostReset (s : State) : Host.Outcome State Fault Refusal :=
  .next { State.reset with
    pending := s.pending
    noiseScript := s.noiseScript
    answer := s.answer
    freeIdx := s.freeIdx }

/-- An outcome that stands only where a limit of the implementation is kept; else the action is refused (10_state R22,
93 U9). -/
def keeping (fits : Bool) (r : Refusal) (o : Host.Outcome State Fault Refusal) : Host.Outcome State Fault Refusal :=
  if fits then o else .refused r

/-- `R[no] <- v` for the writable registers 0 to 7 (10_state R21). -/
def writeRegister (lim : Limits) (no : Nat) (v : RegValue) (s : State) : Host.Outcome State Fault Refusal :=
  match no, v with
  | 0, .real x => .next { s with cfgFs := x }
  | 1, .real x => .next { s with cfgFc := x }
  | 2, .nat n => keeping (fitsWidth lim n) (.beyondWidth n) (.next { s with cfgN := n })
  | 3, .nat n => keeping (fitsWidth lim n) (.beyondWidth n) (.next { s with cfgCp := n })
  | 4, .nat n => keeping (fitsWidth lim n) (.beyondWidth n) (.next { s with cfgM := n })
  | 5, .real x => .next { s with cfgSnrNom := x }
  | 6, .nat n =>
    keeping (fitsWidth lim n) (.beyondWidth n)
      (keeping (fitsTable lim n) (.beyondSweepTable n) (.next { s with cfgSweepLen := n }))
  | 7, .seed e => keeping (fitsWidth lim e.val) (.beyondWidth e.val) (.next { s with nomSeed := e })
  | no, _ => if no < 8 then .refused (.registerTypeMismatch no) else .refused (.registerNotWritable no)

/-- `WriteReg(no, v)`: without effect on a faulted core (60_exceptions R267, R280). -/
def hostWriteReg (lim : Limits) (no : Nat) (v : RegValue) (s : State) : Host.Outcome State Fault Refusal :=
  if s.faulted then .next s else writeRegister lim no v s

/-- `WriteSweep(t, snr, seed)` for `t < SWEEP_MAX`: without effect on a faulted core (60_exceptions R267, R280). -/
def hostWriteSweep (lim : Limits) (t : Nat) (e : SweepEntry) (s : State) : Host.Outcome State Fault Refusal :=
  if s.faulted then .next s
  else
    keeping (fitsTable lim (t + 1)) (.beyondSweepTable t)
      (keeping (fitsWidth lim e.seed.val) (.beyondWidth e.seed.val)
        (.next { s with sweepTable := sweepWrite s.sweepTable t e }))

/-- The value of a register by its number (10_state R21, R23). -/
def readRegister (s : State) : Nat → Option RegValue
  | 0 => some (.real s.cfgFs)
  | 1 => some (.real s.cfgFc)
  | 2 => some (.nat s.cfgN)
  | 3 => some (.nat s.cfgCp)
  | 4 => some (.nat s.cfgM)
  | 5 => some (.real s.cfgSnrNom)
  | 6 => some (.nat s.cfgSweepLen)
  | 7 => some (.seed s.nomSeed)
  | 8 => some (.word s.status)
  | 9 => some (.word s.validWord)
  | _ => none

/-- `ReadReg(no)`: no side effect (60_exceptions R280). -/
def hostReadReg (no : Nat) (s : State) : Host.Outcome State Fault Refusal :=
  match readRegister s no with
  | some v => .next { s with answer := some (.reg v) }
  | none => .refused (.noSuchRegister no)

/-- `ReadSweep(t)` of an entry that the table has: no side effect (60_exceptions R280, 20_memory R60). -/
def hostReadSweep (lim : Limits) (t : Nat) (s : State) : Host.Outcome State Fault Refusal :=
  keeping (fitsTable lim (t + 1)) (.beyondSweepTable t)
    (.next { s with answer := some (.entry (sweepRead s.sweepTable t)) })

/-- `LoadInbuf(bytes)`: without effect on a faulted core (60_exceptions R267, R280). -/
def hostLoadInbuf (lim : Limits) (bytes : List Byte) (s : State) : Host.Outcome State Fault Refusal :=
  if s.faulted then .next s
  else keeping (fitsCapacity lim bytes.length) (.beyondCapacity .inbuf) (.next { s with inbuf := some bytes })

/-- The elements of a valid buffer in address order; a Grid's are its data, column by column (20_memory R60,
10_state R31). -/
def bufferElems (s : State) : BufId → Option (List Elem)
  | .inbuf => s.inbuf.map (·.map fun b => .byte (.lit b))
  | .bits => s.bits.map (·.map .bit)
  | .pbits => s.pbits.map (·.map .bit)
  | .idx => s.idx.map (·.map .index)
  | .sym => s.sym.map (·.map .complex)
  | .txgrid => s.txgrid.map (·.data.map .complex)
  | .txblk => s.txblk.map (·.data.map .complex)
  | .txwave => s.txwave.map (·.map .complex)
  | .rxwave => s.rxwave.map (·.map .complex)
  | .rxblk => s.rxblk.map (·.data.map .complex)
  | .rxgrid => s.rxgrid.map (·.data.map .complex)
  | .rxflat => s.rxflat.map (·.map .complex)
  | .rxsym => s.rxsym.map (·.map .complex)
  | .rxint => s.rxint.map (·.map .intPair)
  | .outbuf => s.outbuf.map (·.map .byte)
  | .result => s.result.map (·.map fun p => .keyed p.1 p.2)

/-- The Grid that a valid Grid buffer holds (10_state R30). -/
def bufferGrid (s : State) : BufId → Option Grid
  | .txgrid => s.txgrid
  | .txblk => s.txblk
  | .rxblk => s.rxblk
  | .rxgrid => s.rxgrid
  | _ => none

/-- `ReadBuf(B, i)` (20_memory R61). -/
def hostReadBuf (b : BufId) (i : Nat) (s : State) : Host.Outcome State Fault Refusal :=
  match bufferElems s b with
  | none => .refused (.bufferNotValid b)
  | some es =>
    match es[i]? with
    | some e => .next { s with answer := some (.elem e) }
    | none => .refused (.indexBeyondLength b i)

/-- `ReadLen(B)`: the length of a sequence, or `(rows, cols)` of a Grid (20_memory R61). -/
def hostReadLen (b : BufId) (s : State) : Host.Outcome State Fault Refusal :=
  match bufferElems s b with
  | none => .refused (.bufferNotValid b)
  | some es =>
    match bufferGrid s b with
    | some g => .next { s with answer := some (.shape g.rows g.cols) }
    | none => .next { s with answer := some (.len es.length) }

/-- `Issue(c)`: the decoded command, or the fault of an illegal word (60_exceptions R280, R265). -/
def hostIssue (w : Byte) (s : State) : Host.Outcome State Fault Refusal :=
  match decode w with
  | .ok i => exec i s
  | .error _ => illegalWord w s

/-- `.noise`: one more answer for the noise source (30_encoding R85). DESIGN CHOICE (notes/assumptions/17.md): on a
faulted core too the answer is queued, where it waits through a reset for the next unseeded use. R85 and 60_exceptions
R267 do not say what the directive does on a faulted core; 93 U21, taken to cover it, would give it no effect there. -/
def hostNoise (script : NoiseScript) (s : State) : Host.Outcome State Fault Refusal :=
  .next { s with noiseScript := s.noiseScript ++ [script] }

/-- One action of the host. -/
def perform (a : HostAction) (s : State) : Host.Outcome State Fault Refusal :=
  match a with
  | .reset => hostReset s
  | .writeReg no v => hostWriteReg Config.limits no v s
  | .writeSweep t e => hostWriteSweep Config.limits t e s
  | .readReg no => hostReadReg no s
  | .readSweep t => hostReadSweep Config.limits t s
  | .loadInbuf bytes => hostLoadInbuf Config.limits bytes s
  | .readBuf b i => hostReadBuf b i s
  | .readLen b => hostReadLen b s
  | .issue w => hostIssue w s
  | .noise script => hostNoise script s

/-- The next action that waits, taken off the queue and performed; a core with none waits for the host and does not
change (70_reset_and_hazards R291). -/
def performNext (s : State) : Host.Outcome State Fault Refusal :=
  match s.pending with
  | [] => .next s
  | a :: rest => perform a { s with pending := rest }

end Sys2Proof.Machine
end

