-- ==== Sys2Proof/Machine/Step.lean ====
section
/-! DEFINITION. One step of the machine: one action of the host, a command among them, performed whole
(00_scope R9, 20_memory R68). -/

namespace Sys2Proof.Machine

open Sys2Proof

/-- One step (notes/assumptions/5.md). -/
def step (s : State) : Host.Outcome State Fault Refusal := performNext s

/-- `s` with the command word of `nbits` bits issued next: the core fetches no commands, the host hands it one word at
a time (10_state R20, 20_memory R71), so the word goes to the head of the host's queue. -/
def State.withFetchWord (s : State) (nbits w : Nat) : State :=
  { s with pending := .issue (BitVec.ofNat 8 (w % 2 ^ nbits)) :: s.pending }

end Sys2Proof.Machine
end

