-- ==== Sys2Proof/Machine/Assembly.lean ====
section
/-! DEFINITION. Assembly: the statements a program is written in, and the host actions they stand for (30_encoding R85,
R86). Layout and comments of the text are not modelled (notes/assumptions/25.md). -/

namespace Sys2Proof.Machine

open Sys2Proof

/-- The mnemonic of a command (30_encoding R82). -/
def mnemonic : Instr → String
  | .nop => "NOP"
  | .b2b => "B2B"
  | .pad => "PAD"
  | .group => "GROUP"
  | .map => "MAP"
  | .grid => "GRID"
  | .totime => "TOTIME"
  | .flattx => "FLATTX"
  | .chan => "CHAN"
  | .toblk => "TOBLK"
  | .tofreq => "TOFREQ"
  | .flatrx => "FLATRX"
  | .trunc => "TRUNC"
  | .demap => "DEMAP"
  | .repack => "REPACK"
  | .sweep => "SWEEP"

/-- The commands in the order of their opcodes. -/
def allCommands : List Instr :=
  [.nop, .b2b, .pad, .group, .map, .grid, .totime, .flattx, .chan, .toblk, .tofreq, .flatrx, .trunc, .demap, .repack,
    .sweep]

/-- The command that a line of text is: its mnemonic, in capitals, with no operands (30_encoding R85). -/
def commandOfText (text : String) : Option Instr := allCommands.find? fun i => decide (mnemonic i = text)

/-- The pseudo-commands (30_encoding R86). -/
inductive Pseudo where
  | txall | rxall | pass
deriving DecidableEq, Repr

/-- The commands a pseudo-command stands for, in the order they are issued (30_encoding R86). -/
def Pseudo.expand : Pseudo → List Instr
  | .txall => [.b2b, .pad, .group, .map, .grid, .totime, .flattx]
  | .rxall => [.toblk, .tofreq, .flatrx, .trunc, .demap]
  | .pass =>
    [.b2b, .pad, .group, .map, .grid, .totime, .flattx, .chan, .toblk, .tofreq, .flatrx, .trunc, .demap, .repack]

/-- The number of the register that a `.cfg` directive names (10_state R21, 30_encoding R85). -/
def registerOfText (name : String) : Option Nat :=
  ["CFG_FS", "CFG_FC", "CFG_N", "CFG_CP", "CFG_M", "CFG_SNR_NOM", "CFG_SWEEP_LEN", "NOM_SEED"].findIdx?
    fun r => decide (r = name)

/-- The seed slot that a directive's value is: `none` for `en = 0`, a Nat for `en = 1` (30_encoding R85). What `val` is
then for `none` the spec does not say: 0 (DESIGN CHOICE, notes/assumptions/25.md). -/
def seedOfValue : Option Nat → Seed
  | none => ⟨false, 0⟩
  | some n => ⟨true, n⟩

/-- The script that a `.noise w0, w1, ...` directive gives, each value by its real and its imaginary part
(30_encoding R85). -/
def noiseOfValues (ws : List (HostReal × HostReal)) : NoiseScript :=
  .samples (ws.map fun w => ⟨Num.ofHost w.1, Num.ofHost w.2⟩)

/-- One statement of assembly (30_encoding R85). -/
inductive AsmLine where
  /-- A command, by its mnemonic. -/
  | command (i : Instr)
  /-- A pseudo-command. -/
  | pseudo (p : Pseudo)
  /-- A directive that stands for a host action: `.reset`, `.cfg`, `.sweep`, `.inbuf`, `.noise`. -/
  | directive (a : HostAction)
  /-- `.expect`: an assertion on the state, no action. -/
  | expect
deriving DecidableEq, Repr

/-- The host actions that one statement stands for: commands are encoded and issued, directives have no encoding
(30_encoding R85, R86). -/
def AsmLine.actions : AsmLine → List HostAction
  | .command i => [.issue (encode i)]
  | .pseudo p => p.expand.map fun i => .issue (encode i)
  | .directive a => [a]
  | .expect => []

/-- The host actions that a program stands for, in order. -/
def assemble (program : List AsmLine) : List HostAction := program.flatMap AsmLine.actions

end Sys2Proof.Machine
end

