-- ==== Sys2Proof/Machine/Implementation.lean ====
section
/-! DEFINITION. The commands on an implementation of any number format, so that claims can speak of one whose `NUM` is
not exact (42_cmac_dft R152). At `Config.num` this is `exec` (Laws/Ops.lean). -/

namespace Sys2Proof.Machine

open Sys2Proof

/-- The body of each command in the number format `f`: the state after it, or the fault it takes. -/
def commandBody (f : NumFormat) : Instr → State → Except FaultCode State
  | .nop => fun s => .ok s
  | .b2b => b2bBody
  | .pad => padBody
  | .group => groupBody
  | .map => mapBody
  | .grid => gridBody
  | .totime => totimeBody f
  | .flattx => flattxBody
  | .chan => chanBody f
  | .toblk => toblkBody
  | .tofreq => tofreqBody f
  | .flatrx => flatrxBody
  | .trunc => truncBody
  | .demap => demapBody f
  | .repack => repackBody
  | .sweep => sweepBody f

/-- Issuing a command to an implementation whose number format is `f`. -/
def execIn (f : NumFormat) (i : Instr) (s : State) : Host.Outcome State Fault Refusal := runCommand i (commandBody f i) s

/-- Commands issued in order to an implementation whose number format is `f`. -/
def issueAll (f : NumFormat) : List Instr → State → Host.Outcome State Fault Refusal
  | [], s => .next s
  | i :: is, s =>
    match execIn f i s with
    | .next t => issueAll f is t
    | .fault e => .fault e
    | .refused r => .refused r

end Sys2Proof.Machine
end

