-- ==== Sys2Proof/Machine/Value.lean ====
section
/-! DEFINITION. What the core's values denote: the real number of a Real, the complex number of a Complex, the integer
of an Int, the byte of a Byte, the real of an error rate. The machine never evaluates these functions (a real number
cannot be computed with); claims about values are stated in terms of them. -/

namespace Sys2Proof

open Classical in
/-- The irrational number that `HostReal.irr k` is: `Config.hostReal k`, if these are irrational and pairwise different;
if the free values of Config happen not to be, some others that are, so that the numbering is right in every case. -/
noncomputable def irrational (k : Nat) : ℝ :=
  if Function.Injective Config.hostReal ∧ ∀ n, Irrational (Config.hostReal n) then Config.hostReal k
  else Real.sqrt 2 + (k : ℝ)

/-- The real number that a Real of the host is (notes/assumptions/2.md). -/
noncomputable def HostReal.val : HostReal → ℝ
  | .rat q => (q : ℝ)
  | .irr k => irrational k

/-- `sqrt(x)` of a real number: the root, and of a negative number, where the spec states none, the free value
`Config.sqrtNegative x` (DESIGN CHOICE, notes/assumptions/29.md). -/
noncomputable def realSqrt (x : ℝ) : ℝ := if 0 ≤ x then Real.sqrt x else Config.sqrtNegative x

/-- The real number that a factor is: a free value, an element of the seeded sequence (44_channel R183), an irrational
Real of the host, or what the expression says (42_cmac_dft R140); a root of a negative number is a free value
(`realSqrt`). -/
noncomputable def Factor.val : Factor → ℝ
  | .free k => Config.drawReal k
  | .seq seed i => Config.ngSeq seed i
  | .host k => irrational k
  | .rat q => (q : ℝ)
  | .cos turn => Real.cos (2 * Real.pi * (turn : ℝ))
  | .add a b => a.val + b.val
  | .mul a b => a.val * b.val
  | .sqrt a => realSqrt a.val
  | .pow10 a => (10 : ℝ) ^ a.val

/-- The real number that a product is. -/
noncomputable def Mono.val (m : Mono) : ℝ :=
  Real.cos (2 * Real.pi * (m.turn : ℝ)) * (10 : ℝ) ^ (m.pow : ℝ) * (m.factors.map Factor.val).prod

/-- The real number that a Real is (42_cmac_dft R140). -/
noncomputable def Num.val (x : Num) : ℝ := (x.terms.map fun t => (t.2 : ℝ) * t.1.val).sum

/-- The complex number that a Complex is (00_scope R14). -/
noncomputable def Cplx.val (z : Cplx) : ℂ := ⟨z.re.val, z.im.val⟩

/-- `round(x)` of a real number: the nearest integer, and at an exact half the neighbour that `ROUND_TIE` picks
(41_symbolmapper R126). -/
noncomputable def roundReal (x : ℝ) : ℤ :=
  if x - ⌊x⌋ < 1 / 2 then ⌊x⌋
  else if 1 / 2 < x - ⌊x⌋ then ⌊x⌋ + 1
  else if Config.roundTie ⌊x⌋ then ⌊x⌋ + 1 else ⌊x⌋

/-- The integer that a demapped Int is. -/
noncomputable def IntTerm.val : IntTerm → ℤ
  | .lit z => z
  | .round x => roundReal x.val

/-- `byte_of_int(v)` (47_output_and_misc R241). -/
def byteOfInt (v : ℤ) : Byte := if 0 ≤ v ∧ v ≤ 255 then BitVec.ofInt 8 v else Config.byteOfInt v

/-- The byte that an output byte is. -/
noncomputable def ByteTerm.val : ByteTerm → Byte
  | .lit b => b
  | .ofInt v => byteOfInt v.val

/-- How many of the pairs differ (46_sweep R222). -/
noncomputable def mismatches (rest : List (IntTerm × Nat)) : Nat :=
  rest.countP fun p => decide (p.1.val ≠ (p.2 : ℤ))

/-- The real number that an error rate is (46_sweep R221, R224). -/
noncomputable def Rate.val : Rate → ℝ
  | .known q => q
  | .counted errs rest n => ((errs + mismatches rest : Nat) : ℝ) / (n : ℝ)
  | .undetermined free => Config.drawReal free

end Sys2Proof
end

