-- ==== Sys2Proof/Safety.lean ====
section
/-! DEFINITION. What counts as a safe run, in the terms claims use: the tests that decide whether a command faults, as
the tables of 60_exceptions R261 to R265 give them; what two states have in common; the invariants of the machine. -/

namespace Sys2Proof.Machine

open Sys2Proof

/-- The configuration predicate a command tests: the row `E_CONFIG` of 60_exceptions R261, R262. -/
def configTest (i : Instr) (s : State) : Bool :=
  match i with
  | .pad | .group => s.okM
  | .grid | .totime | .toblk | .tofreq => s.okN
  | .sweep => s.okN && s.okSweep
  | .nop | .b2b | .map | .flattx | .chan | .flatrx | .trunc | .demap | .repack => true

/-- Every source buffer is valid (60_exceptions R263). -/
def sequenceTest (i : Instr) (s : State) : Bool := (sources i).all s.valid

/-- The shape requirements a command tests (60_exceptions R264). -/
def shapeTest (i : Instr) (s : State) : Bool :=
  match i with
  | .group => decide (lengthOf s.pbits % s.cfgK = 0)
  | .totime => s.txgrid.all fun g => decide (g.rows = s.cfgN)
  | .toblk => decide (lengthOf s.rxwave % (s.cfgN + s.cfgCp) = 0)
  | .tofreq => s.rxblk.all fun g => decide (g.rows = s.cfgN)
  | .trunc => decide (lengthOf s.idx ≤ lengthOf s.rxflat)
  | .sweep =>
    decide (lengthOf s.txwave % (s.cfgN + s.cfgCp) = 0) &&
      decide (lengthOf s.idx ≤ lengthOf s.txwave / (s.cfgN + s.cfgCp) * s.cfgN)
  | .nop | .b2b | .pad | .map | .grid | .flattx | .chan | .flatrx | .demap | .repack => true

/-- The fault a command raises, the first test that fails deciding (60_exceptions R265). -/
def firstFault (i : Instr) (s : State) : Option FaultCode :=
  if !configTest i s then some .eConfig
  else if !sequenceTest i s then some .eSeq
  else if !shapeTest i s then some .eShape
  else none

/-- Issuing the command takes the fault `code` (60_exceptions R266). -/
def faultsWith (i : Instr) (code : FaultCode) (s : State) : Prop :=
  exec i s = .next (s.raise code (encode i) (destinations i))

/-- Element (row `r`, column `c`) of a Grid (00_scope R14). -/
def gridElem (g : Grid) (r c : Nat) : Cplx := g.data.getD (c * g.rows + r) Cplx.zero

/-- Element `i` of a sequence as a complex number. -/
noncomputable def elemVal (x : List Cplx) (i : Nat) : ℂ := (x.getD i Cplx.zero).val

/-- `r` is a rounding of `x` that 41_symbolmapper R126 allows: the nearest integer, at an exact half one of the two. -/
def isRounding (r : ℤ) (x : ℝ) : Prop :=
  (x - ⌊x⌋ < 1 / 2 → r = ⌊x⌋) ∧ (1 / 2 < x - ⌊x⌋ → r = ⌊x⌋ + 1) ∧ (x - ⌊x⌋ = 1 / 2 → r = ⌊x⌋ ∨ r = ⌊x⌋ + 1)

/-- The eight bits of a byte by division, bit 7 first (40_bitframer R100, 47_output_and_misc R240). -/
def divBits (y : Byte) : List Bit := (List.range 8).map fun b => decide (y.toNat / 2 ^ (7 - b) % 2 = 1)

/-- `w` is a noise sequence of length `L` that 44_channel R182, R183 allow for the seed slot: with `en = 1` the scaled
draws of `NGSEQ(val)`, with `en = 0` any. -/
def noiseAllowed (seed : Seed) (L : Nat) (w : List Cplx) : Prop :=
  w.length = L ∧
    (seed.en = true → ∀ i < L,
      elemVal w i = (Config.ngSeq seed.val (2 * i) + Config.ngSeq seed.val (2 * i + 1) * Complex.I) / Real.sqrt 2)

/-- Sample `i` of one use of the noise source, as a complex number (44_channel R182, R183): seeded, two draws of
`NGSEQ(val)` over √2; unseeded, what the `.noise` script gives where it gives one, else two free values over √2, those
of the use numbered from `free` on (notes/assumptions/6.md, 7.md, 17.md). -/
noncomputable def noiseVal (seed : Seed) (script : Option NoiseScript) (free i : Nat) : ℂ :=
  let unscripted : ℂ :=
    ((Config.drawReal (free + 2 * i) : ℂ) + Config.drawReal (free + 2 * i + 1) * Complex.I) / Real.sqrt 2
  if seed.en then
    ((Config.ngSeq seed.val (2 * i) : ℂ) + Config.ngSeq seed.val (2 * i + 1) * Complex.I) / Real.sqrt 2
  else
    match script with
    | none => unscripted
    | some .zeros => 0
    | some (.samples ws) => if i < ws.length then elemVal ws i else unscripted

/-- How many of the sweep entries before entry `t` are unseeded: the uses of the noise source that take a `.noise`
script or free values (notes/assumptions/17.md). -/
def unseededBefore (s : State) (t : Nat) : Nat :=
  (List.range t).countP fun k => !(sweepRead s.sweepTable k).seed.en

/-- Two complex numbers whose parts lie within `tol` of each other. -/
def closeTo (tol : ℝ) (x y : ℂ) : Prop := |x.re - y.re| ≤ tol ∧ |x.im - y.im| ≤ tol

/-- The named property of 42_cmac_dft R152, function by function: for all inputs, each output component is within `tol`
of the exact result. Of the root of a negative Real nothing is asked: the spec states no exact result there
(DESIGN CHOICE, notes/assumptions/29.md). -/
def withinTolerance (f : NumFormat) (tol : ℝ) : Prop :=
  (∀ x y, |(f.add x y).val - (x.val + y.val)| ≤ tol) ∧
  (∀ x y, |(f.mul x y).val - x.val * y.val| ≤ tol) ∧
  (∀ (N : Nat) (x : List Cplx), 1 ≤ N → x.length = N → (f.dft N x).length = N ∧
    ∀ m < N, closeTo tol (elemVal (f.dft N x) m)
      (∑ n ∈ Finset.range N, elemVal x n * Complex.exp (-(2 * Real.pi * (m * n) / N) * Complex.I))) ∧
  (∀ (N : Nat) (x : List Cplx), 1 ≤ N → x.length = N → (f.idft N x).length = N ∧
    ∀ n < N, closeTo tol (elemVal (f.idft N x) n)
      ((1 / N) * ∑ m ∈ Finset.range N, elemVal x m * Complex.exp ((2 * Real.pi * (m * n) / N) * Complex.I))) ∧
  (∀ x, 0 ≤ x.val → |(f.sqrt x).val - Real.sqrt x.val| ≤ tol) ∧
  (∀ x, |(f.pow10 x).val - (10 : ℝ) ^ x.val| ≤ tol) ∧
  ∀ x, |((f.round x).val : ℝ) - (roundReal x.val : ℝ)| ≤ tol

/-- The step takes the read at the head of the host's queue, answers `a` and changes nothing else (20_memory R61). -/
def answersRead (s : State) (rest : List HostAction) (a : Answer) : Prop :=
  step s = .next { s with pending := rest, answer := some a }

/-- A `ReadBuf(b, i)` at the head of the host's queue reads the sequence `es`: below its length it answers element `i`
and changes nothing else, at or beyond it it is refused (20_memory R61). -/
def readsElements (s : State) (b : BufId) (i : Nat) (rest : List HostAction) (es : List Elem) : Prop :=
  (∀ e, es[i]? = some e → answersRead s rest (.elem e)) ∧
    (es.length ≤ i → step s = .refused (.indexBeyondLength b i))

/-- The same content, valid or not, in one buffer. -/
def sameBuffer (s t : State) : BufId → Prop
  | .inbuf => s.inbuf = t.inbuf
  | .bits => s.bits = t.bits
  | .pbits => s.pbits = t.pbits
  | .idx => s.idx = t.idx
  | .sym => s.sym = t.sym
  | .txgrid => s.txgrid = t.txgrid
  | .txblk => s.txblk = t.txblk
  | .txwave => s.txwave = t.txwave
  | .rxwave => s.rxwave = t.rxwave
  | .rxblk => s.rxblk = t.rxblk
  | .rxgrid => s.rxgrid = t.rxgrid
  | .rxflat => s.rxflat = t.rxflat
  | .rxsym => s.rxsym = t.rxsym
  | .rxint => s.rxint = t.rxint
  | .outbuf => s.outbuf = t.outbuf
  | .result => s.result = t.result

/-- The same configuration registers and sweep table. -/
def sameConfig (s t : State) : Prop :=
  s.cfgFs = t.cfgFs ∧ s.cfgFc = t.cfgFc ∧ s.cfgN = t.cfgN ∧ s.cfgCp = t.cfgCp ∧ s.cfgM = t.cfgM ∧
    s.cfgSnrNom = t.cfgSnrNom ∧ s.cfgSweepLen = t.cfgSweepLen ∧ s.nomSeed = t.nomSeed ∧ s.sweepTable = t.sweepTable

/-- Everything but the host's queue and what the last host read returned is the same. -/
def sameCore (s t : State) : Prop :=
  { s with pending := t.pending, answer := t.answer } = t

/-- `STATUS` reads as 10_state R23 and 60_exceptions R261 say: bits 7:4 zero, `FAULT` at most 4, `FCMD` zero while
`FAULT` is. -/
def statusWf (s : State) : Bool :=
  decide (s.status.extractLsb' 4 4 = 0#4) && decide (s.faultField.toNat ≤ 4) &&
    (s.faulted || decide (s.fcmdField = 0#8))

/-- `BITS` holds whole bytes (40_bitframer R100). -/
def bitsWhole (s : State) : Bool := s.bits.all fun b => decide (b.length % 8 = 0)

/-- The invariant of the machine: the memory is in form, `STATUS` reads as the spec says, `BITS` holds whole bytes. -/
def invariant (s : State) : Bool := Memory.wf s && statusWf s && bitsWhole s

/-- Every Complex in a buffer is in normal form. -/
def numbersInForm (s : State) : Bool :=
  s.sym.all (·.all Cplx.inForm) && s.txgrid.all (·.data.all Cplx.inForm) && s.txblk.all (·.data.all Cplx.inForm) &&
    s.txwave.all (·.all Cplx.inForm) && s.rxwave.all (·.all Cplx.inForm) && s.rxblk.all (·.data.all Cplx.inForm) &&
    s.rxgrid.all (·.data.all Cplx.inForm) && s.rxflat.all (·.all Cplx.inForm) && s.rxsym.all (·.all Cplx.inForm)

end Sys2Proof.Machine
end

