-- ==== Sys2Proof/Certificates/Slice0/Obligations.lean ====
section
/-! DEFINITION. The statements made about the model, each formalising rules of spec/ (OBLIGATIONS.json lists the rules
and quotes them). Statements about a command hold for every state of a core that is not faulted; what a faulted core
does with any command is `FaultedCoreIsStuck`. A state after a command is written as the state before with the
destination replaced, which says that nothing else changes; what `State.raise` does is `FaultEntryWritesStatusOnly`. -/

open Sys2Proof Sys2Proof.Machine

/-! ## Command words -/

/-- 30_encoding section 2: every word of the opcode map selects its command. -/
def Obligations.OpcodeMapDecodes : Prop :=
  decode 0b00000000#8 = .ok .nop ∧ decode 0b00000001#8 = .ok .b2b ∧ decode 0b00000010#8 = .ok .pad ∧
    decode 0b00000011#8 = .ok .group ∧ decode 0b00000100#8 = .ok .map ∧ decode 0b00000101#8 = .ok .grid ∧
    decode 0b00000110#8 = .ok .totime ∧ decode 0b00000111#8 = .ok .flattx ∧ decode 0b00001000#8 = .ok .chan ∧
    decode 0b00001001#8 = .ok .toblk ∧ decode 0b00001010#8 = .ok .tofreq ∧ decode 0b00001011#8 = .ok .flatrx ∧
    decode 0b00001100#8 = .ok .trunc ∧ decode 0b00001101#8 = .ok .demap ∧ decode 0b00001110#8 = .ok .repack ∧
    decode 0b00001111#8 = .ok .sweep

/-- 30_encoding sections 1 and 2: decoding and encoding agree in both directions, and a command is one byte. -/
def Obligations.DecodeEncodeAgree : Prop :=
  (∀ (i : Instr) (rest : List Byte), decodeBytes (encode i :: rest) = .ok (i, rest)) ∧
    ∀ (w : Byte) (i : Instr), decode w = .ok i → encode i = w

/-- 30_encoding R83: every word from 0x10 to 0xFF raises `E_ILLCMD`, records the word, and changes nothing else. -/
def Obligations.IllegalWordFaults : Prop :=
  ∀ (w : Byte) (s : State) (rest : List HostAction), 0x10 ≤ w.toNat → s.faulted = false →
    s.pending = .issue w :: rest →
      ∃ st : BitVec 16, step s = .next { s with pending := rest, status := st } ∧
        st.extractLsb' 0 4 = 4#4 ∧ st.extractLsb' 4 4 = 0#4 ∧ st.extractLsb' 8 8 = w

/-- A step with a command word at the head of the host's queue is `exec` of the command the word decodes to, at the
state with the word taken off the queue. -/
def Obligations.StepIssuesDecodedCommand : Prop :=
  ∀ (s : State) (w : Byte) (i : Instr) (rest : List HostAction), s.pending = .issue w :: rest → decode w = .ok i →
    step s = exec i { s with pending := rest }

/-- 30_encoding R85, R86: a pseudo-command stands for its commands issued in order, and a command's statement for the
issue of its word; on a faulted core none of a pseudo-command's commands has an effect. -/
def Obligations.ProgramsIssueTheirCommands : Prop :=
  Pseudo.txall.expand = [.b2b, .pad, .group, .map, .grid, .totime, .flattx] ∧
    Pseudo.rxall.expand = [.toblk, .tofreq, .flatrx, .trunc, .demap] ∧
    Pseudo.pass.expand = Pseudo.txall.expand ++ [.chan] ++ Pseudo.rxall.expand ++ [.repack] ∧
    (∀ p : Pseudo, assemble [.pseudo p] = assemble (p.expand.map .command)) ∧
    (∀ i : Instr, assemble [.command i] = [.issue (encode i)] ∧ commandOfText (mnemonic i) = some i) ∧
    ∀ (p : Pseudo) (s : State), s.faulted = true → ∀ i ∈ p.expand, exec i s = .next s

/-! ## Reset, faults, the valid flags -/

/-- 10_state R40: the values the spec gives for reset. -/
def Obligations.ResetStateValues : Prop :=
  State.reset.status = 0 ∧ State.reset.validWord = 0 ∧ (∀ b, State.reset.valid b = false) ∧
    State.reset.cfgSweepLen = 0 ∧ State.reset.nomSeed.en = false ∧
    ∀ t, (sweepRead State.reset.sweepTable t).seed.en = false

/-- 70_reset_and_hazards R290: a reset is always permitted and leaves the values the spec gives for reset; no other
step leaves a faulted state. Of the registers the spec calls unspecified nothing is said. -/
def Obligations.ResetIsTheOnlyWayOutOfAFault : Prop :=
  (∀ (s : State) (rest : List HostAction), s.pending = .reset :: rest →
    ∃ t, step s = .next t ∧ t.status = 0 ∧ t.validWord = 0 ∧ (∀ b, t.valid b = false) ∧
      t.cfgSweepLen = 0 ∧ t.nomSeed.en = false ∧ (∀ k, (sweepRead t.sweepTable k).seed.en = false) ∧
      t.pending = rest) ∧
    ∀ (s t : State), s.faulted = true → (∀ rest, s.pending ≠ .reset :: rest) → step s = .next t →
      t.status = s.status ∧ t.faulted = true

/-- 70_reset_and_hazards R291: an idle core waits for the host. -/
def Obligations.IdleCoreWaits : Prop :=
  ∀ s : State, s.pending = [] → step s = .next s

/-- 60_exceptions R267, R280, 93 U21: while `FAULT ≠ 0` an `Issue`, a register write, a sweep-table write and a
`LoadInbuf` have no effect; the reads still answer. The model's choice are: that a sweep-table write has no effect, which
R267 does not name (notes/assumptions/16.md, DEDUCED); what a read of a register or sweep entry not written since reset
answers (3.md, 4.md, 18.md); and that `.noise` still queues its script (17.md), of which the clause says only that
`STATUS` stays. -/
def Obligations.FaultedCoreIsStuck : Prop :=
  ∀ (s : State) (a : HostAction) (rest : List HostAction), s.faulted = true → s.pending = a :: rest →
    match a with
    | .issue _ | .writeReg _ _ | .writeSweep _ _ | .loadInbuf _ => step s = .next { s with pending := rest }
    | .readReg no =>
      no < 10 → ∃ v, readRegister s no = some v ∧ step s = .next { s with pending := rest, answer := some (.reg v) }
    | .readSweep t =>
      step s = .next { s with pending := rest, answer := some (.entry (sweepRead s.sweepTable t)) }
    | .readBuf b i =>
      ∀ es e, bufferElems s b = some es → es[i]? = some e →
        step s = .next { s with pending := rest, answer := some (.elem e) }
    | .readLen b => s.valid b = true → ∃ ans, step s = .next { s with pending := rest, answer := some ans }
    | .reset => ∃ t, step s = .next t ∧ t.faulted = false
    | .noise _ => ∃ t, step s = .next t ∧ t.status = s.status

/-- A faulted core does not run any command (60_exceptions R267). -/
def Obligations.FaultedCoreRunsNoCommand : Prop :=
  ∀ (i : Instr) (s : State), s.faulted = true → exec i s = .next s

/-- 60_exceptions R266: taking a fault in a command with word `w` and destinations `ds` writes `STATUS.FAULT` and
`STATUS.FCMD`, clears the valid flag of each destination, and changes nothing else. R261: the number of each code. -/
def Obligations.FaultEntryWritesStatusOnly : Prop :=
  (FaultCode.eConfig.bits = 1#4 ∧ FaultCode.eShape.bits = 2#4 ∧ FaultCode.eSeq.bits = 3#4 ∧
    FaultCode.eIllcmd.bits = 4#4) ∧
  ∀ (s : State) (code : FaultCode) (w : Byte) (ds : List BufId),
    let t := s.raise code w ds
    t.faultField = code.bits ∧ t.fcmdField = w ∧ t.status.extractLsb' 4 4 = 0#4 ∧ t.faulted = true ∧
      (∀ b ∈ ds, t.valid b = false) ∧ (∀ b, b ∉ ds → sameBuffer s t b) ∧ sameConfig s t ∧
      t.pending = s.pending ∧ t.noiseScript = s.noiseScript ∧ t.answer = s.answer ∧ t.freeIdx = s.freeIdx

/-- 60_exceptions R265: the tests are made in the order decode, configuration, sequence, shape, and the first that
fails decides the fault; with none failing the command completes without a fault and its destinations are valid. -/
def Obligations.FirstFailingTestDecides : Prop :=
  (∀ (w : Byte) (s : State), s.faulted = false → (∀ i, decode w ≠ .ok i) →
    hostIssue w s = .next (s.raise .eIllcmd w [])) ∧
  (∀ (w : Byte) (i : Instr) (s : State), decode w = .ok i → hostIssue w s = exec i s) ∧
  ∀ (i : Instr) (s : State), s.faulted = false →
    (configTest i s = false → faultsWith i .eConfig s) ∧
    (configTest i s = true → sequenceTest i s = false → faultsWith i .eSeq s) ∧
    (configTest i s = true → sequenceTest i s = true → shapeTest i s = false → faultsWith i .eShape s) ∧
    (configTest i s = true → sequenceTest i s = true → shapeTest i s = true →
      ∃ t, exec i s = .next t ∧ t.status = s.status ∧ t.faulted = false ∧ ∀ b ∈ destinations i, t.valid b = true)

/-- The frame of every command (10_state R21, R30, R32, R33): only the destinations of 30_encoding R82 change among
the buffers, no configuration register and no sweep entry does, and `STATUS` does only by a fault. -/
def Obligations.CommandFrame : Prop :=
  ∀ (i : Instr) (s t : State), exec i s = .next t →
    (∀ b, b ∉ destinations i → sameBuffer s t b) ∧ sameConfig s t ∧ t.pending = s.pending ∧ t.answer = s.answer ∧
      (t.faulted = false → t.status = s.status) ∧
      (i ≠ .chan → i ≠ .sweep → t.noiseScript = s.noiseScript ∧ t.freeIdx = s.freeIdx)

/-- 10_state R33: a command other than `CHAN` and `SWEEP` gives the same destination content on unchanged sources and
unchanged configuration. -/
def Obligations.CommandsAreRepeatable : Prop :=
  ∀ (i : Instr) (s s' : State), i ≠ .chan → i ≠ .sweep → s.faulted = false → s'.faulted = false → sameConfig s s' →
    (∀ b ∈ sources i, sameBuffer s s' b) →
      ∃ t t', exec i s = .next t ∧ exec i s' = .next t' ∧ ∀ b ∈ destinations i, sameBuffer t t' b

/-- 60_exceptions R280 (`ReadReg`, `ReadSweep`), 10_state R21, R23: a read answers the register or the entry and
changes nothing else; bit `i` of `VALID` is the valid flag of the buffer with id `i`. That a register not written since
reset reads the model's reset value is the model's choice (notes/assumptions/3.md, 4.md, 18.md). -/
def Obligations.ReadsAnswerTheRegisters : Prop :=
  ∀ (s : State) (rest : List HostAction),
    (∀ q ∈ [(0, RegValue.real s.cfgFs), (1, .real s.cfgFc), (2, .nat s.cfgN), (3, .nat s.cfgCp), (4, .nat s.cfgM),
        (5, .real s.cfgSnrNom), (6, .nat s.cfgSweepLen), (7, .seed s.nomSeed), (8, .word s.status)],
      s.pending = .readReg q.1 :: rest → step s = .next { s with pending := rest, answer := some (.reg q.2) }) ∧
    (s.pending = .readReg 9 :: rest →
      ∃ w : BitVec 16, step s = .next { s with pending := rest, answer := some (.reg (.word w)) } ∧
        ∀ b : BufId, w.getLsbD b.id = s.valid b) ∧
    ∀ t, s.pending = .readSweep t :: rest →
      step s = .next { s with pending := rest, answer := some (.entry (sweepRead s.sweepTable t)) }

/-! ## Invariants -/

/-- The invariants hold after reset. -/
def Obligations.InvariantsHoldAtReset : Prop :=
  invariant State.reset = true ∧ numbersInForm State.reset = true

/-- Every step keeps the memory's form, the form of `STATUS` and whole bytes in `BITS` (10_state R23, R31,
60_exceptions R261, 40_bitframer R100). -/
def Obligations.StepKeepsInvariant : Prop :=
  ∀ s t : State, invariant s = true → step s = .next t → invariant t = true

/-- Every step keeps every Complex in a buffer in normal form: equal sums of products are equal data (the model's own
representation, notes/assumptions/1.md). -/
def Obligations.StepKeepsNumbersInForm : Prop :=
  ∀ s t : State, numbersInForm s = true → step s = .next t → numbersInForm t = true

/-! ## BitFramer -/

/-- 40_bitframer R100. -/
def Obligations.B2bUnpacksBitSevenFirst : Prop :=
  decode 0x01#8 = .ok .b2b ∧ ∀ s : State, s.faulted = false →
    (s.inbuf = none → faultsWith .b2b .eSeq s) ∧
    ∀ bytes, s.inbuf = some bytes →
      ∃ out : List Bit, exec .b2b s = .next { s with bits := some out } ∧ out.length = 8 * bytes.length ∧
        ∀ i b, i < bytes.length → b < 8 →
          out[8 * i + b]? = some (decide ((bytes.getD i 0).toNat / 2 ^ (7 - b) % 2 = 1))

/-- 40_bitframer R101. -/
def Obligations.PadAppendsZerosAtTail : Prop :=
  decode 0x02#8 = .ok .pad ∧ ∀ s : State, s.faulted = false →
    ((¬ ∃ k, 1 ≤ k ∧ 2 ^ k = s.cfgM) → faultsWith .pad .eConfig s) ∧
    ∀ k, 1 ≤ k → 2 ^ k = s.cfgM →
      (s.bits = none → faultsWith .pad .eSeq s) ∧
      ∀ bits, s.bits = some bits →
        (bits.length % k = 0 → exec .pad s = .next { s with pbits := some bits }) ∧
        (bits.length % k ≠ 0 →
          exec .pad s =
            .next { s with pbits := some (bits ++ List.replicate (k - bits.length % k) false) })

/-- 40_bitframer R102. -/
def Obligations.GroupReadsUnsignedIntegers : Prop :=
  decode 0x03#8 = .ok .group ∧ ∀ s : State, s.faulted = false →
    ((¬ ∃ k, 1 ≤ k ∧ 2 ^ k = s.cfgM) → faultsWith .group .eConfig s) ∧
    ∀ k, 1 ≤ k → 2 ^ k = s.cfgM →
      (s.pbits = none → faultsWith .group .eSeq s) ∧
      ∀ pbits, s.pbits = some pbits →
        (pbits.length % k ≠ 0 → faultsWith .group .eShape s) ∧
        (pbits.length % k = 0 →
          ∃ out : List Nat, exec .group s = .next { s with idx := some out } ∧ out.length = pbits.length / k ∧
            (∀ g, g < pbits.length / k →
              out[g]? = some (∑ i ∈ Finset.range k, (pbits.getD (k * g + i) false).toNat * 2 ^ (k - 1 - i))) ∧
            ∀ v ∈ out, v < 2 ^ k)

/-- 40_bitframer R103: the padding invariant, through `B2B`, `PAD` and `GROUP` at one `k`. -/
def Obligations.PaddedLengthIsSmallestMultiple : Prop :=
  ∀ (s : State) (bytes : List Byte) (k : Nat), s.faulted = false → s.inbuf = some bytes → 1 ≤ k → 2 ^ k = s.cfgM →
    ∃ t1 t2 t3 p ix, exec .b2b s = .next t1 ∧ exec .pad t1 = .next t2 ∧ exec .group t2 = .next t3 ∧
      t3.faulted = false ∧ t2.pbits = some p ∧ t3.idx = some ix ∧
      k ∣ p.length ∧ 8 * bytes.length ≤ p.length ∧ (∀ m, k ∣ m → 8 * bytes.length ≤ m → p.length ≤ m) ∧
      p.length = k * ((8 * bytes.length + k - 1) / k) ∧ ix.length = (8 * bytes.length + k - 1) / k

/-! ## SymbolMapper -/

/-- 41_symbolmapper R120: `(2·index − 1) − j`, whatever `M` is. -/
def Obligations.MapIsTwiceIndexMinusOne : Prop :=
  decode 0x04#8 = .ok .map ∧ ∀ s : State, s.faulted = false →
    (s.idx = none → faultsWith .map .eSeq s) ∧
    ∀ idx, s.idx = some idx →
      ∃ out : List Cplx, exec .map s = .next { s with sym := some out } ∧
        out.map Cplx.val = idx.map fun (i : Nat) => (2 * (i : ℂ) - 1) - Complex.I

/-- 41_symbolmapper R121, R126: both parts rounded to the nearest integer, independently, an exact half to one of its
two neighbours. -/
def Obligations.DemapRoundsBothParts : Prop :=
  decode 0x0D#8 = .ok .demap ∧ ∀ s : State, s.faulted = false →
    (s.rxsym = none → faultsWith .demap .eSeq s) ∧
    ∀ syms, s.rxsym = some syms →
      ∃ out : List IntPair, exec .demap s = .next { s with rxint := some out } ∧ out.length = syms.length ∧
        ∀ (i : Nat) (p : IntPair) (z : Cplx), out[i]? = some p → syms[i]? = some z →
          isRounding p.re.val z.val.re ∧ isRounding p.im.val z.val.im

/-- 41_symbolmapper R125: with no noise the recovered integer of an index is `2·index − 1`, which is the index only for
index 1. -/
def Obligations.DemapIsNotTheInverseOfMap : Prop :=
  (∀ (s t : State) (idx : List Nat), s.faulted = false → s.idx = some idx → exec .map s = .next t →
    ∃ u, exec .demap { t with rxsym := t.sym } = .next u ∧
      u.rxint = some (idx.map fun (i : Nat) => ⟨.lit (2 * (i : ℤ) - 1), .lit (-1)⟩)) ∧
  ∀ i : Nat, (2 * (i : ℤ) - 1 = i ↔ i = 1)

/-! ## The transform engine -/

/-- 42_cmac_dft R145: the forward transform. Sign and scale are the convention the spec supplies from general knowledge
(decision D13, notes/assumptions/13.md). -/
def Obligations.ForwardTransformFormula : Prop :=
  ∀ (N : Nat) (x : List Cplx), 1 ≤ N → x.length = N →
    (dft N x).length = N ∧
    ∀ m < N, elemVal (dft N x) m =
      ∑ n ∈ Finset.range N, elemVal x n * Complex.exp (-(2 * Real.pi * (m * n) / N) * Complex.I)

/-- 42_cmac_dft R146: the inverse transform. Sign and scale are the convention the spec supplies from general knowledge
(decision D13, notes/assumptions/13.md). -/
def Obligations.InverseTransformFormula : Prop :=
  ∀ (N : Nat) (X : List Cplx), 1 ≤ N → X.length = N →
    (idft N X).length = N ∧
    ∀ n < N, elemVal (idft N X) n =
      (1 / N) * ∑ m ∈ Finset.range N, elemVal X m * Complex.exp ((2 * Real.pi * (m * n) / N) * Complex.I)

/-- 42_cmac_dft R147: each transform undoes the other, exactly. -/
def Obligations.TransformsAreInverse : Prop :=
  ∀ (N : Nat) (x : List Cplx), 1 ≤ N → x.length = N →
    (dft N (idft N x)).map Cplx.val = x.map Cplx.val ∧ (idft N (dft N x)).map Cplx.val = x.map Cplx.val

/-- 42_cmac_dft R148: both transforms are linear, and a block `[c, 0, …, 0]` adds `c` to every subcarrier. The
second part rests on the forward transform's scale, the spec's decision D13 (notes/assumptions/13.md). -/
def Obligations.TransformsAreLinear : Prop :=
  (∀ (N : Nat) (x y : List Cplx) (s : Cplx), 1 ≤ N → x.length = N → y.length = N →
    let z := List.zipWith (fun a b => Cplx.add a (Cplx.mul s b)) x y
    ∀ k < N,
      elemVal (dft N z) k = elemVal (dft N x) k + s.val * elemVal (dft N y) k ∧
      elemVal (idft N z) k = elemVal (idft N x) k + s.val * elemVal (idft N y) k) ∧
  ∀ (N : Nat) (c : Cplx) (k : Nat), k < N → elemVal (dft N (c :: List.replicate (N - 1) Cplx.zero)) k = c.val

/-- 42_cmac_dft R149: sizes 1 and 2, with the sign and scale of the spec's decision D13 (notes/assumptions/13.md). -/
def Obligations.TransformSizesOneAndTwo : Prop :=
  ∀ a b : Cplx,
    (dft 1 [a]).map Cplx.val = [a.val] ∧ (idft 1 [a]).map Cplx.val = [a.val] ∧
    (dft 2 [a, b]).map Cplx.val = [a.val + b.val, a.val - b.val] ∧
    (idft 2 [a, b]).map Cplx.val = [(a.val + b.val) / 2, (a.val - b.val) / 2]

/-- 42_cmac_dft R151: the result for a column depends on that column only, and a grid of zero columns transforms to a
grid of zero columns. -/
def Obligations.ColumnsAreIndependent : Prop :=
  (∀ (N p : Nat) (g h : Grid) (c : Nat), p ≤ N → c < g.cols → c < h.cols → g.col c = h.col c →
    (toTimeDomain Config.num N p g).col c = (toTimeDomain Config.num N p h).col c ∧
      (toFrequencyDomain Config.num N g).col c = (toFrequencyDomain Config.num N h).col c) ∧
  ∀ (N p : Nat) (g : Grid), (toTimeDomain Config.num N p g).cols = g.cols ∧ (toFrequencyDomain Config.num N g).cols = g.cols ∧
    (g.cols = 0 → (toTimeDomain Config.num N p g).data = [] ∧ (toFrequencyDomain Config.num N g).data = [])

/-! ## OFDMFramer -/

/-- 43_ofdm_framer R160. -/
def Obligations.GridPadsWithComplexZero : Prop :=
  decode 0x05#8 = .ok .grid ∧ ∀ s : State, s.faulted = false →
    (¬ (1 ≤ s.cfgN ∧ s.cfgCp < s.cfgN) → faultsWith .grid .eConfig s) ∧
    (1 ≤ s.cfgN ∧ s.cfgCp < s.cfgN →
      (s.sym = none → faultsWith .grid .eSeq s) ∧
      ∀ syms, s.sym = some syms →
        ∃ g : Grid, exec .grid s = .next { s with txgrid := some g } ∧ g.rows = s.cfgN ∧
          syms.length ≤ g.cols * s.cfgN ∧ (∀ q, syms.length ≤ q * s.cfgN → g.cols ≤ q) ∧
          g.data.length = g.rows * g.cols ∧ (∀ n < syms.length, g.data[n]? = syms[n]?) ∧
          ∀ n, syms.length ≤ n → n < g.rows * g.cols → (g.data[n]?).map Cplx.val = some 0)

/-- 43_ofdm_framer R161, R163, R164: each block is the inverse transform of its column with the last `cp_len` samples
repeated at the front, a verbatim copy. The transform's formula is the spec's decision D13 (notes/assumptions/13.md).
The Grid read is in form, an invariant (`StepKeepsInvariant`). -/
def Obligations.TotimeTransformsAndPrefixes : Prop :=
  decode 0x06#8 = .ok .totime ∧ ∀ s : State, s.faulted = false →
    (¬ (1 ≤ s.cfgN ∧ s.cfgCp < s.cfgN) → faultsWith .totime .eConfig s) ∧
    (1 ≤ s.cfgN ∧ s.cfgCp < s.cfgN →
      (s.txgrid = none → faultsWith .totime .eSeq s) ∧
      ∀ g, s.txgrid = some g →
        (g.rows ≠ s.cfgN → faultsWith .totime .eShape s) ∧
        (g.rows = s.cfgN → g.wellFormed = true →
          ∃ b : Grid, exec .totime s = .next { s with txblk := some b } ∧
            b.rows = s.cfgN + s.cfgCp ∧ b.cols = g.cols ∧ b.data.length = b.rows * b.cols ∧
            (∀ c < b.cols, ∀ i < s.cfgCp, gridElem b i c = gridElem b (s.cfgN + i) c) ∧
            ∀ c < b.cols, ∀ n < s.cfgN,
              (gridElem b (s.cfgCp + n) c).val =
                (1 / s.cfgN) * ∑ m ∈ Finset.range s.cfgN,
                  (gridElem g m c).val * Complex.exp ((2 * Real.pi * (m * n) / s.cfgN) * Complex.I)))

/-- 43_ofdm_framer R162: the blocks in column order, with the recorded number of rows. The Grid read is in form, an
invariant (`StepKeepsInvariant`). -/
def Obligations.FlattxConcatenatesBlocks : Prop :=
  decode 0x07#8 = .ok .flattx ∧ ∀ s : State, s.faulted = false →
    (s.txblk = none → faultsWith .flattx .eSeq s) ∧
    ∀ g, s.txblk = some g → g.wellFormed = true →
      ∃ out : List Cplx, exec .flattx s = .next { s with txwave := some out } ∧ out.length = g.cols * g.rows ∧
        ∀ c < g.cols, ∀ i < g.rows, out[c * g.rows + i]? = some (gridElem g i c)

/-! ## ChannelModel -/

/-- 44_channel R180 to R183: `RXWAVE` is `TXWAVE` plus `sqrt(10^(−snr/10))` times the noise; the noise is the scaled
draws of `NGSEQ(val)` when seeded, and free values not used before when not. The model's choice are: that a seeded use
leaves a waiting `.noise` script unused (notes/assumptions/17.md), and how the free values are numbered (6.md, 7.md). An
unseeded use with a script waiting is `ChanUsesNoiseScript`. -/
def Obligations.ChanAddsScaledNoise : Prop :=
  decode 0x08#8 = .ok .chan ∧ ∀ s : State, s.faulted = false →
    (s.txwave = none → faultsWith .chan .eSeq s) ∧
    ∀ x, s.txwave = some x →
      ∃ (y w : List Cplx) (sc : List NoiseScript) (f : Nat),
        exec .chan s = .next { s with rxwave := some y, noiseScript := sc, freeIdx := f } ∧
        y.length = x.length ∧ noiseAllowed s.nomSeed x.length w ∧
        (∀ i < x.length,
          elemVal y i = elemVal x i + Real.sqrt ((10 : ℝ) ^ (-s.cfgSnrNom.val / 10)) * elemVal w i) ∧
        (s.nomSeed.en = true → sc = s.noiseScript ∧ f = s.freeIdx) ∧
        (s.nomSeed.en = false → s.noiseScript = [] → f = s.freeIdx + 2 * x.length ∧
          ∀ i < x.length, elemVal w i =
            (Config.drawReal (s.freeIdx + 2 * i) + Config.drawReal (s.freeIdx + 2 * i + 1) * Complex.I) / Real.sqrt 2)

/-- 30_encoding R85 and the model's reading of it (notes/assumptions/17.md): an unseeded `CHAN` is given the samples of
the oldest `.noise` directive. -/
def Obligations.ChanUsesNoiseScript : Prop :=
  ∀ (s : State) (x : List Cplx) (script : NoiseScript) (rest : List NoiseScript), s.faulted = false →
    s.nomSeed.en = false → s.txwave = some x → s.noiseScript = script :: rest →
      ∃ (y : List Cplx) (f : Nat),
        exec .chan s = .next { s with rxwave := some y, noiseScript := rest, freeIdx := f } ∧ y.length = x.length ∧
        match script with
        | .zeros => ∀ i < x.length, elemVal y i = elemVal x i
        | .samples ws => ∀ i, i < x.length → i < ws.length →
            elemVal y i = elemVal x i + Real.sqrt ((10 : ℝ) ^ (-s.cfgSnrNom.val / 10)) * elemVal ws i

/-- 44_channel R186: with `en = 1` and the same seed value, the same waveform and the same SNR give the same
`RXWAVE`. -/
def Obligations.SeededChanIsRepeatable : Prop :=
  ∀ (s s' : State) (x : List Cplx), s.faulted = false → s'.faulted = false → s.txwave = some x → s'.txwave = some x →
    s.cfgSnrNom = s'.cfgSnrNom → s.nomSeed = s'.nomSeed → s.nomSeed.en = true →
      ∃ (t t' : State) (y : List Cplx), exec .chan s = .next t ∧ exec .chan s' = .next t' ∧
        t.rxwave = some y ∧ t'.rxwave = some y

/-! ## OFDMDeframer -/

/-- 45_ofdm_deframer R200. -/
def Obligations.ToblkStripsThePrefix : Prop :=
  decode 0x09#8 = .ok .toblk ∧ ∀ s : State, s.faulted = false →
    (¬ (1 ≤ s.cfgN ∧ s.cfgCp < s.cfgN) → faultsWith .toblk .eConfig s) ∧
    (1 ≤ s.cfgN ∧ s.cfgCp < s.cfgN →
      (s.rxwave = none → faultsWith .toblk .eSeq s) ∧
      ∀ x, s.rxwave = some x →
        (x.length % (s.cfgN + s.cfgCp) ≠ 0 → faultsWith .toblk .eShape s) ∧
        (x.length % (s.cfgN + s.cfgCp) = 0 →
          ∃ g : Grid, exec .toblk s = .next { s with rxblk := some g } ∧ g.rows = s.cfgN ∧
            g.cols = x.length / (s.cfgN + s.cfgCp) ∧ g.data.length = g.rows * g.cols ∧
            ∀ c < g.cols, ∀ r < g.rows,
              x[c * (s.cfgN + s.cfgCp) + s.cfgCp + r]? = some (gridElem g r c)))

/-- 45_ofdm_deframer R201, 42_cmac_dft R145: each column forward transformed. The transform's formula is the spec's
decision D13 (notes/assumptions/13.md). The Grid read is in form, an invariant (`StepKeepsInvariant`). -/
def Obligations.TofreqTransformsColumns : Prop :=
  decode 0x0A#8 = .ok .tofreq ∧ ∀ s : State, s.faulted = false →
    (¬ (1 ≤ s.cfgN ∧ s.cfgCp < s.cfgN) → faultsWith .tofreq .eConfig s) ∧
    (1 ≤ s.cfgN ∧ s.cfgCp < s.cfgN →
      (s.rxblk = none → faultsWith .tofreq .eSeq s) ∧
      ∀ g, s.rxblk = some g →
        (g.rows ≠ s.cfgN → faultsWith .tofreq .eShape s) ∧
        (g.rows = s.cfgN → g.wellFormed = true →
          ∃ h : Grid, exec .tofreq s = .next { s with rxgrid := some h } ∧ h.rows = s.cfgN ∧ h.cols = g.cols ∧
            h.data.length = h.rows * h.cols ∧
            ∀ c < h.cols, ∀ m < s.cfgN,
              (gridElem h m c).val =
                ∑ n ∈ Finset.range s.cfgN,
                  (gridElem g n c).val * Complex.exp (-(2 * Real.pi * (m * n) / s.cfgN) * Complex.I)))

/-- 45_ofdm_deframer R202: the columns in order, down the rows of each. The Grid read is in form, an invariant
(`StepKeepsInvariant`). -/
def Obligations.FlatrxReadsColumnsInOrder : Prop :=
  decode 0x0B#8 = .ok .flatrx ∧ ∀ s : State, s.faulted = false →
    (s.rxgrid = none → faultsWith .flatrx .eSeq s) ∧
    ∀ g, s.rxgrid = some g → g.wellFormed = true →
      ∃ out : List Cplx, exec .flatrx s = .next { s with rxflat := some out } ∧ out.length = g.rows * g.cols ∧
        ∀ c < g.cols, ∀ r < g.rows, out[c * g.rows + r]? = some (gridElem g r c)

/-- 45_ofdm_deframer R206. -/
def Obligations.TruncKeepsOriginalCount : Prop :=
  decode 0x0C#8 = .ok .trunc ∧ ∀ s : State, s.faulted = false →
    (s.rxflat = none ∨ s.idx = none → faultsWith .trunc .eSeq s) ∧
    ∀ flat idx, s.rxflat = some flat → s.idx = some idx →
      (flat.length < idx.length → faultsWith .trunc .eShape s) ∧
      (idx.length ≤ flat.length →
        ∃ out : List Cplx, exec .trunc s = .next { s with rxsym := some out } ∧ out.length = idx.length ∧
          ∀ i < idx.length, out[i]? = flat[i]?)

/-- 45_ofdm_deframer R204: `deframe`, which a trial of `SWEEP` applies, is the composite of `TOBLK`, `TOFREQ` and
`FLATRX`, fault tests apart: it is what the three commands leave in `RXFLAT`, and element `c·N + m` is element `m` of the
forward transform of block `c` with its prefix removed. The transform's formula is the spec's decision D13
(notes/assumptions/13.md). -/
def Obligations.DeframeIsTheReceiveChain : Prop :=
  ∀ (s : State) (x : List Cplx), s.faulted = false → 1 ≤ s.cfgN → s.cfgCp < s.cfgN → s.rxwave = some x →
    x.length % (s.cfgN + s.cfgCp) = 0 →
      ∃ t1 t2 t3 : State, exec .toblk s = .next t1 ∧ exec .tofreq t1 = .next t2 ∧ exec .flatrx t2 = .next t3 ∧
        t3.faulted = false ∧ t3.rxflat = some (deframe Config.num x s.cfgN s.cfgCp) ∧
        (deframe Config.num x s.cfgN s.cfgCp).length = s.cfgN * (x.length / (s.cfgN + s.cfgCp)) ∧
        ∀ c < x.length / (s.cfgN + s.cfgCp), ∀ m < s.cfgN,
          elemVal (deframe Config.num x s.cfgN s.cfgCp) (c * s.cfgN + m) =
            ∑ n ∈ Finset.range s.cfgN, elemVal x (c * (s.cfgN + s.cfgCp) + s.cfgCp + n) *
              Complex.exp (-(2 * Real.pi * (m * n) / s.cfgN) * Complex.I)

/-- 45_ofdm_deframer R205: with the received waveform equal to the transmitted one, the recovered grid equals the
transmitted grid, element for element. The Grid read is in form, an invariant (`StepKeepsInvariant`). -/
def Obligations.ZeroNoiseRoundTrip : Prop :=
  ∀ (s : State) (g : Grid), s.faulted = false → 1 ≤ s.cfgN → s.cfgCp < s.cfgN → s.txgrid = some g →
    g.rows = s.cfgN → g.wellFormed = true →
      ∃ t1 t2 t3 t4 : State, exec .totime s = .next t1 ∧ exec .flattx t1 = .next t2 ∧
        exec .toblk { t2 with rxwave := t2.txwave } = .next t3 ∧ exec .tofreq t3 = .next t4 ∧ t4.faulted = false ∧
        ∃ h : Grid, t4.rxgrid = some h ∧ h.rows = g.rows ∧ h.cols = g.cols ∧
          h.data.map Cplx.val = g.data.map Cplx.val

/-! ## SweepEvaluator -/

/-- 46_sweep R220, R221, R222, R228, with 44_channel R181 and 45_ofdm_deframer R204 written out: one entry per
configured SNR in configured order, each rate the exact quotient of the positions whose rounded real part differs from
the original index. With `c = i / N` and `m = i % N`, recovered symbol `i` is element `m` of the forward transform of
block `c` of the noisy waveform, the prefix left out; the transform's formula (42_cmac_dft R145), its sign and its
scale, is the spec's decision D13 (notes/assumptions/13.md). That the unseeded trials are given the `.noise` scripts, oldest
first, and beyond them free values numbered from `freeIdx` on, in the order of the trials, is the model's choice
(notes/assumptions/6.md, 7.md, 17.md, 22.md). -/
def Obligations.SweepMeasuresEveryTrial : Prop :=
  decode 0x0F#8 = .ok .sweep ∧ ∀ s : State, s.faulted = false →
    (¬ (1 ≤ s.cfgN ∧ s.cfgCp < s.cfgN ∧ ∀ t u, t < u → u < s.cfgSweepLen →
        (sweepRead s.sweepTable t).snr.val ≠ (sweepRead s.sweepTable u).snr.val) →
      faultsWith .sweep .eConfig s) ∧
    (1 ≤ s.cfgN ∧ s.cfgCp < s.cfgN ∧ (∀ t u, t < u → u < s.cfgSweepLen →
        (sweepRead s.sweepTable t).snr.val ≠ (sweepRead s.sweepTable u).snr.val) →
      (s.idx = none ∨ s.txwave = none → faultsWith .sweep .eSeq s) ∧
      ∀ idx wave, s.idx = some idx → s.txwave = some wave →
        (wave.length % (s.cfgN + s.cfgCp) ≠ 0 ∨ wave.length / (s.cfgN + s.cfgCp) * s.cfgN < idx.length →
          faultsWith .sweep .eShape s) ∧
        (wave.length % (s.cfgN + s.cfgCp) = 0 → idx.length ≤ wave.length / (s.cfgN + s.cfgCp) * s.cfgN →
          ∃ (res : List (HostReal × Rate)) (sc : List NoiseScript) (f : Nat),
            exec .sweep s = .next { s with result := some res, noiseScript := sc, freeIdx := f } ∧
            res.map (·.1) = (List.range s.cfgSweepLen).map (fun t => (sweepRead s.sweepTable t).snr) ∧
            (idx ≠ [] → sc = s.noiseScript.drop (unseededBefore s s.cfgSweepLen) ∧
              f = s.freeIdx + 2 * wave.length * unseededBefore s s.cfgSweepLen) ∧
            ∀ t key rate, res[t]? = some (key, rate) → idx ≠ [] →
              ∃ rec : List ℤ, rec.length = idx.length ∧
                (∀ i < idx.length, isRounding (rec.getD i 0)
                  (∑ n ∈ Finset.range s.cfgN,
                    let j := i / s.cfgN * (s.cfgN + s.cfgCp) + s.cfgCp + n
                    (elemVal wave j + Real.sqrt ((10 : ℝ) ^ (-(sweepRead s.sweepTable t).snr.val / 10)) *
                        noiseVal (sweepRead s.sweepTable t).seed s.noiseScript[unseededBefore s t]?
                          (s.freeIdx + 2 * wave.length * unseededBefore s t) j) *
                      Complex.exp (-(2 * Real.pi * ((i % s.cfgN : Nat) * n) / s.cfgN) * Complex.I)).re) ∧
                rate.val = (((rec.zip idx).countP fun p => decide (p.1 ≠ (p.2 : ℤ)) : Nat) : ℝ) / (idx.length : ℝ)))

/-- 46_sweep R224: with no original index every trial's rate is a free Real of its own; the keys are as configured. -/
def Obligations.SweepOfEmptyPayloadIsFree : Prop :=
  ∀ (s : State) (wave : List Cplx), s.faulted = false → s.okN = true → s.okSweep = true → s.idx = some [] →
    s.txwave = some wave → wave.length % (s.cfgN + s.cfgCp) = 0 →
      ∃ (t : State) (res : List (HostReal × Rate)), exec .sweep s = .next t ∧ t.result = some res ∧
        res.map (·.1) = (List.range s.cfgSweepLen).map (fun k => (sweepRead s.sweepTable k).snr) ∧
        (∀ e ∈ res, ∃ k, s.freeIdx ≤ k ∧ k < t.freeIdx ∧ e.2.val = Config.drawReal k) ∧
        (res.map (·.2)).Nodup

/-- 46_sweep R225: a seeded trial depends on `IDX`, `TXWAVE`, `N`, `cp_len` and its own sweep entry only; so two sweeps
with every entry seeded give identical results. -/
def Obligations.SeededTrialsAreIndependent : Prop :=
  ∀ (s s' t t' : State) (idx : List Nat) (wave : List Cplx) (res res' : List (HostReal × Rate)) (k : Nat),
    s.faulted = false → s'.faulted = false → s.idx = some idx → s'.idx = some idx → idx ≠ [] →
    s.txwave = some wave → s'.txwave = some wave → s.cfgN = s'.cfgN → s.cfgCp = s'.cfgCp →
    exec .sweep s = .next t → t.faulted = false → exec .sweep s' = .next t' → t'.faulted = false →
    t.result = some res → t'.result = some res' → k < s.cfgSweepLen → k < s'.cfgSweepLen →
    sweepRead s.sweepTable k = sweepRead s'.sweepTable k → (sweepRead s.sweepTable k).seed.en = true →
      ∃ e, res[k]? = some e ∧ res'[k]? = some e

/-- 46_sweep R227: on the waveform of its own indices and with zero noise in every trial, every rate is the fraction of
the original indices that are not 1, whatever the SNR. That an unseeded trial takes the oldest `.noise` script, by which
the hypotheses give it zero noise, is the model's choice (notes/assumptions/17.md). -/
def Obligations.ZeroNoiseRateCountsIndicesOtherThanOne : Prop :=
  ∀ (s : State) (idx : List Nat), s.faulted = false → s.okN = true → s.okSweep = true → s.idx = some idx → idx ≠ [] →
    s.txwave = some (toTimeDomain Config.num s.cfgN s.cfgCp (buildGrid s.cfgN (idx.map mapIndex))).data →
    (∀ k < s.cfgSweepLen, (sweepRead s.sweepTable k).seed.en = false) →
    s.noiseScript = List.replicate s.cfgSweepLen .zeros →
      ∃ (t : State) (res : List (HostReal × Rate)), exec .sweep s = .next t ∧ t.result = some res ∧
        res.length = s.cfgSweepLen ∧
        ∀ e ∈ res, e.2.val = ((idx.countP fun i => decide (i ≠ 1) : Nat) : ℝ) / (idx.length : ℝ)

/-! ## Output, and NOP -/

/-- 47_output_and_misc R240, R241: each recovered integer is unpacked as eight bits, bit 7 first, the bits are truncated
to the original count, and every eight are packed again. -/
def Obligations.RepackPacksEightBitsPerInteger : Prop :=
  decode 0x0E#8 = .ok .repack ∧ ∀ s : State, s.faulted = false →
    (s.rxint = none ∨ s.bits = none → faultsWith .repack .eSeq s) ∧
    ∀ ints bits, s.rxint = some ints → s.bits = some bits →
      ∃ (out : List ByteTerm) (ys : List Byte),
        exec .repack s = .next { s with outbuf := some out } ∧ ys.length = ints.length ∧
        (∀ q p, ints[q]? = some p → 0 ≤ p.re.val → p.re.val ≤ 255 → ((ys.getD q 0).toNat : ℤ) = p.re.val) ∧
        let rbits := ys.flatMap divBits
        let tb := rbits.take (min bits.length rbits.length)
        out.length = tb.length / 8 ∧
          ∀ q y, out[q]? = some y → divBits y.val = (tb.drop (8 * q)).take 8

/-- 47_output_and_misc R242: with `8·n` original bits the output has `min n (len RXINT)` bytes, byte `q` the byte of the
`q`-th recovered integer. -/
def Obligations.RepackClosedForm : Prop :=
  ∀ (s : State) (ints : List IntPair) (bits : List Bit) (n : Nat), s.faulted = false → s.rxint = some ints →
    s.bits = some bits → bits.length = 8 * n →
      ∃ out : List ByteTerm, exec .repack s = .next { s with outbuf := some out } ∧
        out.length = min n ints.length ∧
        ∀ (q : Nat) (y : ByteTerm) (p : IntPair), out[q]? = some y → ints[q]? = some p → y.val = byteOfInt p.re.val

/-- 47_output_and_misc R245. -/
def Obligations.NopChangesNothing : Prop :=
  decode 0x00#8 = .ok .nop ∧ ∀ s : State, exec .nop s = .next s

/-! ## The host's actions -/

/-- 60_exceptions R280 (`WriteReg`), 10_state R25: the register holds the value and nothing else changes. The host
cannot write `STATUS` and `VALID`; that such a write is refused, and not ignored, is the model's choice
(notes/assumptions/19.md, DESIGN CHOICE). -/
def Obligations.WriteRegChangesOneRegister : Prop :=
  ∀ (s : State) (rest : List HostAction), s.faulted = false →
    (∀ x, s.pending = .writeReg 0 (.real x) :: rest → step s = .next { s with pending := rest, cfgFs := x }) ∧
    (∀ x, s.pending = .writeReg 1 (.real x) :: rest → step s = .next { s with pending := rest, cfgFc := x }) ∧
    (∀ n, s.pending = .writeReg 2 (.nat n) :: rest → step s = .next { s with pending := rest, cfgN := n }) ∧
    (∀ n, s.pending = .writeReg 3 (.nat n) :: rest → step s = .next { s with pending := rest, cfgCp := n }) ∧
    (∀ n, s.pending = .writeReg 4 (.nat n) :: rest → step s = .next { s with pending := rest, cfgM := n }) ∧
    (∀ x, s.pending = .writeReg 5 (.real x) :: rest → step s = .next { s with pending := rest, cfgSnrNom := x }) ∧
    (∀ n, s.pending = .writeReg 6 (.nat n) :: rest → step s = .next { s with pending := rest, cfgSweepLen := n }) ∧
    (∀ e, s.pending = .writeReg 7 (.seed e) :: rest → step s = .next { s with pending := rest, nomSeed := e }) ∧
    ∀ v, s.pending = .writeReg 8 v :: rest ∨ s.pending = .writeReg 9 v :: rest → ∃ r, step s = .refused r

/-- 60_exceptions R280 (`WriteSweep`): entry `t` holds the value, every other entry and everything else is unchanged.
The table is in form, an invariant (`StepKeepsInvariant`). -/
def Obligations.WriteSweepChangesOneEntry : Prop :=
  ∀ (s : State) (t : Nat) (e : SweepEntry) (rest : List HostAction), s.faulted = false →
    s.pending = .writeSweep t e :: rest → Memory.wf s = true →
      ∃ table, step s = .next { s with pending := rest, sweepTable := table } ∧ sweepRead table t = e ∧
        ∀ u, u ≠ t → sweepRead table u = sweepRead s.sweepTable u

/-- 60_exceptions R280 (`LoadInbuf`), 70_reset_and_hazards R297: `INBUF` holds the bytes and no other buffer changes,
so the buffers after it stay valid. -/
def Obligations.LoadInbufChangesInbufOnly : Prop :=
  ∀ (s : State) (bytes : List Byte) (rest : List HostAction), s.faulted = false →
    s.pending = .loadInbuf bytes :: rest →
      ∃ t, step s = .next t ∧ t = { s with pending := rest, inbuf := some bytes } ∧ t.valid .inbuf = true ∧
        ∀ b, b ≠ .inbuf → t.valid b = s.valid b

/-- 30_encoding R85 (`.noise`) on a core that is not faulted: one more script waits for the noise source and nothing
else changes. That the directive is an action of its own and the scripts a queue is the model's choice
(notes/assumptions/17.md). -/
def Obligations.NoiseDirectiveQueuesOneScript : Prop :=
  ∀ (s : State) (script : NoiseScript) (rest : List HostAction), s.faulted = false →
    s.pending = .noise script :: rest →
      step s = .next { s with pending := rest, noiseScript := s.noiseScript ++ [script] }

/-- 20_memory R61: a read of a valid buffer below its length answers the element and changes nothing else; a read of a
buffer that is not valid, or beyond the length, has no meaning. Which element `i` of a Grid is (its data, column by
column), and that an element of `RESULT` is the pair of key and rate, is inferred (notes/assumptions/18.md, DEDUCED). -/
def Obligations.ReadBufAnswersTheElement : Prop :=
  ∀ (s : State) (b : BufId) (i : Nat) (rest : List HostAction), s.pending = .readBuf b i :: rest →
    (s.valid b = false → step s = .refused (.bufferNotValid b)) ∧
    match b with
    | .inbuf => ∀ x, s.inbuf = some x → readsElements s b i rest (x.map fun y => .byte (.lit y))
    | .bits => ∀ x, s.bits = some x → readsElements s b i rest (x.map .bit)
    | .pbits => ∀ x, s.pbits = some x → readsElements s b i rest (x.map .bit)
    | .idx => ∀ x, s.idx = some x → readsElements s b i rest (x.map .index)
    | .sym => ∀ x, s.sym = some x → readsElements s b i rest (x.map .complex)
    | .txgrid => ∀ g, s.txgrid = some g → readsElements s b i rest (g.data.map .complex)
    | .txblk => ∀ g, s.txblk = some g → readsElements s b i rest (g.data.map .complex)
    | .txwave => ∀ x, s.txwave = some x → readsElements s b i rest (x.map .complex)
    | .rxwave => ∀ x, s.rxwave = some x → readsElements s b i rest (x.map .complex)
    | .rxblk => ∀ g, s.rxblk = some g → readsElements s b i rest (g.data.map .complex)
    | .rxgrid => ∀ g, s.rxgrid = some g → readsElements s b i rest (g.data.map .complex)
    | .rxflat => ∀ x, s.rxflat = some x → readsElements s b i rest (x.map .complex)
    | .rxsym => ∀ x, s.rxsym = some x → readsElements s b i rest (x.map .complex)
    | .rxint => ∀ x, s.rxint = some x → readsElements s b i rest (x.map .intPair)
    | .outbuf => ∀ x, s.outbuf = some x → readsElements s b i rest (x.map .byte)
    | .result => ∀ x, s.result = some x → readsElements s b i rest (x.map fun p => .keyed p.1 p.2)

/-- 20_memory R61: `ReadLen` answers the length of a valid sequence buffer or the shape of a valid Grid buffer, and
changes nothing else; of a buffer that is not valid it has no meaning. -/
def Obligations.ReadLenAnswersLengthOrShape : Prop :=
  ∀ (s : State) (b : BufId) (rest : List HostAction), s.pending = .readLen b :: rest →
    (s.valid b = false → step s = .refused (.bufferNotValid b)) ∧
    match b with
    | .inbuf => ∀ x, s.inbuf = some x → answersRead s rest (.len x.length)
    | .bits => ∀ x, s.bits = some x → answersRead s rest (.len x.length)
    | .pbits => ∀ x, s.pbits = some x → answersRead s rest (.len x.length)
    | .idx => ∀ x, s.idx = some x → answersRead s rest (.len x.length)
    | .sym => ∀ x, s.sym = some x → answersRead s rest (.len x.length)
    | .txgrid => ∀ g, s.txgrid = some g → answersRead s rest (.shape g.rows g.cols)
    | .txblk => ∀ g, s.txblk = some g → answersRead s rest (.shape g.rows g.cols)
    | .txwave => ∀ x, s.txwave = some x → answersRead s rest (.len x.length)
    | .rxwave => ∀ x, s.rxwave = some x → answersRead s rest (.len x.length)
    | .rxblk => ∀ g, s.rxblk = some g → answersRead s rest (.shape g.rows g.cols)
    | .rxgrid => ∀ g, s.rxgrid = some g → answersRead s rest (.shape g.rows g.cols)
    | .rxflat => ∀ x, s.rxflat = some x → answersRead s rest (.len x.length)
    | .rxsym => ∀ x, s.rxsym = some x → answersRead s rest (.len x.length)
    | .rxint => ∀ x, s.rxint = some x → answersRead s rest (.len x.length)
    | .outbuf => ∀ x, s.outbuf = some x → answersRead s rest (.len x.length)
    | .result => ∀ x, s.result = some x → answersRead s rest (.len x.length)

/-! ## The open parameters of an implementation -/

/-- 10_state R22, 93 U9: a register value, a sweep length, a sweep entry, a payload or a command's destination beyond
`CW`, `SWEEP_MAX` or `CAP` is refused, whatever the limits are; at the limits of this machine, the spec's default of
none (notes/assumptions/12.md), no step is refused for a limit. -/
def Obligations.BeyondALimitIsRefused : Prop :=
  (∀ (lim : Limits) (s : State), s.faulted = false →
    (∀ w, lim.cw = some w →
      (∀ no ∈ [2, 3, 4, 6], ∀ n, 2 ^ w ≤ n → hostWriteReg lim no (.nat n) s = .refused (.beyondWidth n)) ∧
      (∀ e : Seed, 2 ^ w ≤ e.val → hostWriteReg lim 7 (.seed e) s = .refused (.beyondWidth e.val)) ∧
      ∀ (t : Nat) (e : SweepEntry), 2 ^ w ≤ e.seed.val → ∃ r, hostWriteSweep lim t e s = .refused r) ∧
    (∀ m, lim.sweepMax = some m →
      (∀ n, m < n → ∃ r, hostWriteReg lim 6 (.nat n) s = .refused r) ∧
      ∀ t, m ≤ t → hostReadSweep lim t s = .refused (.beyondSweepTable t) ∧
        ∀ e, hostWriteSweep lim t e s = .refused (.beyondSweepTable t)) ∧
    ∀ c, lim.cap = some c →
      (∀ bytes, c < bytes.length → hostLoadInbuf lim bytes s = .refused (.beyondCapacity .inbuf)) ∧
      ∀ (i : Instr) (body : State → Except FaultCode State) (t : State) (b : BufId), body s = .ok t →
        b ∈ destinations i → c < t.size b → runCommandWithin lim i body s = .refused (.beyondCapacity b)) ∧
  ∀ (s : State) (r : Refusal), step s = .refused r →
    (∀ n, r ≠ .beyondWidth n) ∧ (∀ b, r ≠ .beyondCapacity b) ∧ ∀ n, r ≠ .beyondSweepTable n

/-- 42_cmac_dft R140, R152: each function of the machine's number format is within `TOL` of the exact result; `NUM`
exact and `TOL = 0` are the spec's default (notes/assumptions/21.md). Of the root of a negative Real the spec states no
exact result, and nothing is said of it (29.md). The exact transforms are those of R145 and R146, whose sign and scale
are the spec's decision D13 (13.md). -/
def Obligations.NumberFormatIsWithinTolerance : Prop :=
  withinTolerance Config.num (Config.tol : ℝ)

/-- 42_cmac_dft R152: `DEMAP` of an implementation whose number format `f` is not exact, on symbols that carry an error
of at most `tol'`, gives the integer of exact arithmetic wherever the exact part is farther than `tol'` from every
half-integer. The tolerance of `f` lies below 1, so that its `round` errs by no whole integer. -/
def Obligations.DemapToleratesSmallErrors : Prop :=
  ∀ (f : NumFormat) (tol tol' : ℝ) (s s' : State) (syms syms' : List Cplx), withinTolerance f tol → tol < 1 →
    s.faulted = false → s'.faulted = false → s.rxsym = some syms → s'.rxsym = some syms' →
    syms.length = syms'.length → (∀ i < syms.length, closeTo tol' (elemVal syms' i) (elemVal syms i)) →
      ∃ (t t' : State) (out out' : List IntPair), exec .demap s = .next t ∧ execIn f .demap s' = .next t' ∧
        t.rxint = some out ∧ t'.rxint = some out' ∧ out.length = syms.length ∧ out'.length = syms.length ∧
        ∀ (i : Nat) (p p' : IntPair), out[i]? = some p → out'[i]? = some p' →
          ((∀ z : ℤ, tol' < |(elemVal syms i).re - (z + 1 / 2)|) → p'.re.val = p.re.val) ∧
          ((∀ z : ℤ, tol' < |(elemVal syms i).im - (z + 1 / 2)|) → p'.im.val = p.im.val)

/-- 42_cmac_dft R152 along the receive chain (30_encoding R86, `RXALL`): on a waveform that carries an error of at most
`e`, an implementation whose number format is not exact recovers the integer of exact arithmetic wherever the exact
symbol is farther than `TOL' = 2·N·e + tol` from every half-integer: each of the `N` samples of a block adds at most
`2·e`, and the transform its own `tol`. The transform, R145, has the sign and scale of the spec's decision D13
(notes/assumptions/13.md). -/
def Obligations.ReceiveChainToleratesSmallErrors : Prop :=
  ∀ (f : NumFormat) (tol e : ℝ) (s s' : State) (x x' : List Cplx) (idx : List Nat), withinTolerance f tol → tol < 1 →
    s.faulted = false → s'.faulted = false → s'.cfgN = s.cfgN → s'.cfgCp = s.cfgCp → 1 ≤ s.cfgN → s.cfgCp < s.cfgN →
    s.rxwave = some x → s'.rxwave = some x' → x'.length = x.length → x.length % (s.cfgN + s.cfgCp) = 0 →
    (∀ i < x.length, closeTo e (elemVal x' i) (elemVal x i)) → s.idx = some idx → s'.idx = some idx →
    idx.length ≤ x.length / (s.cfgN + s.cfgCp) * s.cfgN →
      ∃ (t t' : State) (syms : List Cplx) (out out' : List IntPair),
        issueAll Config.num Pseudo.rxall.expand s = .next t ∧ issueAll f Pseudo.rxall.expand s' = .next t' ∧
        t.rxsym = some syms ∧ t.rxint = some out ∧ t'.rxint = some out' ∧
        out.length = idx.length ∧ out'.length = idx.length ∧
        ∀ (i : Nat) (p p' : IntPair), out[i]? = some p → out'[i]? = some p' →
          ((∀ z : ℤ, 2 * s.cfgN * e + tol < |(elemVal syms i).re - (z + 1 / 2)|) → p'.re.val = p.re.val) ∧
          ((∀ z : ℤ, 2 * s.cfgN * e + tol < |(elemVal syms i).im - (z + 1 / 2)|) → p'.im.val = p.im.val)
end

