-- ==== Sys2Proof/Laws/Arith.lean ====
section
/-! SUPPORT. What each arithmetic operation of Machine/Arith.lean denotes: the exact real or complex operation
(42_cmac_dft R140 to R143). -/

namespace Sys2Proof

/-- The real number that a list of terms sums to. -/
noncomputable def termsVal (l : List (Mono × Rat)) : ℝ := (l.map fun t => (t.2 : ℝ) * t.1.val).sum

theorem Num.val_eq_termsVal (x : Num) : x.val = termsVal x.terms := rfl

@[simp] theorem termsVal_nil : termsVal [] = 0 := by simp [termsVal]

@[simp] theorem termsVal_cons (t : Mono × Rat) (l : List (Mono × Rat)) :
    termsVal (t :: l) = (t.2 : ℝ) * t.1.val + termsVal l := by simp [termsVal]

theorem termsVal_insertTerm (m : Mono) (c : Rat) (l : List (Mono × Rat)) :
    termsVal (Num.insertTerm m c l) = (c : ℝ) * m.val + termsVal l := by
  induction l with
  | nil => by_cases h : c = 0 <;> simp [Num.insertTerm, h]
  | cons t l ih =>
    simp only [Num.insertTerm]
    split_ifs with h1 h2 h3 h4
    · subst h1
      have h2' : (c : ℝ) + (t.2 : ℝ) = 0 := by exact_mod_cast h2
      rw [termsVal_cons, ← add_assoc, ← add_mul, h2']
      ring
    · subst h1
      simp only [termsVal_cons]
      push_cast
      ring
    · simp [h4]
    · simp
    · simp only [termsVal_cons, ih]
      ring

theorem termsVal_foldr_insertTerm (l acc : List (Mono × Rat)) :
    termsVal (l.foldr (fun t acc => Num.insertTerm t.1 t.2 acc) acc) = termsVal l + termsVal acc := by
  induction l with
  | nil => simp
  | cons t l ih =>
    simp only [List.foldr_cons, termsVal_insertTerm, ih, termsVal_cons]
    ring

theorem termsVal_scale (q : Rat) (l : List (Mono × Rat)) :
    termsVal (l.map fun t => (t.1, q * t.2)) = (q : ℝ) * termsVal l := by
  induction l with
  | nil => simp
  | cons t l ih =>
    simp only [List.map_cons, termsVal_cons, ih]
    push_cast
    ring

@[simp] theorem Mono.val_one : Mono.one.val = 1 := by simp [Mono.one, Mono.val]

@[simp] theorem Num.val_zero : Num.zero.val = 0 := by simp [Num.zero, Num.val]

@[simp] theorem Num.val_ofRat (q : Rat) : (Num.ofRat q).val = (q : ℝ) := by
  rw [Num.val_eq_termsVal, Num.ofRat]
  split_ifs with h <;> simp [h]

@[simp] theorem Num.val_ofFactor (d : Factor) : (Num.ofFactor d).val = d.val := by
  simp [Num.val_eq_termsVal, Num.ofFactor, Mono.val]

@[simp] theorem Num.val_add (x y : Num) : (Num.add x y).val = x.val + y.val :=
  termsVal_foldr_insertTerm x.terms y.terms

@[simp] theorem Num.val_scale (q : Rat) (x : Num) : (Num.scale q x).val = (q : ℝ) * x.val := by
  rw [Num.scale]
  split_ifs with h
  · simp [h]
  · exact termsVal_scale q x.terms

@[simp] theorem Num.val_neg (x : Num) : (Num.neg x).val = -x.val := by
  rw [Num.neg, Num.val_scale]
  push_cast
  ring

@[simp] theorem Num.val_sub (x y : Num) : (Num.sub x y).val = x.val - y.val := by
  rw [Num.sub, Num.val_add, Num.val_neg, sub_eq_add_neg]

/-- The cosine of `a` turns. -/
noncomputable def cosOf (a : ℝ) : ℝ := Real.cos (2 * Real.pi * a)

theorem cosOf_sub_int (a : ℝ) (n : ℤ) : cosOf (a - n) = cosOf a := by
  unfold cosOf
  rw [mul_sub, show 2 * Real.pi * (n : ℝ) = n * (2 * Real.pi) by ring, Real.cos_sub_int_mul_two_pi]

theorem cosOf_one_sub (a : ℝ) : cosOf (1 - a) = cosOf a := by
  unfold cosOf
  rw [show 2 * Real.pi * (1 - a) = 2 * Real.pi - 2 * Real.pi * a by ring, Real.cos_two_pi_sub]

theorem cosOf_half_sub (a : ℝ) : cosOf (1 / 2 - a) = -cosOf a := by
  unfold cosOf
  rw [show 2 * Real.pi * (1 / 2 - a) = Real.pi - 2 * Real.pi * a by ring, Real.cos_pi_sub]

theorem cosOf_quarter : cosOf (1 / 4) = 0 := by
  unfold cosOf
  rw [show 2 * Real.pi * (1 / 4) = Real.pi / 2 by ring, Real.cos_pi_div_two]

theorem cosOf_sixth : cosOf (1 / 6) = 1 / 2 := by
  unfold cosOf
  rw [show 2 * Real.pi * (1 / 6) = Real.pi / 3 by ring, Real.cos_pi_div_three]

@[simp] theorem cosOf_zero : cosOf 0 = 1 := by simp [cosOf]

theorem cosOf_mul (a b : ℝ) : cosOf a * cosOf b = (cosOf (a + b) + cosOf (a - b)) / 2 := by
  unfold cosOf
  rw [mul_add, mul_sub, Real.cos_add, Real.cos_sub]
  ring

/-- The fold of an angle keeps its cosine. -/
theorem cosOf_foldTurn (a : Rat) :
    cosOf (a : ℝ) = ((Num.foldTurn a).1 : ℝ) * cosOf ((Num.foldTurn a).2 : ℝ) := by
  have h0 : cosOf (a : ℝ) = cosOf ((a - (a.floor : Rat) : Rat) : ℝ) := by
    push_cast
    exact (cosOf_sub_int _ _).symm
  rw [h0, Num.foldTurn]
  generalize a - (a.floor : Rat) = b
  have h1 : cosOf (b : ℝ) = cosOf ((if 1 / 2 < b then 1 - b else b : Rat) : ℝ) := by
    split_ifs
    · push_cast
      exact (cosOf_one_sub _).symm
    · rfl
  rw [h1]
  generalize (if 1 / 2 < b then 1 - b else b) = c
  by_cases h4 : c = 1 / 4
  · have hc : ((1 / 4 : Rat) : ℝ) = 1 / 4 := by push_cast; ring
    simp only [h4, if_true, hc, cosOf_quarter]
    simp
  · simp only [h4, if_false]
    by_cases h : (1 / 4 : Rat) < c
    · simp only [h, if_true]
      by_cases h6 : (1 / 2 - c : Rat) = 1 / 6
      · have hc : c = 1 / 3 := by linarith
        have hc' : ((1 / 3 : Rat) : ℝ) = 1 / 2 - 1 / 6 := by push_cast; ring
        simp only [if_pos h6]
        rw [hc, hc', cosOf_half_sub, cosOf_sixth]
        push_cast
        norm_num
      · simp only [h6, if_false]
        push_cast
        rw [cosOf_half_sub]
        ring
    · simp only [h, if_false]
      by_cases h6 : c = 1 / 6
      · have hc' : ((1 / 6 : Rat) : ℝ) = 1 / 6 := by push_cast; ring
        simp only [h6, if_true, hc', cosOf_sixth]
        push_cast
        simp
      · simp only [h6, if_false]
        push_cast
        ring

@[simp] theorem Num.val_cosTurn (a : Rat) : (Num.cosTurn a).val = Real.cos (2 * Real.pi * (a : ℝ)) := by
  have h := cosOf_foldTurn a
  rw [Num.val_eq_termsVal, Num.cosTurn]
  simp only [termsVal_insertTerm, termsVal_nil, Mono.val]
  simp only [cosOf] at h
  simp [h]

@[simp] theorem Num.val_sinTurn (a : Rat) : (Num.sinTurn a).val = Real.sin (2 * Real.pi * (a : ℝ)) := by
  rw [Num.sinTurn, Num.val_cosTurn]
  push_cast
  rw [show 2 * Real.pi * ((a : ℝ) - 1 / 4) = 2 * Real.pi * a - Real.pi / 2 by ring, Real.cos_sub_pi_div_two]

/-- `tenPow` is the power of ten with that exponent. -/
theorem Num.tenPow_cast (n : Int) : ((Num.tenPow n : Rat) : ℝ) = (10 : ℝ) ^ (n : ℝ) := by
  rw [Real.rpow_intCast, Num.tenPow]
  split_ifs with h
  · obtain ⟨k, rfl⟩ := Int.eq_ofNat_of_zero_le h
    simp
  · obtain ⟨k, hk⟩ := Int.eq_ofNat_of_zero_le (show 0 ≤ -n by omega)
    obtain rfl : n = -(k : Int) := by omega
    simp

/-- Whole powers of ten taken out of an exponent. -/
theorem Num.tenPow_floor_mul (p : Rat) :
    ((Num.tenPow p.floor : Rat) : ℝ) * (10 : ℝ) ^ ((p - (p.floor : Rat) : Rat) : ℝ) = (10 : ℝ) ^ (p : ℝ) := by
  rw [Num.tenPow_cast, ← Real.rpow_add (by norm_num)]
  congr 1
  push_cast
  ring

@[simp] theorem Num.val_tenTo (p : Rat) : (Num.tenTo p).val = (10 : ℝ) ^ (p : ℝ) := by
  have h := Num.tenPow_floor_mul p
  rw [Num.val_eq_termsVal, Num.tenTo]
  simp only [termsVal_cons, termsVal_nil, Mono.val]
  simpa using h

/-- The numbers of the host's irrationals name irrationals, pairwise different. -/
theorem irrational_spec : Function.Injective irrational ∧ ∀ k, Irrational (irrational k) := by
  by_cases h : Function.Injective Config.hostReal ∧ ∀ n, Irrational (Config.hostReal n)
  · rw [show irrational = Config.hostReal from funext fun k => if_pos h]
    exact h
  · rw [show irrational = fun k : Nat => Real.sqrt 2 + (k : ℝ) from funext fun k => if_neg h]
    exact ⟨fun a b hab => by simpa using hab, fun k => irrational_sqrt_two.add_natCast k⟩

/-- Two Reals of the host are equal data exactly if they are the same real number. -/
theorem HostReal.val_injective : Function.Injective HostReal.val := by
  intro a b h
  cases a <;> cases b <;> simp only [HostReal.val] at h
  · rw [Rat.cast_injective h]
  · exact absurd h.symm ((irrational_spec.2 _).ne_rat _)
  · exact absurd h ((irrational_spec.2 _).ne_rat _)
  · rw [irrational_spec.1 h]

theorem HostReal.val_inj {a b : HostReal} : a.val = b.val ↔ a = b := HostReal.val_injective.eq_iff

@[simp] theorem Num.val_ofHost (x : HostReal) : (Num.ofHost x).val = x.val := by
  cases x <;> simp [Num.ofHost, HostReal.val, Factor.val]

/-- The product that a list of factors stands for. -/
noncomputable def factorsVal (l : List Factor) : ℝ := (l.map Factor.val).prod

theorem factorsVal_insert (d : Factor) (l : List Factor) : factorsVal (Factor.insert d l) = d.val * factorsVal l := by
  induction l with
  | nil => simp [Factor.insert, factorsVal]
  | cons e l ih =>
    simp only [Factor.insert]
    split_ifs
    · simp only [factorsVal, List.map_cons, List.prod_cons] at ih ⊢
      rw [ih]
      ring
    · simp [factorsVal]

theorem factorsVal_merge (l m : List Factor) : factorsVal ((l ++ m).foldr Factor.insert []) = factorsVal l * factorsVal m := by
  have h (l : List Factor) : factorsVal (l.foldr Factor.insert []) = factorsVal l := by
    induction l with
    | nil => rfl
    | cons d l ih => rw [List.foldr_cons, factorsVal_insert, ih, factorsVal, factorsVal, List.map_cons, List.prod_cons]
  rw [h, factorsVal, List.map_append, List.prod_append]
  rfl

theorem Mono.val_eq (m : Mono) : m.val = cosOf m.turn * (10 : ℝ) ^ (m.pow : ℝ) * factorsVal m.factors := rfl

theorem termsVal_addProduct (turn pow : Rat) (factors : List Factor) (c : Rat) (acc : List (Mono × Rat)) :
    termsVal (Num.addProduct turn pow factors c acc) =
      (c : ℝ) * (cosOf turn * (10 : ℝ) ^ (pow : ℝ) * factorsVal factors) + termsVal acc := by
  rw [Num.addProduct, termsVal_insertTerm, Mono.val_eq, cosOf_foldTurn turn, ← Num.tenPow_floor_mul pow]
  push_cast
  ring

theorem termsVal_addMul (t u : Mono × Rat) (acc : List (Mono × Rat)) :
    termsVal (Num.addMul t u acc) = ((t.2 : ℝ) * t.1.val) * ((u.2 : ℝ) * u.1.val) + termsVal acc := by
  have hp : (10 : ℝ) ^ ((t.1.pow + u.1.pow : Rat) : ℝ) = (10 : ℝ) ^ (t.1.pow : ℝ) * (10 : ℝ) ^ (u.1.pow : ℝ) := by
    push_cast
    rw [Real.rpow_add (by norm_num)]
  simp only [Num.addMul]
  split_ifs with h
  · have hc : cosOf ((t.1.turn + u.1.turn : Rat) : ℝ) = cosOf t.1.turn * cosOf u.1.turn := by
      rcases h with h | h <;> simp [h]
    rw [termsVal_addProduct, hp, hc, factorsVal_merge, Mono.val_eq, Mono.val_eq]
    push_cast
    ring
  · rw [termsVal_addProduct, termsVal_addProduct, hp, factorsVal_merge, Mono.val_eq t.1, Mono.val_eq u.1]
    have hc := cosOf_mul (t.1.turn : ℝ) (u.1.turn : ℝ)
    push_cast
    linear_combination (-(t.2 : ℝ) * (u.2 : ℝ) * (10 : ℝ) ^ (t.1.pow : ℝ) * (10 : ℝ) ^ (u.1.pow : ℝ) *
      factorsVal t.1.factors * factorsVal u.1.factors) * hc

@[simp] theorem Num.val_mul (x y : Num) : (Num.mul x y).val = x.val * y.val := by
  have inner (t : Mono × Rat) (l acc : List (Mono × Rat)) :
      termsVal (l.foldr (fun u acc => Num.addMul t u acc) acc) = (t.2 : ℝ) * t.1.val * termsVal l + termsVal acc := by
    induction l with
    | nil => simp
    | cons u l ih =>
      rw [List.foldr_cons, termsVal_addMul, ih, termsVal_cons]
      ring
  rw [Num.val_eq_termsVal, Num.val_eq_termsVal x, Num.mul]
  generalize x.terms = l
  induction l with
  | nil => simp
  | cons t l ih =>
    simp only [List.foldr_cons] at ih ⊢
    rw [inner, ih, termsVal_cons]
    simp only [← Num.val_eq_termsVal]
    ring

/-- A Real read off as a rational is that rational. -/
theorem Num.val_of_toRat {x : Num} {q : Rat} (h : x.toRat? = some q) : x.val = (q : ℝ) := by
  rw [Num.val_eq_termsVal]
  rw [Num.toRat?] at h
  split at h
  · rename_i hx
    obtain rfl : 0 = q := by simpa using h
    simp [hx]
  · rename_i m c hx
    split_ifs at h with hm
    simp_all
  · cases h

/-- A Real written out as one expression is that Real. -/
@[simp] theorem Num.val_toFactor (x : Num) : x.toFactor.val = x.val := by
  have hf (l : List Factor) : (l.foldr Factor.mul (.rat 1)).val = (l.map Factor.val).prod := by
    induction l with
    | nil => simp [Factor.val]
    | cons d l ih => rw [List.foldr_cons, Factor.val, ih, List.map_cons, List.prod_cons]
  rw [Num.val_eq_termsVal, Num.toFactor]
  induction x.terms with
  | nil => simp [Factor.val]
  | cons t l ih => simp only [List.foldr_cons, Factor.val, ih, hf, termsVal_cons, Mono.val]

/-- `10^x` (42_cmac_dft R152). -/
@[simp] theorem Num.val_pow10 (x : Num) : (Num.pow10 x).val = (10 : ℝ) ^ x.val := by
  rw [Num.pow10]
  split
  · rename_i p hp
    rw [Num.val_tenTo, Num.val_of_toRat hp]
  · rw [Num.val_ofFactor, Factor.val, Num.val_toFactor]

/-- A root of a rational that is found is its root. -/
theorem ratSqrt_spec {q r : Rat} (h : ratSqrt? q = some r) : 0 ≤ (r : ℝ) ∧ (r : ℝ) * r = q := by
  simp only [ratSqrt?] at h
  split_ifs at h with hr
  obtain rfl := Option.some.inj h
  refine ⟨?_, by exact_mod_cast hr⟩
  push_cast
  positivity

theorem realSqrt_of_nonneg {x : ℝ} (h : 0 ≤ x) : realSqrt x = Real.sqrt x := if_pos h

theorem realSqrt_of_neg {x : ℝ} (h : x < 0) : realSqrt x = Config.sqrtNegative x := if_neg (not_le.2 h)

/-- A square root in closed form is of no negative Real. -/
theorem Num.sqrtTerm_nonneg {c p : Rat} {y : Num} (h : Num.sqrtTerm? c p = some y) : 0 ≤ c := by
  have square {q r : Rat} (hr : ratSqrt? q = some r) : 0 ≤ q := by
    have h2 := (ratSqrt_spec hr).2
    exact_mod_cast h2 ▸ mul_self_nonneg (r : ℝ)
  rw [Num.sqrtTerm?] at h
  split at h
  · exact square ‹_›
  · split at h
    · linarith [square ‹_›]
    · obtain ⟨r, hr, -⟩ := Option.map_eq_some_iff.1 h
      linarith [square hr]

/-- The root of a power of ten. -/
theorem sqrt_ten_rpow (p : ℝ) : Real.sqrt ((10 : ℝ) ^ p) = (10 : ℝ) ^ (p / 2) := by
  rw [Real.sqrt_eq_rpow, ← Real.rpow_mul (by norm_num), mul_one_div]

theorem cos_eighth_turn : Real.cos (2 * Real.pi * ((1 / 8 : Rat) : ℝ)) = Real.sqrt 2 / 2 := by
  rw [← Real.cos_pi_div_four]
  congr 1
  push_cast
  ring

theorem Num.sqrtTerm_val {c p : Rat} {y : Num} (h : Num.sqrtTerm? c p = some y) :
    y.val = Real.sqrt ((c : ℝ) * (10 : ℝ) ^ (p : ℝ)) := by
  have root {r a : ℝ} (hr : 0 ≤ r ∧ r * r = a) : r = Real.sqrt a := by rw [← hr.2, Real.sqrt_mul_self hr.1]
  have h10 : (0 : ℝ) ≤ (10 : ℝ) ^ (p : ℝ) := by positivity
  rw [Num.sqrtTerm?] at h
  split at h
  · rename_i r hr
    obtain rfl := Option.some.inj h
    have h1 := root (ratSqrt_spec hr)
    rw [Num.val_scale, Num.val_tenTo, Real.sqrt_mul' _ h10, sqrt_ten_rpow, h1]
    push_cast
    rfl
  · split at h
    · rename_i r hr
      obtain rfl := Option.some.inj h
      have h1 := root (ratSqrt_spec hr)
      rw [show (c : ℝ) * (10 : ℝ) ^ (p : ℝ) = ((c / 10 : Rat) : ℝ) * (10 : ℝ) ^ ((p : ℝ) + 1) by
          rw [Real.rpow_add (by norm_num), Real.rpow_one]
          push_cast
          ring,
        Num.val_scale, Num.val_tenTo, Real.sqrt_mul' _ (by positivity), sqrt_ten_rpow, h1]
      push_cast
      rfl
    · obtain ⟨r, hr, rfl⟩ := Option.map_eq_some_iff.1 h
      have h1 := root (ratSqrt_spec hr)
      rw [Num.val_scale, Num.val_mul, Num.val_cosTurn, cos_eighth_turn, Num.val_tenTo, Real.sqrt_mul' _ h10,
        sqrt_ten_rpow, h1]
      push_cast
      rw [Real.sqrt_mul (by norm_num)]
      have h2 : Real.sqrt 2 * Real.sqrt 2 = 2 := Real.mul_self_sqrt (by norm_num)
      linear_combination (Real.sqrt (c : ℝ) * (10 : ℝ) ^ ((p : ℝ) / 2) / 2) * h2

/-- `sqrt(x)` (42_cmac_dft R152). -/
@[simp] theorem Num.val_sqrt (x : Num) : (Num.sqrt x).val = realSqrt x.val := by
  have named : (Num.ofFactor (.sqrt x.toFactor)).val = realSqrt x.val := by
    rw [Num.val_ofFactor, Factor.val, Num.val_toFactor]
  simp only [Num.sqrt]
  split
  · rename_i hx
    simp [Num.val_eq_termsVal x, hx, realSqrt_of_nonneg]
  · rename_i m c hx
    split_ifs with hm
    · cases h : Num.sqrtTerm? c m.pow with
      | none => exact named
      | some y =>
        have hv : x.val = (c : ℝ) * (10 : ℝ) ^ (m.pow : ℝ) := by
          rw [Num.val_eq_termsVal x, hx]
          simp [Mono.val, hm]
        have hc : (0 : ℝ) ≤ c := by exact_mod_cast Num.sqrtTerm_nonneg h
        rw [Option.getD_some, Num.sqrtTerm_val h, hv, realSqrt_of_nonneg (by positivity)]
    · exact named
  · exact named

/-- A known rounding is the nearest integer, and there is no exact half (41_symbolmapper R126). -/
theorem Num.nearest_spec {q : Rat} {z : Int} (h : Num.nearest? q = some z) : roundReal (q : ℝ) = z := by
  have hf : ⌊(q : ℝ)⌋ = q.floor := by
    rw [Rat.floor_cast]
    rfl
  have hd : (q : ℝ) - ((q.floor : ℤ) : ℝ) = ((q - (q.floor : Rat) : Rat) : ℝ) := by push_cast; ring
  have hh : ((1 / 2 : Rat) : ℝ) = 1 / 2 := by push_cast; ring
  rw [roundReal, hf, hd, ← hh]
  simp only [Num.nearest?] at h
  simp only [Rat.cast_lt]
  split_ifs at h with h1 h2
  · rw [if_pos h1]
    simpa using h
  · rw [if_neg h1, if_pos h2]
    simpa using h

/-- The rounding of a Real denotes the rounding of its real number (41_symbolmapper R126). -/
@[simp] theorem IntTerm.val_round (x : Num) : (Num.round x).val = roundReal x.val := by
  rw [Num.round]
  split
  · rename_i q hq
    split
    · rename_i z hz
      rw [Num.val_of_toRat hq, Num.nearest_spec hz]
      rfl
    · rfl
  · rfl

@[simp] theorem Cplx.val_zero : Cplx.zero.val = 0 := by
  apply Complex.ext <;> simp [Cplx.val, Cplx.zero]

@[simp] theorem Cplx.val_re (z : Cplx) : z.val.re = z.re.val := rfl

@[simp] theorem Cplx.val_im (z : Cplx) : z.val.im = z.im.val := rfl

@[simp] theorem Cplx.val_add (x y : Cplx) : (Cplx.add x y).val = x.val + y.val := by
  apply Complex.ext <;> simp [Cplx.add]

@[simp] theorem Cplx.val_sub (x y : Cplx) : (Cplx.sub x y).val = x.val - y.val := by
  apply Complex.ext <;> simp [Cplx.sub]

@[simp] theorem Cplx.val_scale (s : Num) (x : Cplx) : (Cplx.scale s x).val = (s.val : ℂ) * x.val := by
  apply Complex.ext <;> simp [Cplx.scale]

@[simp] theorem Cplx.val_mul (x y : Cplx) : (Cplx.mul x y).val = x.val * y.val := by
  apply Complex.ext <;> simp [Cplx.mul]

@[simp] theorem Cplx.val_mac (acc x y : Cplx) : (Cplx.mac acc x y).val = acc.val + x.val * y.val := by
  simp [Cplx.mac]

/-- A sum of products denotes the sum of the products (42_cmac_dft R143). -/
theorem Cplx.val_sumOfProducts (xs ys : List Cplx) :
    (Cplx.sumOfProducts xs ys).val = ((xs.zip ys).map fun p => p.1.val * p.2.val).sum := by
  have h (l : List (Cplx × Cplx)) (acc : Cplx) :
      (l.foldl (fun acc p => Cplx.mac acc p.1 p.2) acc).val = acc.val + (l.map fun p => p.1.val * p.2.val).sum := by
    induction l generalizing acc with
    | nil => simp
    | cons p l ih =>
      rw [List.foldl_cons, ih, Cplx.val_mac, List.map_cons, List.sum_cons]
      ring
  rw [Cplx.sumOfProducts, h, Cplx.val_zero, zero_add]

end Sys2Proof
end

