-- ==== Sys2Proof/Laws/Format.lean ====
section
/-! SUPPORT. The number format of this machine is exact arithmetic (42_cmac_dft R140): one lemma per function. -/

namespace Sys2Proof

@[simp] theorem Config.num_add : Config.num.add = Num.add := rfl

@[simp] theorem Config.num_mul : Config.num.mul = Num.mul := rfl

@[simp] theorem Config.num_dft : Config.num.dft = dft := rfl

@[simp] theorem Config.num_idft : Config.num.idft = idft := rfl

@[simp] theorem Config.num_sqrt : Config.num.sqrt = Num.sqrt := rfl

@[simp] theorem Config.num_pow10 : Config.num.pow10 = Num.pow10 := rfl

@[simp] theorem Config.num_round : Config.num.round = Num.round := rfl

@[simp] theorem Config.num_cadd : Config.num.cadd = Cplx.add := rfl

@[simp] theorem Config.num_cscale : Config.num.cscale = Cplx.scale := rfl

end Sys2Proof
end

