-- ==== Sys2Proof/Laws/Transform.lean ====
section
/-! SUPPORT. What the transform engine's functions denote, and their lengths (42_cmac_dft R144 to R146,
43_ofdm_framer R163, 45_ofdm_deframer R203, R204). -/

namespace Sys2Proof

/-- The twiddle factor is `exp(−j·2πe/N)` (42_cmac_dft R144). -/
theorem twiddle_val (N : Nat) (e : Int) :
    (twiddle N e).val = Complex.exp (((-(2 * Real.pi * ((e : ℝ) / (N : ℝ))) : ℝ) : ℂ) * Complex.I) := by
  apply Complex.ext
  · rw [Cplx.val_re, twiddle, Num.val_cosTurn, Complex.exp_ofReal_mul_I_re, Real.cos_neg]
    push_cast
    rfl
  · rw [Cplx.val_im, twiddle, Num.val_neg, Num.val_sinTurn, Complex.exp_ofReal_mul_I_im, Real.sin_neg]
    push_cast
    rfl

theorem sum_map_range {α : Type} [AddCommMonoid α] (f : Nat → α) (N : Nat) :
    ((List.range N).map f).sum = ∑ n ∈ Finset.range N, f n := by
  induction N with
  | zero => simp
  | succ N ih => simp [List.range_succ, Finset.sum_range_succ, ih]

/-- A sum of products with a sequence given by index (42_cmac_dft R143). -/
theorem sumOfProducts_range (N : Nat) (x : List Cplx) (h : x.length = N) (f : Nat → Cplx) :
    (Cplx.sumOfProducts x ((List.range N).map f)).val =
      ∑ n ∈ Finset.range N, (x.getD n Cplx.zero).val * (f n).val := by
  rw [Cplx.val_sumOfProducts, ← sum_map_range]
  congr 1
  apply List.ext_getElem
  · simp [h]
  · intro n h1 h2
    have hn : n < x.length := by simp at h2; omega
    simp [hn]

@[simp] theorem dft_length (N : Nat) (x : List Cplx) : (dft N x).length = N := by simp [dft]

@[simp] theorem idft_length (N : Nat) (X : List Cplx) : (idft N X).length = N := by simp [idft]

/-- Element `m` of `DFT_N(x)` denotes `Σ x[n]·W(N, m·n)` (42_cmac_dft R145). -/
theorem dft_getD_val (N : Nat) (x : List Cplx) (h : x.length = N) (m : Nat) (hm : m < N) :
    ((dft N x).getD m Cplx.zero).val =
      ∑ n ∈ Finset.range N, (x.getD n Cplx.zero).val * (twiddle N ((m * n : Nat) : Int)).val := by
  rw [← sumOfProducts_range N x h]
  simp [dft, hm]

/-- Element `n` of `IDFT_N(X)` denotes `(1/N)·Σ X[m]·W(N, −m·n)` (42_cmac_dft R146). -/
theorem idft_getD_val (N : Nat) (X : List Cplx) (h : X.length = N) (n : Nat) (hn : n < N) :
    ((idft N X).getD n Cplx.zero).val =
      (1 / (N : ℂ)) * ∑ m ∈ Finset.range N, (X.getD m Cplx.zero).val * (twiddle N (-((m * n : Nat) : Int))).val := by
  rw [← sumOfProducts_range N X h]
  simp [idft, hn]

theorem cpins_length (t : List Cplx) (p : Nat) (h : p ≤ t.length) : (cpins t p).length = t.length + p := by
  simp [cpins]
  omega

@[simp] theorem cprem_length (b : List Cplx) (p : Nat) : (cprem b p).length = b.length - p := by simp [cprem]

/-- The remover undoes the inserter (45_ofdm_deframer R203). -/
theorem cprem_cpins (t : List Cplx) (p : Nat) (h : p ≤ t.length) : cprem (cpins t p) p = t := by
  have hl : (t.drop (t.length - p)).length = p := by simp; omega
  rw [cprem, cpins, List.drop_append_of_le_length (by omega), List.drop_eq_nil_of_le (by omega), List.nil_append]

/-- A chunk that lies inside a sequence has its full length. -/
theorem chunk_length (x : List Cplx) (n c cols : Nat) (h : x.length = n * cols) (hc : c < cols) :
    (chunk x n c).length = n := by
  have h1 : c * n + n ≤ cols * n := by
    have := Nat.mul_le_mul_right n (Nat.succ_le_of_lt hc)
    rwa [Nat.succ_mul] at this
  have h2 : cols * n = n * cols := Nat.mul_comm _ _
  simp [chunk]
  omega

/-- Chunks of one length, put in a row, are found again by index. -/
theorem chunk_flatMap {N : Nat} (f : Nat → List Cplx) (cols c : Nat) (hf : ∀ c < cols, (f c).length = N)
    (hc : c < cols) : chunk ((List.range cols).flatMap f) N c = f c := by
  induction cols with
  | zero => omega
  | succ cols ih =>
    have hlen (k : Nat) (hk : k ≤ cols) : ((List.range k).flatMap f).length = k * N := by
      induction k with
      | zero => simp
      | succ k ihk =>
        rw [List.range_succ, List.flatMap_append, List.length_append, ihk (by omega)]
        simp [hf k (by omega), Nat.succ_mul]
    rw [List.range_succ, List.flatMap_append, List.flatMap_singleton]
    have hl := hlen cols (Nat.le_refl _)
    by_cases h : c = cols
    · subst h
      rw [chunk, List.drop_append_of_le_length (by omega), List.drop_eq_nil_of_le (by omega), List.nil_append,
        List.take_of_length_le (by rw [hf c hc])]
    · have hc' : c < cols := by omega
      have h1 : c * N + N ≤ cols * N := by
        have := Nat.mul_le_mul_right N (Nat.succ_le_of_lt hc')
        rwa [Nat.succ_mul] at this
      rw [← ih (fun c hc => hf c (by omega)) hc', chunk, chunk, List.drop_append_of_le_length (by omega),
        List.take_append_of_le_length (by rw [List.length_drop]; omega)]

/-- The length of equal chunks in a row. -/
theorem flatMap_range_length {α : Type} {N : Nat} (f : Nat → List α) (cols : Nat) (hf : ∀ c < cols, (f c).length = N) :
    ((List.range cols).flatMap f).length = N * cols := by
  induction cols with
  | zero => simp
  | succ cols ih =>
    rw [List.range_succ, List.flatMap_append, List.length_append, ih (fun c hc => hf c (by omega))]
    simp [hf cols (by omega), Nat.mul_succ]

end Sys2Proof
end

