-- ==== Sys2Proof/Laws/Commands.lean ====
section
/-! SUPPORT. What each function that a command applies gives: its length, its columns, the value it denotes. -/

namespace Sys2Proof.Machine

open Sys2Proof

theorem bytesToBits_length (bytes : List Byte) : (bytesToBits bytes).length = 8 * bytes.length := by
  induction bytes with
  | nil => rfl
  | cons b t ih =>
    simp only [bytesToBits, List.flatMap_cons, List.length_append, List.length_cons] at ih ⊢
    simp only [byteBits, List.length_map, List.length_range] at ih ⊢
    omega

theorem mapIndex_val (i : Nat) : (mapIndex i).val = (2 * (i : ℂ) - 1) - Complex.I := by
  apply Complex.ext <;> simp [mapIndex, Cplx.ofRats]

/-- The model's rounding is one that 41_symbolmapper R126 allows. -/
theorem roundReal_isRounding (x : ℝ) : isRounding (roundReal x) x := by
  unfold isRounding roundReal
  refine ⟨fun h => by rw [if_pos h], fun h => by rw [if_neg (not_lt.2 h.le), if_pos h], fun h => ?_⟩
  rw [if_neg (by rw [h]; simp), if_neg (by rw [h]; simp)]
  split <;> simp

/-! ## Grids -/

/-- Element `r` of column `c` (00_scope R14). -/
theorem col_getD (g : Grid) (r c : Nat) (hr : r < g.rows) : (g.col c).getD r Cplx.zero = gridElem g r c := by
  simp [Grid.col, chunk, gridElem, hr, List.getElem?_drop]

theorem wellFormed_length {g : Grid} (h : g.wellFormed = true) : g.data.length = g.rows * g.cols := by
  simpa [Grid.wellFormed] using h

theorem col_length (g : Grid) (h : g.wellFormed = true) (c : Nat) (hc : c < g.cols) : (g.col c).length = g.rows :=
  chunk_length _ _ _ _ (wellFormed_length h) hc

/-- Column `c` of `TXBLK` (43_ofdm_framer R161). -/
theorem toTimeDomain_col (f : NumFormat) (N p : Nat) (hp : p ≤ N) (g : Grid)
    (hf : ∀ c < g.cols, (f.idft N (g.col c)).length = N) (c : Nat) (hc : c < g.cols) :
    (toTimeDomain f N p g).col c = cpins (f.idft N (g.col c)) p :=
  chunk_flatMap (N := N + p) _ _ _
    (fun c hc => by rw [cpins_length _ _ (by rw [hf c hc]; exact hp), hf c hc]) hc

/-- Column `c` of `RXGRID` (45_ofdm_deframer R201). -/
theorem toFrequencyDomain_col (f : NumFormat) (N : Nat) (g : Grid)
    (hf : ∀ c < g.cols, (f.dft N (g.col c)).length = N) (c : Nat) (hc : c < g.cols) :
    (toFrequencyDomain f N g).col c = f.dft N (g.col c) :=
  chunk_flatMap (N := N) _ _ _ hf hc

/-- Column `c` of `RXBLK` (45_ofdm_deframer R200). -/
theorem toBlocks_col (N p : Nat) (x : List Cplx) (h : x.length % (N + p) = 0) (c : Nat) (hc : c < x.length / (N + p)) :
    (toBlocks N p x).col c = cprem (chunk x (N + p) c) p := by
  have hx : x.length = (N + p) * (x.length / (N + p)) := by
    have := Nat.div_add_mod x.length (N + p)
    omega
  exact chunk_flatMap (N := N) _ _ _
    (fun c hc => by rw [cprem_length, chunk_length x (N + p) c _ hx hc, Nat.add_sub_cancel]) hc

/-- A sequence is its chunks put in a row. -/
theorem flatMap_chunk (N : Nat) (x : List Cplx) (cols : Nat) (h : x.length = N * cols) :
    (List.range cols).flatMap (fun c => chunk x N c) = x := by
  induction cols generalizing x with
  | zero =>
    rw [Nat.mul_zero] at h
    simp [List.eq_nil_of_length_eq_zero h]
  | succ n ih =>
    have h1 : ((List.range n).flatMap fun c => chunk x N c) = x.take (N * n) := by
      rw [← ih (x.take (N * n)) (by simp only [List.length_take, h, Nat.mul_succ]; omega)]
      apply List.flatMap_congr
      intro c hc
      have := Nat.mul_le_mul_right N (Nat.succ_le_of_lt (List.mem_range.1 hc))
      rw [chunk, chunk, List.drop_take, List.take_take, Nat.min_eq_left]
      rw [Nat.succ_mul] at this
      rw [Nat.mul_comm N n]
      omega
    rw [List.range_succ, List.flatMap_append, h1, List.flatMap_singleton, chunk,
      List.take_of_length_le (l := x.drop (n * N)) (by rw [List.length_drop, h, Nat.mul_succ, Nat.mul_comm n]; omega),
      Nat.mul_comm N n, List.take_append_drop]

/-- The receive chain in any number format: blocks cut, transformed, laid in a row (45_ofdm_deframer R204). -/
theorem toFrequencyDomain_toBlocks (f : NumFormat) (N p : Nat) (x : List Cplx) (h : x.length % (N + p) = 0) :
    (toFrequencyDomain f N (toBlocks N p x)).data = deframe f x N p := by
  rw [toFrequencyDomain, deframe]
  exact List.flatMap_congr fun c hc => by rw [toBlocks_col N p x h c (List.mem_range.1 hc)]

theorem deframe_length (x : List Cplx) (N p : Nat) : (deframe Config.num x N p).length = N * (x.length / (N + p)) :=
  flatMap_range_length _ _ fun _ _ => dft_length N _

/-! ## The channel -/

/-- `noisePower = 10^(−snr/10)` (44_channel R181). -/
theorem noisePower_val (x : HostReal) : (noisePower Config.num x).val = (10 : ℝ) ^ (-x.val / 10) := by
  rw [noisePower, Config.num_pow10, Num.val_pow10, Config.num_mul, Num.val_mul, Num.val_ofRat, Num.val_ofHost]
  congr 1
  push_cast
  ring

/-- `sigma = sqrt(noisePower)` (44_channel R181). -/
theorem sigma_val (x : HostReal) : (sigma Config.num x).val = Real.sqrt ((10 : ℝ) ^ (-x.val / 10)) := by
  rw [sigma, Config.num_sqrt, Num.val_sqrt, noisePower_val, realSqrt_of_nonneg (by positivity)]

/-- A noise sample is `(a + j·b)/√2` (44_channel R182). -/
theorem noiseSample_val (a b : Factor) : (noiseSample Config.num a b).val = (a.val + b.val * Complex.I) / Real.sqrt 2 := by
  have hz : (⟨Num.ofFactor a, Num.ofFactor b⟩ : Cplx).val = a.val + b.val * Complex.I := by
    apply Complex.ext <;> simp
  rw [noiseSample, Config.num_cscale, Cplx.val_scale, Config.num_sqrt, Num.val_sqrt, Num.val_ofRat, hz,
    realSqrt_of_nonneg (by norm_num), show ((1 / 2 : Rat) : ℝ) = 2⁻¹ by push_cast; ring, Real.sqrt_inv]
  push_cast
  ring

theorem noise_length (f : NumFormat) (seed : Seed) (L : Nat) (script : List NoiseScript) (free : Nat) :
    (noise f seed L script free).w.length = L := by
  unfold noise
  split
  · simp [seededNoise]
  · split
    · simp [freeNoise]
    · simp only [scriptedNoise]
      split <;> simp

/-- The scripts that one use of the noise source leaves (notes/assumptions/17.md). -/
theorem noise_script (f : NumFormat) (seed : Seed) (L : Nat) (script : List NoiseScript) (free : Nat) :
    (noise f seed L script free).script = if seed.en then script else script.drop 1 := by
  unfold noise
  split_ifs
  · rfl
  · cases script <;> rfl

/-- The next free value after one use of the noise source (notes/assumptions/6.md). -/
theorem noise_free (f : NumFormat) (seed : Seed) (L : Nat) (script : List NoiseScript) (free : Nat) :
    (noise f seed L script free).free = if seed.en then free else free + 2 * L := by
  unfold noise
  split_ifs
  · rfl
  · cases script <;> rfl

/-- The samples of one use of the noise source (44_channel R182, R183). -/
theorem noise_elemVal (seed : Seed) (L : Nat) (script : List NoiseScript) (free i : Nat) (hi : i < L) :
    elemVal (noise Config.num seed L script free).w i = noiseVal seed script[0]? free i := by
  have hfree : (freeSample Config.num free i).val =
      ((Config.drawReal (free + 2 * i) : ℂ) + Config.drawReal (free + 2 * i + 1) * Complex.I) / Real.sqrt 2 :=
    noiseSample_val _ _
  cases h : seed.en with
  | true => simp [noise, noiseVal, h, elemVal, seededNoise, hi, noiseSample_val, Factor.val]
  | false =>
    rcases script with _ | ⟨_ | ws, rest⟩
    · simp [noise, noiseVal, h, elemVal, freeNoise, hi, hfree]
    · simp [noise, noiseVal, h, elemVal, scriptedNoise, hi]
    · by_cases hw : i < ws.length <;> simp [noise, noiseVal, h, elemVal, scriptedNoise, hi, hw, hfree]

theorem channel_length (f : NumFormat) (x : List Cplx) (q : HostReal) (w : List Cplx) (h : w.length = x.length) :
    (channel f x q w).length = x.length := by simp [channel, h]

/-- Element `i` of the channel's output (44_channel R181). -/
theorem channel_elemVal (x : List Cplx) (q : HostReal) (w : List Cplx) (h : w.length = x.length) (i : Nat)
    (hi : i < x.length) :
    elemVal (channel Config.num x q w) i = elemVal x i + Real.sqrt ((10 : ℝ) ^ (-q.val / 10)) * elemVal w i := by
  have h2 : i < w.length := by omega
  simp [elemVal, channel, hi, h2, sigma_val]

/-! ## The sweep and the output -/

/-- The rate of a trial is the exact quotient of the mismatches (46_sweep R222). -/
theorem errorRate_val (pairs : List (IntTerm × Nat)) (n : Nat) :
    (errorRate pairs n).val = ((mismatches pairs : Nat) : ℝ) / (n : ℝ) := by
  have h : mismatches pairs = pairs.countP knownMismatch + mismatches (pairs.filter notNumeral) := by
    unfold mismatches
    induction pairs with
    | nil => rfl
    | cons p l ih =>
      obtain ⟨v, i⟩ := p
      rw [List.countP_cons, List.countP_cons, List.filter_cons, ih]
      rcases v with z | x
      · by_cases hz : z = (i : ℤ) <;>
          (simp [knownMismatch, notNumeral, IntTerm.val, hz]; try omega)
      · by_cases hz : roundReal x.val = (i : ℤ) <;>
          (simp [knownMismatch, notNumeral, IntTerm.val, hz]; try omega)
  rw [h]
  simp only [errorRate]
  split
  · rename_i h0
    simp [h0, Rate.val, mismatches]
  · simp [Rate.val]

/-- The keys of a sweep's result (46_sweep R228). -/
theorem sweepTrials_keys (f : NumFormat) (idx : List Nat) (wave : List Cplx) (N p : Nat) (es : List SweepEntry)
    (script : List NoiseScript) (free : Nat) :
    (sweepTrials f idx wave N p es script free).result.map (·.1) = es.map (·.snr) := by
  induction es generalizing script free with
  | nil => rfl
  | cons e es ih => simp [sweepTrials, ih]

/-- How many of the entries are unseeded. -/
def unseeded (es : List SweepEntry) : Nat := es.countP fun e => !e.seed.en

@[simp] theorem unseeded_nil : unseeded [] = 0 := rfl

theorem unseeded_cons (e : SweepEntry) (es : List SweepEntry) :
    unseeded (e :: es) = unseeded es + if e.seed.en then 0 else 1 := by
  cases h : e.seed.en <;> simp [unseeded, h]

/-- The unseeded entries of the configured sweep before entry `t`. -/
theorem unseeded_take_sweepEntries (s : State) (t : Nat) (ht : t ≤ s.cfgSweepLen) :
    unseeded (s.sweepEntries.take t) = unseededBefore s t := by
  rw [unseeded, unseededBefore, State.sweepEntries, ← List.map_take, List.take_range, Nat.min_eq_left ht, List.countP_map]
  rfl

/-- A trial takes the noise of one use, and one more free value where its rate is free. -/
theorem trial_leaves (f : NumFormat) (idx : List Nat) (wave : List Cplx) (N p : Nat) (e : SweepEntry) (script : List NoiseScript)
    (free : Nat) (h : idx ≠ []) :
    (trial f idx wave N p e script free).script = (if e.seed.en then script else script.drop 1) ∧
      (trial f idx wave N p e script free).free = (if e.seed.en then free else free + 2 * wave.length) := by
  have h0 : idx.length ≠ 0 := by simpa using h
  rw [trial, if_neg h0]
  exact ⟨noise_script .., noise_free ..⟩

/-- Entry `t` of a sweep's result is the trial of sweep entry `t`, with the scripts and the free values that the
unseeded entries before it leave (46_sweep R220). -/
theorem sweepTrials_entry (f : NumFormat) (idx : List Nat) (wave : List Cplx) (N p : Nat) (h : idx ≠ []) (es : List SweepEntry)
    (script : List NoiseScript) (free t : Nat) (e : SweepEntry) (he : es[t]? = some e) :
    (sweepTrials f idx wave N p es script free).result[t]? =
      some (e.snr, (trial f idx wave N p e (script.drop (unseeded (es.take t)))
        (free + 2 * wave.length * unseeded (es.take t))).rate) := by
  induction es generalizing script free t with
  | nil => simp at he
  | cons d es ih =>
    cases t with
    | zero =>
      obtain rfl : d = e := by simpa using he
      simp [sweepTrials]
    | succ t =>
      obtain ⟨h1, h2⟩ := trial_leaves f idx wave N p d script free h
      simp only [sweepTrials, List.getElem?_cons_succ, List.take_succ_cons, unseeded_cons] at he ⊢
      rw [ih _ _ _ he, h1, h2]
      cases d.seed.en <;> simp [Nat.mul_add, Nat.add_assoc, Nat.add_comm (2 * wave.length)]

/-- What a sweep leaves of the scripts and the free values. -/
theorem sweepTrials_leaves (f : NumFormat) (idx : List Nat) (wave : List Cplx) (N p : Nat) (h : idx ≠ []) (es : List SweepEntry)
    (script : List NoiseScript) (free : Nat) :
    (sweepTrials f idx wave N p es script free).script = script.drop (unseeded es) ∧
      (sweepTrials f idx wave N p es script free).free = free + 2 * wave.length * unseeded es := by
  induction es generalizing script free with
  | nil => simp [sweepTrials]
  | cons d es ih =>
    obtain ⟨h1, h2⟩ := trial_leaves f idx wave N p d script free h
    simp only [sweepTrials, unseeded_cons]
    rw [(ih _ _).1, (ih _ _).2, h1, h2]
    cases d.seed.en <;> simp [Nat.mul_add, Nat.add_assoc, Nat.add_comm (2 * wave.length)]

/-- An output byte is `byte_of_int` of the recovered integer (47_output_and_misc R241). -/
theorem byteTerm_val (v : IntTerm) : (byteTerm v).val = byteOfInt v.val := by
  cases v with
  | lit z =>
    simp only [byteTerm]
    split_ifs with h <;> simp [ByteTerm.val, IntTerm.val, byteOfInt, h]
  | round x => rfl

end Sys2Proof.Machine
end

