-- ==== Sys2Proof/Laws/Form.lean ====
section
/-! SUPPORT. Every arithmetic operation returns a Real in normal form, so that equal sums of products are equal data. -/

namespace Sys2Proof

theorem ltSpelling_irrefl : ∀ a : List Rat, ltSpelling a a = false
  | [] => rfl
  | a :: as => by simp [ltSpelling, ltSpelling_irrefl as]

theorem ltSpelling_trans : ∀ {a b c : List Rat}, ltSpelling a b = true → ltSpelling b c = true → ltSpelling a c = true
  | [], [], _, h, _ => by simp [ltSpelling] at h
  | [], _ :: _, [], _, h => by simp [ltSpelling] at h
  | [], _ :: _, _ :: _, _, _ => by simp [ltSpelling]
  | _ :: _, [], _, h, _ => by simp [ltSpelling] at h
  | _ :: _, _ :: _, [], _, h => by simp [ltSpelling] at h
  | a :: as, b :: bs, c :: cs, h1, h2 => by
    simp only [ltSpelling, Bool.or_eq_true, Bool.and_eq_true, decide_eq_true_eq] at h1 h2 ⊢
    rcases h1 with h1 | ⟨rfl, h1⟩ <;> rcases h2 with h2 | ⟨rfl, h2⟩
    · exact .inl (lt_trans h1 h2)
    · exact .inl h1
    · exact .inl h2
    · exact .inr ⟨rfl, ltSpelling_trans h1 h2⟩

theorem ltSpelling_trichotomy : ∀ a b : List Rat, ltSpelling a b = true ∨ a = b ∨ ltSpelling b a = true
  | [], [] => by simp
  | [], _ :: _ => by simp [ltSpelling]
  | _ :: _, [] => by simp [ltSpelling]
  | a :: as, b :: bs => by
    simp only [ltSpelling, Bool.or_eq_true, Bool.and_eq_true, decide_eq_true_eq, List.cons.injEq]
    rcases lt_trichotomy a b with h | rfl | h
    · exact .inl (.inl h)
    · rcases ltSpelling_trichotomy as bs with h | rfl | h
      · exact .inl (.inr ⟨rfl, h⟩)
      · exact .inr (.inl ⟨rfl, rfl⟩)
      · exact .inr (.inr (.inr ⟨rfl, h⟩))
    · exact .inr (.inr (.inl h))

/-- Where a spelling ends can be told from what it starts with. -/
theorem Factor.spell_append (a b : Factor) (r s : List Rat) (h : a.spell ++ r = b.spell ++ s) : a = b ∧ r = s := by
  induction a generalizing b r s with
  | add a1 a2 ih1 ih2 | mul a1 a2 ih1 ih2 =>
    cases b <;> simp [Factor.spell] at h
    obtain ⟨h1, h⟩ := ih1 _ _ _ h
    obtain ⟨h2, h⟩ := ih2 _ _ _ h
    rw [h1, h2]
    exact ⟨rfl, h⟩
  | sqrt a ih | pow10 a ih =>
    cases b <;> simp [Factor.spell] at h
    obtain ⟨rfl, rfl⟩ := ih _ _ _ h
    exact ⟨rfl, rfl⟩
  | _ => cases b <;> simp_all [Factor.spell]

theorem Factor.spell_injective {a b : Factor} (h : a.spell = b.spell) : a = b :=
  (Factor.spell_append a b [] [] (by rw [h])).1

theorem Factor.lt_irrefl (a : Factor) : Factor.lt a a = false := ltSpelling_irrefl _

theorem Factor.lt_transitive {a b c : Factor} (h1 : Factor.lt a b = true) (h2 : Factor.lt b c = true) :
    Factor.lt a c = true := ltSpelling_trans h1 h2

theorem Factor.lt_total (a b : Factor) : Factor.lt a b = true ∨ a = b ∨ Factor.lt b a = true :=
  (ltSpelling_trichotomy a.spell b.spell).imp_right (Or.imp_left Factor.spell_injective)

theorem Factor.ltList_trans : ∀ {a b c : List Factor},
    Factor.ltList a b = true → Factor.ltList b c = true → Factor.ltList a c = true
  | [], [], _, h, _ => by simp [Factor.ltList] at h
  | [], _ :: _, [], _, h => by simp [Factor.ltList] at h
  | [], _ :: _, _ :: _, _, _ => by simp [Factor.ltList]
  | _ :: _, [], _, h, _ => by simp [Factor.ltList] at h
  | _ :: _, _ :: _, [], _, h => by simp [Factor.ltList] at h
  | a :: as, b :: bs, c :: cs, h1, h2 => by
    simp only [Factor.ltList, Bool.or_eq_true, Bool.and_eq_true, decide_eq_true_eq] at h1 h2 ⊢
    rcases h1 with h1 | ⟨rfl, h1⟩ <;> rcases h2 with h2 | ⟨rfl, h2⟩
    · exact .inl (Factor.lt_transitive h1 h2)
    · exact .inl h1
    · exact .inl h2
    · exact .inr ⟨rfl, Factor.ltList_trans h1 h2⟩

theorem Factor.ltList_trichotomy : ∀ a b : List Factor,
    Factor.ltList a b = true ∨ a = b ∨ Factor.ltList b a = true
  | [], [] => by simp
  | [], _ :: _ => by simp [Factor.ltList]
  | _ :: _, [] => by simp [Factor.ltList]
  | a :: as, b :: bs => by
    simp only [Factor.ltList, Bool.or_eq_true, Bool.and_eq_true, decide_eq_true_eq, List.cons.injEq]
    rcases Factor.lt_total a b with h | rfl | h
    · exact .inl (.inl h)
    · rcases Factor.ltList_trichotomy as bs with h | rfl | h
      · exact .inl (.inr ⟨rfl, h⟩)
      · exact .inr (.inl ⟨rfl, rfl⟩)
      · exact .inr (.inr (.inr ⟨rfl, h⟩))
    · exact .inr (.inr (.inl h))

theorem Mono.lt_transitive {a b c : Mono} (h1 : Mono.lt a b = true) (h2 : Mono.lt b c = true) : Mono.lt a c = true := by
  simp only [Mono.lt, Bool.or_eq_true, Bool.and_eq_true, decide_eq_true_eq] at h1 h2 ⊢
  rcases h1 with h1 | ⟨e1, h1 | ⟨f1, h1⟩⟩ <;> rcases h2 with h2 | ⟨e2, h2 | ⟨f2, h2⟩⟩
  · exact .inl (lt_trans h1 h2)
  · exact .inl (e2 ▸ h1)
  · exact .inl (e2 ▸ h1)
  · exact .inl (e1 ▸ h2)
  · exact .inr ⟨e1.trans e2, .inl (lt_trans h1 h2)⟩
  · exact .inr ⟨e1.trans e2, .inl (f2 ▸ h1)⟩
  · exact .inl (e1 ▸ h2)
  · exact .inr ⟨e1.trans e2, .inl (f1 ▸ h2)⟩
  · exact .inr ⟨e1.trans e2, .inr ⟨f1.trans f2, Factor.ltList_trans h1 h2⟩⟩

theorem Mono.lt_total (a b : Mono) : Mono.lt a b = true ∨ a = b ∨ Mono.lt b a = true := by
  obtain ⟨t1, p1, d1⟩ := a
  obtain ⟨t2, p2, d2⟩ := b
  simp only [Mono.lt, Bool.or_eq_true, Bool.and_eq_true, decide_eq_true_eq, Mono.mk.injEq]
  rcases lt_trichotomy t1 t2 with h | rfl | h
  · exact .inl (.inl h)
  · rcases lt_trichotomy p1 p2 with h | rfl | h
    · exact .inl (.inr ⟨rfl, .inl h⟩)
    · rcases Factor.ltList_trichotomy d1 d2 with h | rfl | h
      · exact .inl (.inr ⟨rfl, .inr ⟨rfl, h⟩⟩)
      · exact .inr (.inl ⟨rfl, rfl, rfl⟩)
      · exact .inr (.inr (.inr ⟨rfl, .inr ⟨rfl, h⟩⟩))
    · exact .inr (.inr (.inr ⟨rfl, .inl h⟩))
  · exact .inr (.inr (.inl h))

/-- A list of terms in normal form. -/
def termsInForm (l : List (Mono × Rat)) : Prop :=
  l.Pairwise (fun a b => Mono.lt a.1 b.1 = true) ∧ ∀ t ∈ l, t.1.inForm = true ∧ t.2 ≠ 0

theorem Num.inForm_iff (x : Num) : x.inForm = true ↔ termsInForm x.terms := by
  simp [Num.inForm, termsInForm]

theorem mem_insertTerm {m : Mono} {c : Rat} {l : List (Mono × Rat)} {u : Mono × Rat}
    (h : u ∈ Num.insertTerm m c l) : u.1 = m ∨ u ∈ l := by
  induction l with
  | nil =>
    simp only [Num.insertTerm] at h
    split_ifs at h
    · simp at h
    · exact .inl (by simp_all)
  | cons t l ih =>
    simp only [Num.insertTerm] at h
    split_ifs at h
    · exact .inr (by simp [h])
    · rcases List.mem_cons.mp h with h | h
      · exact .inl (by simp [h])
      · exact .inr (by simp [h])
    · exact .inr h
    · rcases List.mem_cons.mp h with h | h
      · exact .inl (by simp [h])
      · exact .inr h
    · rcases List.mem_cons.mp h with h | h
      · exact .inr (by simp [h])
      · rcases ih h with h | h
        · exact .inl h
        · exact .inr (by simp [h])

theorem insertTerm_inForm (m : Mono) (c : Rat) (l : List (Mono × Rat)) (hm : m.inForm = true)
    (hl : termsInForm l) : termsInForm (Num.insertTerm m c l) := by
  induction l with
  | nil =>
    simp only [Num.insertTerm]
    split_ifs with h
    · exact hl
    · exact ⟨by simp, by simp [hm, h]⟩
  | cons t l ih =>
    obtain ⟨hp, hf⟩ := hl
    rw [List.pairwise_cons] at hp
    have hl' : termsInForm l := ⟨hp.2, fun u hu => hf u (by simp [hu])⟩
    simp only [Num.insertTerm]
    split_ifs with h1 h2 h3 h4
    · exact hl'
    · refine ⟨List.pairwise_cons.mpr ⟨fun u hu => ?_, hp.2⟩, fun u hu => ?_⟩
      · rw [h1]
        exact hp.1 u hu
      · rcases List.mem_cons.mp hu with rfl | hu
        · exact ⟨hm, h2⟩
        · exact hf u (by simp [hu])
    · exact ⟨List.pairwise_cons.mpr hp, hf⟩
    · refine ⟨List.pairwise_cons.mpr ⟨fun u hu => ?_, List.pairwise_cons.mpr hp⟩, fun u hu => ?_⟩
      · rcases List.mem_cons.mp hu with rfl | hu
        · exact h3
        · exact Mono.lt_transitive h3 (hp.1 u hu)
      · rcases List.mem_cons.mp hu with rfl | hu
        · exact ⟨hm, h4⟩
        · exact hf u hu
    · have ih := ih hl'
      have h5 : Mono.lt t.1 m = true := by
        rcases Mono.lt_total m t.1 with h | h | h
        · exact absurd h h3
        · exact absurd h h1
        · exact h
      refine ⟨List.pairwise_cons.mpr ⟨fun u hu => ?_, ih.1⟩, fun u hu => ?_⟩
      · rcases mem_insertTerm hu with h | h
        · rw [h]
          exact h5
        · exact hp.1 u h
      · rcases List.mem_cons.mp hu with rfl | hu
        · exact hf u (by simp)
        · exact ih.2 u hu

theorem Num.inForm_zero : Num.zero.inForm = true := by
  rw [Num.inForm_iff]
  exact ⟨by simp [Num.zero], by simp [Num.zero]⟩

theorem Mono.inForm_simple (factors : List Factor) (h : factors.length ≤ 1) : (⟨0, 0, factors⟩ : Mono).inForm = true := by
  simp only [Mono.inForm, Bool.and_eq_true, decide_eq_true_eq]
  refine ⟨⟨⟨⟨⟨le_refl _, by norm_num⟩, by norm_num⟩, le_refl _⟩, by norm_num⟩, ?_⟩
  match factors, h with
  | [], _ => simp
  | [_], _ => simp

theorem Num.inForm_ofRat (q : Rat) : (Num.ofRat q).inForm = true := by
  rw [Num.inForm_iff, Num.ofRat]
  split_ifs with h
  · exact ⟨by simp, by simp⟩
  · exact ⟨by simp, by simpa [h, Mono.one] using Mono.inForm_simple [] (by simp)⟩

theorem Num.inForm_ofFactor (d : Factor) : (Num.ofFactor d).inForm = true := by
  rw [Num.inForm_iff, Num.ofFactor]
  exact ⟨by simp, by simpa using Mono.inForm_simple [d] (by simp)⟩

theorem Num.inForm_add {x y : Num} (hx : x.inForm = true) (hy : y.inForm = true) : (Num.add x y).inForm = true := by
  rw [Num.inForm_iff] at hx hy ⊢
  rw [Num.add]
  simp only
  have h (l : List (Mono × Rat)) (hl : ∀ t ∈ l, t.1.inForm = true) :
      termsInForm (l.foldr (fun t acc => Num.insertTerm t.1 t.2 acc) y.terms) := by
    induction l with
    | nil => exact hy
    | cons t l ih =>
      exact insertTerm_inForm _ _ _ (hl t (by simp)) (ih fun u hu => hl u (by simp [hu]))
  exact h _ fun t ht => (hx.2 t ht).1

theorem Num.inForm_scale {q : Rat} {x : Num} (hx : x.inForm = true) : (Num.scale q x).inForm = true := by
  rw [Num.scale]
  split_ifs with h
  · exact Num.inForm_zero
  · rw [Num.inForm_iff] at hx ⊢
    refine ⟨List.pairwise_map.mpr hx.1, fun t ht => ?_⟩
    obtain ⟨u, hu, rfl⟩ := List.mem_map.mp ht
    exact ⟨(hx.2 u hu).1, mul_ne_zero h (hx.2 u hu).2⟩

theorem Num.inForm_neg {x : Num} (hx : x.inForm = true) : (Num.neg x).inForm = true := Num.inForm_scale hx

theorem Num.inForm_sub {x y : Num} (hx : x.inForm = true) (hy : y.inForm = true) : (Num.sub x y).inForm = true :=
  Num.inForm_add hx (Num.inForm_neg hy)

/-- A folded angle lies in the first quadrant and is no sixth of a turn. -/
theorem Num.foldTurn_range (a : Rat) :
    0 ≤ (Num.foldTurn a).2 ∧ (Num.foldTurn a).2 < 1 / 4 ∧ (Num.foldTurn a).2 ≠ 1 / 6 := by
  have h0 : (0 : Rat) ≤ a - (a.floor : Rat) := by
    have := Rat.floor_le a
    linarith
  have h1 : a - (a.floor : Rat) < 1 := by
    have : a - 1 < (a.floor : Rat) := Rat.lt_floor
    linarith
  rw [Num.foldTurn]
  generalize a - (a.floor : Rat) = b at h0 h1
  have hc : 0 ≤ (if 1 / 2 < b then 1 - b else b) ∧ (if 1 / 2 < b then 1 - b else b) ≤ 1 / 2 := by
    split_ifs <;> constructor <;> linarith
  generalize (if 1 / 2 < b then 1 - b else b) = c at hc
  by_cases h4 : c = 1 / 4
  · simp only [h4, if_true]
    norm_num
  · simp only [h4, if_false]
    by_cases h : (1 / 4 : Rat) < c
    · simp only [h, if_true]
      by_cases h6 : (1 / 2 - c : Rat) = 1 / 6
      · simp only [if_pos h6]
        norm_num
      · simp only [if_neg h6]
        exact ⟨by linarith [hc.2], by linarith, h6⟩
    · simp only [h, if_false]
      have h' : c < 1 / 4 := lt_of_le_of_ne (not_lt.mp h) h4
      by_cases h6 : c = 1 / 6
      · simp only [if_pos h6]
        norm_num
      · simp only [if_neg h6]
        exact ⟨hc.1, h', h6⟩

theorem Mono.inForm_fold (turn pow : Rat) (factors : List Factor)
    (hd : factors.Pairwise fun a b => Factor.lt b a = false) :
    (⟨(Num.foldTurn turn).2, pow - (pow.floor : Rat), factors⟩ : Mono).inForm = true := by
  obtain ⟨h1, h2, h3⟩ := Num.foldTurn_range turn
  simp only [Mono.inForm, Bool.and_eq_true, decide_eq_true_eq]
  refine ⟨⟨⟨⟨⟨h1, h2⟩, h3⟩, ?_⟩, ?_⟩, hd⟩
  · have := Rat.floor_le pow
    linarith
  · have : pow - 1 < (pow.floor : Rat) := Rat.lt_floor
    linarith

theorem Num.inForm_cosTurn (a : Rat) : (Num.cosTurn a).inForm = true := by
  rw [Num.inForm_iff]
  have h := Mono.inForm_fold a 0 [] (by simp)
  have h0 : ((0 : Rat) - ((0 : Rat).floor : Rat)) = 0 := by decide +kernel
  rw [h0] at h
  exact insertTerm_inForm _ _ _ h ⟨by simp, by simp⟩

theorem Num.inForm_sinTurn (a : Rat) : (Num.sinTurn a).inForm = true := Num.inForm_cosTurn _

theorem Factor.insert_sorted (d : Factor) (l : List Factor) (hl : l.Pairwise fun a b => Factor.lt b a = false) :
    (Factor.insert d l).Pairwise (fun a b => Factor.lt b a = false) := by
  have mem (d : Factor) (l : List Factor) (u : Factor) (h : u ∈ Factor.insert d l) : u = d ∨ u ∈ l := by
    induction l with
    | nil => simpa [Factor.insert] using h
    | cons e l ih =>
      simp only [Factor.insert] at h
      split_ifs at h
      · rcases List.mem_cons.mp h with h | h
        · exact .inr (by simp [h])
        · rcases ih h with h | h
          · exact .inl h
          · exact .inr (by simp [h])
      · simpa using h
  have not_lt_trans {a b c : Factor} (h1 : Factor.lt b a = false) (h2 : Factor.lt c b = false) : Factor.lt c a = false := by
    by_contra hc
    simp only [Bool.not_eq_false] at hc
    rcases Factor.lt_total a b with h | rfl | h
    · simp [Factor.lt_transitive hc h] at h2
    · simp [hc] at h2
    · simp [h] at h1
  induction l with
  | nil => simp [Factor.insert]
  | cons e l ih =>
    rw [List.pairwise_cons] at hl
    simp only [Factor.insert]
    split_ifs with h
    · refine List.pairwise_cons.mpr ⟨fun u hu => ?_, ih hl.2⟩
      rcases mem d l u hu with rfl | hu
      · by_contra hc
        simp only [Bool.not_eq_false] at hc
        have := Factor.lt_transitive h hc
        simp [Factor.lt_irrefl] at this
      · exact hl.1 u hu
    · refine List.pairwise_cons.mpr ⟨fun u hu => ?_, List.pairwise_cons.mpr hl⟩
      have h' : Factor.lt e d = false := by simpa using h
      rcases List.mem_cons.mp hu with rfl | hu
      · exact h'
      · exact not_lt_trans h' (hl.1 u hu)

theorem addProduct_inForm (turn pow : Rat) (factors : List Factor) (c : Rat) (acc : List (Mono × Rat))
    (hd : factors.Pairwise fun a b => Factor.lt b a = false) (ha : termsInForm acc) :
    termsInForm (Num.addProduct turn pow factors c acc) :=
  insertTerm_inForm _ _ _ (Mono.inForm_fold turn pow factors hd) ha

theorem addMul_inForm (t u : Mono × Rat) (acc : List (Mono × Rat)) (ha : termsInForm acc) :
    termsInForm (Num.addMul t u acc) := by
  have sorted (l : List Factor) : (l.foldr Factor.insert []).Pairwise (fun a b => Factor.lt b a = false) := by
    induction l with
    | nil => simp
    | cons d l ih => exact Factor.insert_sorted d _ ih
  simp only [Num.addMul]
  split_ifs
  · exact addProduct_inForm _ _ _ _ _ (sorted _) ha
  · exact addProduct_inForm _ _ _ _ _ (sorted _) (addProduct_inForm _ _ _ _ _ (sorted _) ha)

/-- A product is in normal form, whatever its factors are. -/
theorem Num.inForm_mul (x y : Num) : (Num.mul x y).inForm = true := by
  have inner (t : Mono × Rat) (l acc : List (Mono × Rat)) (ha : termsInForm acc) :
      termsInForm (l.foldr (fun u acc => Num.addMul t u acc) acc) := by
    induction l with
    | nil => exact ha
    | cons u l ih => exact addMul_inForm t u _ ih
  rw [Num.inForm_iff, Num.mul]
  simp only
  generalize x.terms = l
  induction l with
  | nil => exact ⟨by simp, by simp⟩
  | cons t l ih => exact inner t _ _ ih

theorem Num.inForm_tenTo (p : Rat) : (Num.tenTo p).inForm = true := by
  rw [Num.inForm_iff, Num.tenTo]
  refine ⟨by simp, ?_⟩
  have h := Mono.inForm_fold 0 p [] (by simp)
  have h0 : (Num.foldTurn 0).2 = 0 := by decide +kernel
  rw [h0] at h
  intro t ht
  obtain rfl := List.mem_singleton.mp ht
  refine ⟨h, ?_⟩
  rw [Num.tenPow]
  simp only
  split_ifs <;> positivity

theorem Num.inForm_ofHost (x : HostReal) : (Num.ofHost x).inForm = true := by
  cases x
  · exact Num.inForm_ofRat _
  · exact Num.inForm_ofFactor _

theorem Num.inForm_pow10 (x : Num) : (Num.pow10 x).inForm = true := by
  rw [Num.pow10]
  split
  · exact Num.inForm_tenTo _
  · exact Num.inForm_ofFactor _

theorem Num.inForm_sqrtTerm {c p : Rat} {y : Num} (h : Num.sqrtTerm? c p = some y) : y.inForm = true := by
  rw [Num.sqrtTerm?] at h
  split at h
  · obtain rfl := Option.some.inj h
    exact Num.inForm_scale (Num.inForm_tenTo _)
  · split at h
    · obtain rfl := Option.some.inj h
      exact Num.inForm_scale (Num.inForm_tenTo _)
    · obtain ⟨r, -, rfl⟩ := Option.map_eq_some_iff.1 h
      exact Num.inForm_scale (Num.inForm_mul _ _)

theorem Num.inForm_sqrt (x : Num) : (Num.sqrt x).inForm = true := by
  simp only [Num.sqrt]
  split
  · exact Num.inForm_zero
  · rename_i m c _
    split_ifs
    · cases h : Num.sqrtTerm? c m.pow with
      | none => exact Num.inForm_ofFactor _
      | some y => exact Num.inForm_sqrtTerm h
    · exact Num.inForm_ofFactor _
  · exact Num.inForm_ofFactor _

theorem Cplx.inForm_iff (z : Cplx) : z.inForm = true ↔ z.re.inForm = true ∧ z.im.inForm = true := by
  simp [Cplx.inForm]

theorem Cplx.inForm_zero : Cplx.zero.inForm = true := by
  rw [Cplx.inForm_iff]
  exact ⟨Num.inForm_zero, Num.inForm_zero⟩

theorem Cplx.inForm_ofRats (a b : Rat) : (Cplx.ofRats a b).inForm = true := by
  rw [Cplx.inForm_iff]
  exact ⟨Num.inForm_ofRat a, Num.inForm_ofRat b⟩

theorem Cplx.inForm_add {x y : Cplx} (hx : x.inForm = true) (hy : y.inForm = true) : (Cplx.add x y).inForm = true := by
  rw [Cplx.inForm_iff] at hx hy ⊢
  exact ⟨Num.inForm_add hx.1 hy.1, Num.inForm_add hx.2 hy.2⟩

theorem Cplx.inForm_scale (s : Num) (x : Cplx) : (Cplx.scale s x).inForm = true := by
  rw [Cplx.inForm_iff]
  exact ⟨Num.inForm_mul _ _, Num.inForm_mul _ _⟩

theorem Cplx.inForm_mul (x y : Cplx) : (Cplx.mul x y).inForm = true := by
  rw [Cplx.inForm_iff]
  exact ⟨Num.inForm_sub (Num.inForm_mul _ _) (Num.inForm_mul _ _),
    Num.inForm_add (Num.inForm_mul _ _) (Num.inForm_mul _ _)⟩

theorem Cplx.inForm_mac {acc x y : Cplx} (ha : acc.inForm = true) : (Cplx.mac acc x y).inForm = true :=
  Cplx.inForm_add ha (Cplx.inForm_mul _ _)

/-- A sum of products is in normal form, whatever its factors are. -/
theorem Cplx.inForm_sumOfProducts (xs ys : List Cplx) : (Cplx.sumOfProducts xs ys).inForm = true := by
  have h (l : List (Cplx × Cplx)) (acc : Cplx) (ha : acc.inForm = true) :
      (l.foldl (fun acc p => Cplx.mac acc p.1 p.2) acc).inForm = true := by
    induction l generalizing acc with
    | nil => exact ha
    | cons p l ih => exact ih _ (Cplx.inForm_mac ha)
  exact h _ _ Cplx.inForm_zero

end Sys2Proof
end

