-- ==== Sys2Proof/Laws/Operands.lean ====
section
/-! SUPPORT. What the configuration predicates of 10_state R26 and the limits of 10_state R22 say. -/

namespace Sys2Proof.Machine

open Sys2Proof

/-- `okN` (10_state R26). -/
theorem okN_iff (s : State) : s.okN = true ↔ 1 ≤ s.cfgN ∧ s.cfgCp < s.cfgN := by simp [State.okN]

/-- `cfg.k` is the `k` with `2^k = M` (10_state R21). -/
theorem cfgK_of_pow {s : State} {k : Nat} (h : 2 ^ k = s.cfgM) : s.cfgK = k := by
  rw [State.cfgK, ← h, Nat.log2_two_pow]

/-- `okM`: `M` is a power of two, at least 2 (10_state R26). -/
theorem okM_iff (s : State) : s.okM = true ↔ ∃ k, 1 ≤ k ∧ 2 ^ k = s.cfgM := by
  unfold State.okM
  rw [Bool.and_eq_true, decide_eq_true_iff, decide_eq_true_iff]
  constructor
  · rintro ⟨h1, h2⟩
    refine ⟨s.cfgK, ?_, h2⟩
    by_contra h
    rw [show s.cfgK = 0 by omega] at h2
    omega
  · rintro ⟨k, hk, h⟩
    rw [cfgK_of_pow h]
    exact ⟨h ▸ Nat.pow_le_pow_right (n := 2) (by norm_num) hk, h⟩

/-- `okSweep`: the configured SNR values are pairwise distinct real numbers (10_state R26). -/
theorem okSweep_iff (s : State) : s.okSweep = true ↔ ∀ t u, t < u → u < s.cfgSweepLen →
    (sweepRead s.sweepTable t).snr.val ≠ (sweepRead s.sweepTable u).snr.val := by
  unfold State.okSweep
  rw [decide_eq_true_iff, State.sweepEntries, List.map_map, List.Nodup, List.pairwise_map, List.pairwise_iff_getElem]
  simp only [List.getElem_range, List.length_range, Function.comp, ne_eq, HostReal.val_inj]
  exact ⟨fun h t u h1 h2 => h t u (by omega) h2 h1, fun h t u _ h2 h3 => h t u h3 h2⟩

/-- A machine without limits (notes/assumptions/12.md) keeps every one. -/
@[simp] theorem fitsWidth_limits (n : Nat) : fitsWidth Config.limits n = true := rfl

@[simp] theorem fitsCapacity_limits (n : Nat) : fitsCapacity Config.limits n = true := rfl

@[simp] theorem fitsTable_limits (n : Nat) : fitsTable Config.limits n = true := rfl

/-- `CW` bounds what a register holds (10_state R22). -/
theorem fitsWidth_of_some {lim : Limits} {w : Nat} (h : lim.cw = some w) (n : Nat) :
    fitsWidth lim n = decide (n < 2 ^ w) := by simp [fitsWidth, h]

/-- `CAP` bounds what a buffer holds (10_state R22). -/
theorem fitsCapacity_of_some {lim : Limits} {c : Nat} (h : lim.cap = some c) (n : Nat) :
    fitsCapacity lim n = decide (n ≤ c) := by simp [fitsCapacity, h]

/-- `SWEEP_MAX` bounds the sweep table (10_state R22, R24). -/
theorem fitsTable_of_some {lim : Limits} {m : Nat} (h : lim.sweepMax = some m) (n : Nat) :
    fitsTable lim n = decide (n ≤ m) := by simp [fitsTable, h]

end Sys2Proof.Machine
end

