-- ==== Sys2Proof/Laws/State.lean ====
section
/-! SUPPORT. One lemma per field for the two named updates of State, `invalidate` and `raise` (60_exceptions R266). -/

namespace Sys2Proof.Machine

open Sys2Proof

@[simp] theorem State.invalidate_cfgFs (s : State) (b : BufId) : (s.invalidate b).cfgFs = s.cfgFs := by
  cases b <;> rfl

@[simp] theorem State.invalidate_cfgFc (s : State) (b : BufId) : (s.invalidate b).cfgFc = s.cfgFc := by
  cases b <;> rfl

@[simp] theorem State.invalidate_cfgN (s : State) (b : BufId) : (s.invalidate b).cfgN = s.cfgN := by
  cases b <;> rfl

@[simp] theorem State.invalidate_cfgCp (s : State) (b : BufId) : (s.invalidate b).cfgCp = s.cfgCp := by
  cases b <;> rfl

@[simp] theorem State.invalidate_cfgM (s : State) (b : BufId) : (s.invalidate b).cfgM = s.cfgM := by
  cases b <;> rfl

@[simp] theorem State.invalidate_cfgSnrNom (s : State) (b : BufId) : (s.invalidate b).cfgSnrNom = s.cfgSnrNom := by
  cases b <;> rfl

@[simp] theorem State.invalidate_cfgSweepLen (s : State) (b : BufId) : (s.invalidate b).cfgSweepLen = s.cfgSweepLen := by
  cases b <;> rfl

@[simp] theorem State.invalidate_nomSeed (s : State) (b : BufId) : (s.invalidate b).nomSeed = s.nomSeed := by
  cases b <;> rfl

@[simp] theorem State.invalidate_sweepTable (s : State) (b : BufId) : (s.invalidate b).sweepTable = s.sweepTable := by
  cases b <;> rfl

@[simp] theorem State.invalidate_pending (s : State) (b : BufId) : (s.invalidate b).pending = s.pending := by
  cases b <;> rfl

@[simp] theorem State.invalidate_noiseScript (s : State) (b : BufId) : (s.invalidate b).noiseScript = s.noiseScript := by
  cases b <;> rfl

@[simp] theorem State.invalidate_answer (s : State) (b : BufId) : (s.invalidate b).answer = s.answer := by
  cases b <;> rfl

@[simp] theorem State.invalidate_freeIdx (s : State) (b : BufId) : (s.invalidate b).freeIdx = s.freeIdx := by
  cases b <;> rfl

@[simp] theorem State.invalidate_status (s : State) (b : BufId) : (s.invalidate b).status = s.status := by
  cases b <;> rfl

@[simp] theorem State.invalidate_inbuf (s : State) (b : BufId) :
    (s.invalidate b).inbuf = if b = .inbuf then none else s.inbuf := by
  cases b <;> rfl

@[simp] theorem State.invalidate_bits (s : State) (b : BufId) :
    (s.invalidate b).bits = if b = .bits then none else s.bits := by
  cases b <;> rfl

@[simp] theorem State.invalidate_pbits (s : State) (b : BufId) :
    (s.invalidate b).pbits = if b = .pbits then none else s.pbits := by
  cases b <;> rfl

@[simp] theorem State.invalidate_idx (s : State) (b : BufId) :
    (s.invalidate b).idx = if b = .idx then none else s.idx := by
  cases b <;> rfl

@[simp] theorem State.invalidate_sym (s : State) (b : BufId) :
    (s.invalidate b).sym = if b = .sym then none else s.sym := by
  cases b <;> rfl

@[simp] theorem State.invalidate_txgrid (s : State) (b : BufId) :
    (s.invalidate b).txgrid = if b = .txgrid then none else s.txgrid := by
  cases b <;> rfl

@[simp] theorem State.invalidate_txblk (s : State) (b : BufId) :
    (s.invalidate b).txblk = if b = .txblk then none else s.txblk := by
  cases b <;> rfl

@[simp] theorem State.invalidate_txwave (s : State) (b : BufId) :
    (s.invalidate b).txwave = if b = .txwave then none else s.txwave := by
  cases b <;> rfl

@[simp] theorem State.invalidate_rxwave (s : State) (b : BufId) :
    (s.invalidate b).rxwave = if b = .rxwave then none else s.rxwave := by
  cases b <;> rfl

@[simp] theorem State.invalidate_rxblk (s : State) (b : BufId) :
    (s.invalidate b).rxblk = if b = .rxblk then none else s.rxblk := by
  cases b <;> rfl

@[simp] theorem State.invalidate_rxgrid (s : State) (b : BufId) :
    (s.invalidate b).rxgrid = if b = .rxgrid then none else s.rxgrid := by
  cases b <;> rfl

@[simp] theorem State.invalidate_rxflat (s : State) (b : BufId) :
    (s.invalidate b).rxflat = if b = .rxflat then none else s.rxflat := by
  cases b <;> rfl

@[simp] theorem State.invalidate_rxsym (s : State) (b : BufId) :
    (s.invalidate b).rxsym = if b = .rxsym then none else s.rxsym := by
  cases b <;> rfl

@[simp] theorem State.invalidate_rxint (s : State) (b : BufId) :
    (s.invalidate b).rxint = if b = .rxint then none else s.rxint := by
  cases b <;> rfl

@[simp] theorem State.invalidate_outbuf (s : State) (b : BufId) :
    (s.invalidate b).outbuf = if b = .outbuf then none else s.outbuf := by
  cases b <;> rfl

@[simp] theorem State.invalidate_result (s : State) (b : BufId) :
    (s.invalidate b).result = if b = .result then none else s.result := by
  cases b <;> rfl

/-- A field that invalidating a buffer keeps is kept by invalidating several. -/
theorem State.foldl_invalidate_keeps {α : Type} (f : State → α) (h : ∀ s b, f (State.invalidate s b) = f s)
    (ds : List BufId) (s : State) : f (ds.foldl State.invalidate s) = f s := by
  induction ds generalizing s with
  | nil => rfl
  | cons d ds ih => rw [List.foldl_cons, ih, h]

/-- A buffer is invalid after its invalidation among others, else as before. -/
theorem State.foldl_invalidate_buffer {α : Type} (f : State → Option α) (d : BufId)
    (h : ∀ s b, f (State.invalidate s b) = if b = d then none else f s) (ds : List BufId) (s : State) :
    f (ds.foldl State.invalidate s) = if d ∈ ds then none else f s := by
  induction ds generalizing s with
  | nil => simp
  | cons e ds ih =>
    rw [List.foldl_cons, ih, h]
    simp only [List.mem_cons]
    by_cases h1 : d ∈ ds
    · simp [h1]
    · by_cases h2 : d = e
      · simp [h2]
      · simp [h1, h2, Ne.symm h2]

@[simp] theorem State.raise_status (s : State) (code : FaultCode) (w : Byte) (ds : List BufId) :
    (s.raise code w ds).status = statusWord code w := by
  rw [State.raise, State.foldl_invalidate_keeps (·.status) State.invalidate_status]

@[simp] theorem State.raise_cfgFs (s : State) (code : FaultCode) (w : Byte) (ds : List BufId) :
    (s.raise code w ds).cfgFs = s.cfgFs := by
  rw [State.raise, State.foldl_invalidate_keeps (·.cfgFs) State.invalidate_cfgFs]

@[simp] theorem State.raise_cfgFc (s : State) (code : FaultCode) (w : Byte) (ds : List BufId) :
    (s.raise code w ds).cfgFc = s.cfgFc := by
  rw [State.raise, State.foldl_invalidate_keeps (·.cfgFc) State.invalidate_cfgFc]

@[simp] theorem State.raise_cfgN (s : State) (code : FaultCode) (w : Byte) (ds : List BufId) :
    (s.raise code w ds).cfgN = s.cfgN := by
  rw [State.raise, State.foldl_invalidate_keeps (·.cfgN) State.invalidate_cfgN]

@[simp] theorem State.raise_cfgCp (s : State) (code : FaultCode) (w : Byte) (ds : List BufId) :
    (s.raise code w ds).cfgCp = s.cfgCp := by
  rw [State.raise, State.foldl_invalidate_keeps (·.cfgCp) State.invalidate_cfgCp]

@[simp] theorem State.raise_cfgM (s : State) (code : FaultCode) (w : Byte) (ds : List BufId) :
    (s.raise code w ds).cfgM = s.cfgM := by
  rw [State.raise, State.foldl_invalidate_keeps (·.cfgM) State.invalidate_cfgM]

@[simp] theorem State.raise_cfgSnrNom (s : State) (code : FaultCode) (w : Byte) (ds : List BufId) :
    (s.raise code w ds).cfgSnrNom = s.cfgSnrNom := by
  rw [State.raise, State.foldl_invalidate_keeps (·.cfgSnrNom) State.invalidate_cfgSnrNom]

@[simp] theorem State.raise_cfgSweepLen (s : State) (code : FaultCode) (w : Byte) (ds : List BufId) :
    (s.raise code w ds).cfgSweepLen = s.cfgSweepLen := by
  rw [State.raise, State.foldl_invalidate_keeps (·.cfgSweepLen) State.invalidate_cfgSweepLen]

@[simp] theorem State.raise_nomSeed (s : State) (code : FaultCode) (w : Byte) (ds : List BufId) :
    (s.raise code w ds).nomSeed = s.nomSeed := by
  rw [State.raise, State.foldl_invalidate_keeps (·.nomSeed) State.invalidate_nomSeed]

@[simp] theorem State.raise_sweepTable (s : State) (code : FaultCode) (w : Byte) (ds : List BufId) :
    (s.raise code w ds).sweepTable = s.sweepTable := by
  rw [State.raise, State.foldl_invalidate_keeps (·.sweepTable) State.invalidate_sweepTable]

@[simp] theorem State.raise_pending (s : State) (code : FaultCode) (w : Byte) (ds : List BufId) :
    (s.raise code w ds).pending = s.pending := by
  rw [State.raise, State.foldl_invalidate_keeps (·.pending) State.invalidate_pending]

@[simp] theorem State.raise_noiseScript (s : State) (code : FaultCode) (w : Byte) (ds : List BufId) :
    (s.raise code w ds).noiseScript = s.noiseScript := by
  rw [State.raise, State.foldl_invalidate_keeps (·.noiseScript) State.invalidate_noiseScript]

@[simp] theorem State.raise_answer (s : State) (code : FaultCode) (w : Byte) (ds : List BufId) :
    (s.raise code w ds).answer = s.answer := by
  rw [State.raise, State.foldl_invalidate_keeps (·.answer) State.invalidate_answer]

@[simp] theorem State.raise_freeIdx (s : State) (code : FaultCode) (w : Byte) (ds : List BufId) :
    (s.raise code w ds).freeIdx = s.freeIdx := by
  rw [State.raise, State.foldl_invalidate_keeps (·.freeIdx) State.invalidate_freeIdx]

@[simp] theorem State.raise_inbuf (s : State) (code : FaultCode) (w : Byte) (ds : List BufId) :
    (s.raise code w ds).inbuf = if .inbuf ∈ ds then none else s.inbuf := by
  rw [State.raise, State.foldl_invalidate_buffer (·.inbuf) .inbuf State.invalidate_inbuf]

@[simp] theorem State.raise_bits (s : State) (code : FaultCode) (w : Byte) (ds : List BufId) :
    (s.raise code w ds).bits = if .bits ∈ ds then none else s.bits := by
  rw [State.raise, State.foldl_invalidate_buffer (·.bits) .bits State.invalidate_bits]

@[simp] theorem State.raise_pbits (s : State) (code : FaultCode) (w : Byte) (ds : List BufId) :
    (s.raise code w ds).pbits = if .pbits ∈ ds then none else s.pbits := by
  rw [State.raise, State.foldl_invalidate_buffer (·.pbits) .pbits State.invalidate_pbits]

@[simp] theorem State.raise_idx (s : State) (code : FaultCode) (w : Byte) (ds : List BufId) :
    (s.raise code w ds).idx = if .idx ∈ ds then none else s.idx := by
  rw [State.raise, State.foldl_invalidate_buffer (·.idx) .idx State.invalidate_idx]

@[simp] theorem State.raise_sym (s : State) (code : FaultCode) (w : Byte) (ds : List BufId) :
    (s.raise code w ds).sym = if .sym ∈ ds then none else s.sym := by
  rw [State.raise, State.foldl_invalidate_buffer (·.sym) .sym State.invalidate_sym]

@[simp] theorem State.raise_txgrid (s : State) (code : FaultCode) (w : Byte) (ds : List BufId) :
    (s.raise code w ds).txgrid = if .txgrid ∈ ds then none else s.txgrid := by
  rw [State.raise, State.foldl_invalidate_buffer (·.txgrid) .txgrid State.invalidate_txgrid]

@[simp] theorem State.raise_txblk (s : State) (code : FaultCode) (w : Byte) (ds : List BufId) :
    (s.raise code w ds).txblk = if .txblk ∈ ds then none else s.txblk := by
  rw [State.raise, State.foldl_invalidate_buffer (·.txblk) .txblk State.invalidate_txblk]

@[simp] theorem State.raise_txwave (s : State) (code : FaultCode) (w : Byte) (ds : List BufId) :
    (s.raise code w ds).txwave = if .txwave ∈ ds then none else s.txwave := by
  rw [State.raise, State.foldl_invalidate_buffer (·.txwave) .txwave State.invalidate_txwave]

@[simp] theorem State.raise_rxwave (s : State) (code : FaultCode) (w : Byte) (ds : List BufId) :
    (s.raise code w ds).rxwave = if .rxwave ∈ ds then none else s.rxwave := by
  rw [State.raise, State.foldl_invalidate_buffer (·.rxwave) .rxwave State.invalidate_rxwave]

@[simp] theorem State.raise_rxblk (s : State) (code : FaultCode) (w : Byte) (ds : List BufId) :
    (s.raise code w ds).rxblk = if .rxblk ∈ ds then none else s.rxblk := by
  rw [State.raise, State.foldl_invalidate_buffer (·.rxblk) .rxblk State.invalidate_rxblk]

@[simp] theorem State.raise_rxgrid (s : State) (code : FaultCode) (w : Byte) (ds : List BufId) :
    (s.raise code w ds).rxgrid = if .rxgrid ∈ ds then none else s.rxgrid := by
  rw [State.raise, State.foldl_invalidate_buffer (·.rxgrid) .rxgrid State.invalidate_rxgrid]

@[simp] theorem State.raise_rxflat (s : State) (code : FaultCode) (w : Byte) (ds : List BufId) :
    (s.raise code w ds).rxflat = if .rxflat ∈ ds then none else s.rxflat := by
  rw [State.raise, State.foldl_invalidate_buffer (·.rxflat) .rxflat State.invalidate_rxflat]

@[simp] theorem State.raise_rxsym (s : State) (code : FaultCode) (w : Byte) (ds : List BufId) :
    (s.raise code w ds).rxsym = if .rxsym ∈ ds then none else s.rxsym := by
  rw [State.raise, State.foldl_invalidate_buffer (·.rxsym) .rxsym State.invalidate_rxsym]

@[simp] theorem State.raise_rxint (s : State) (code : FaultCode) (w : Byte) (ds : List BufId) :
    (s.raise code w ds).rxint = if .rxint ∈ ds then none else s.rxint := by
  rw [State.raise, State.foldl_invalidate_buffer (·.rxint) .rxint State.invalidate_rxint]

@[simp] theorem State.raise_outbuf (s : State) (code : FaultCode) (w : Byte) (ds : List BufId) :
    (s.raise code w ds).outbuf = if .outbuf ∈ ds then none else s.outbuf := by
  rw [State.raise, State.foldl_invalidate_buffer (·.outbuf) .outbuf State.invalidate_outbuf]

@[simp] theorem State.raise_result (s : State) (code : FaultCode) (w : Byte) (ds : List BufId) :
    (s.raise code w ds).result = if .result ∈ ds then none else s.result := by
  rw [State.raise, State.foldl_invalidate_buffer (·.result) .result State.invalidate_result]

end Sys2Proof.Machine
end

