-- ==== Sys2Proof/Laws/Ops.lean ====
section
/-! SUPPORT. Everything each shared operation can do, said once: running a command, the sweep table, `STATUS`,
`VALID`. -/

namespace Sys2Proof.Machine

open Sys2Proof

/-- Every arm of `exec` runs its command's body. -/
theorem exec_eq_runCommand (i : Instr) (s : State) : exec i s = runCommand i (commandBody Config.num i) s := by
  cases i <;> rfl

/-- This machine is the implementation whose number format is `Config.num`. -/
theorem execIn_num (i : Instr) (s : State) : execIn Config.num i s = exec i s := (exec_eq_runCommand i s).symm

/-- With no limit to keep, a command leads to its body's state or takes its fault. -/
theorem runCommand_eq (i : Instr) (body : State → Except FaultCode State) (s : State) :
    runCommand i body s =
      if s.faulted then .next s
      else
        match body s with
        | .ok t => .next t
        | .error code => .next (s.raise code (encode i) (destinations i)) := by
  have h (t : State) : ((destinations i).find? fun b => !fitsCapacity Config.limits (t.size b)) = none := by simp
  cases hb : body s <;> simp only [runCommand, runCommandWithin, hb, h]

/-- A faulted core does not accept a command (60_exceptions R267). -/
theorem runCommand_faulted {i : Instr} {body : State → Except FaultCode State} {s : State} (h : s.faulted = true) :
    runCommand i body s = .next s := by
  rw [runCommand_eq, if_pos h]

/-- A command whose body succeeds leads to the body's state. -/
theorem runCommand_ok {i : Instr} {body : State → Except FaultCode State} {s t : State} (h : s.faulted = false)
    (hb : body s = .ok t) : runCommand i body s = .next t := by
  simp [runCommand_eq, h, hb]

/-- A command whose body faults takes the fault (60_exceptions R266). -/
theorem runCommand_error {i : Instr} {body : State → Except FaultCode State} {s : State} {code : FaultCode}
    (h : s.faulted = false) (hb : body s = .error code) :
    runCommand i body s = .next (s.raise code (encode i) (destinations i)) := by
  simp [runCommand_eq, h, hb]

@[simp] theorem keeping_true (r : Refusal) (o : Host.Outcome State Fault Refusal) : keeping true r o = o := rfl

@[simp] theorem keeping_false (r : Refusal) (o : Host.Outcome State Fault Refusal) : keeping false r o = .refused r :=
  rfl

/-- All that issuing a command can do. -/
theorem exec_cases {i : Instr} {s t : State} (h : exec i s = .next t) :
    (s.faulted = true ∧ t = s) ∨ (s.faulted = false ∧ commandBody Config.num i s = .ok t) ∨
      (s.faulted = false ∧ ∃ code, commandBody Config.num i s = .error code ∧
        t = s.raise code (encode i) (destinations i)) := by
  rw [exec_eq_runCommand] at h
  cases hf : s.faulted with
  | true =>
    rw [runCommand_faulted hf] at h
    cases h
    exact .inl ⟨rfl, rfl⟩
  | false =>
    cases hb : commandBody Config.num i s with
    | ok u =>
      rw [runCommand_ok hf hb] at h
      cases h
      exact .inr (.inl ⟨rfl, rfl⟩)
    | error code =>
      rw [runCommand_error hf hb] at h
      cases h
      exact .inr (.inr ⟨rfl, code, rfl, rfl⟩)

/-- Issuing one more command, on a core that accepts it and with a body that succeeds. -/
theorem issueAll_cons {f : NumFormat} {i : Instr} {is : List Instr} {s t : State} (h : s.faulted = false)
    (hb : commandBody f i s = .ok t) : issueAll f (i :: is) s = issueAll f is t := by
  rw [issueAll, execIn, runCommand_ok h hb]

theorem b2bBody_ok {s t : State} (h : b2bBody s = .ok t) :
    ∃ bytes, s.inbuf = some bytes ∧ t = { s with bits := some (bytesToBits bytes) } := by
  unfold b2bBody at h
  split at h
  · cases h
  · cases h
    exact ⟨_, ‹_›, rfl⟩

theorem padBody_ok {s t : State} (h : padBody s = .ok t) :
    s.okM = true ∧ ∃ bits, s.bits = some bits ∧ t = { s with pbits := some (padBits s.cfgK bits) } := by
  unfold padBody at h
  split_ifs at h with hm
  split at h
  · cases h
  · cases h
    exact ⟨by simpa using hm, _, ‹_›, rfl⟩

theorem groupBody_ok {s t : State} (h : groupBody s = .ok t) :
    s.okM = true ∧ ∃ pbits, s.pbits = some pbits ∧ pbits.length % s.cfgK = 0 ∧
      t = { s with idx := some (groupBits s.cfgK pbits) } := by
  unfold groupBody at h
  split_ifs at h with hm
  split at h
  · cases h
  · split_ifs at h with hl
    cases h
    exact ⟨by simpa using hm, _, ‹_›, by simpa using hl, rfl⟩

theorem mapBody_ok {s t : State} (h : mapBody s = .ok t) :
    ∃ idx, s.idx = some idx ∧ t = { s with sym := some (idx.map mapIndex) } := by
  unfold mapBody at h
  split at h
  · cases h
  · cases h
    exact ⟨_, ‹_›, rfl⟩

theorem gridBody_ok {s t : State} (h : gridBody s = .ok t) :
    s.okN = true ∧ ∃ syms, s.sym = some syms ∧ t = { s with txgrid := some (buildGrid s.cfgN syms) } := by
  unfold gridBody at h
  split_ifs at h with hn
  split at h
  · cases h
  · cases h
    exact ⟨by simpa using hn, _, ‹_›, rfl⟩

theorem totimeBody_ok {f : NumFormat} {s t : State} (h : totimeBody f s = .ok t) :
    s.okN = true ∧ ∃ g, s.txgrid = some g ∧ g.rows = s.cfgN ∧
      t = { s with txblk := some (toTimeDomain f s.cfgN s.cfgCp g) } := by
  unfold totimeBody at h
  split_ifs at h with hn
  split at h
  · cases h
  · split_ifs at h with hr
    cases h
    exact ⟨by simpa using hn, _, ‹_›, by simpa using hr, rfl⟩

theorem flattxBody_ok {s t : State} (h : flattxBody s = .ok t) :
    ∃ g, s.txblk = some g ∧ t = { s with txwave := some g.data } := by
  unfold flattxBody at h
  split at h
  · cases h
  · cases h
    exact ⟨_, ‹_›, rfl⟩

theorem chanBody_ok {f : NumFormat} {s t : State} (h : chanBody f s = .ok t) :
    ∃ x, s.txwave = some x ∧
      t = { s with
        rxwave := some (channel f x s.cfgSnrNom (noise f s.nomSeed x.length s.noiseScript s.freeIdx).w)
        noiseScript := (noise f s.nomSeed x.length s.noiseScript s.freeIdx).script
        freeIdx := (noise f s.nomSeed x.length s.noiseScript s.freeIdx).free } := by
  unfold chanBody at h
  split at h
  · cases h
  · cases h
    exact ⟨_, ‹_›, rfl⟩

theorem toblkBody_ok {s t : State} (h : toblkBody s = .ok t) :
    s.okN = true ∧ ∃ x, s.rxwave = some x ∧ x.length % (s.cfgN + s.cfgCp) = 0 ∧
      t = { s with rxblk := some (toBlocks s.cfgN s.cfgCp x) } := by
  unfold toblkBody at h
  split_ifs at h with hn
  split at h
  · cases h
  · split_ifs at h with hl
    cases h
    exact ⟨by simpa using hn, _, ‹_›, by simpa using hl, rfl⟩

theorem tofreqBody_ok {f : NumFormat} {s t : State} (h : tofreqBody f s = .ok t) :
    s.okN = true ∧ ∃ g, s.rxblk = some g ∧ g.rows = s.cfgN ∧
      t = { s with rxgrid := some (toFrequencyDomain f s.cfgN g) } := by
  unfold tofreqBody at h
  split_ifs at h with hn
  split at h
  · cases h
  · split_ifs at h with hr
    cases h
    exact ⟨by simpa using hn, _, ‹_›, by simpa using hr, rfl⟩

theorem flatrxBody_ok {s t : State} (h : flatrxBody s = .ok t) :
    ∃ g, s.rxgrid = some g ∧ t = { s with rxflat := some g.data } := by
  unfold flatrxBody at h
  split at h
  · cases h
  · cases h
    exact ⟨_, ‹_›, rfl⟩

theorem truncBody_ok {s t : State} (h : truncBody s = .ok t) :
    ∃ flat idx, s.rxflat = some flat ∧ s.idx = some idx ∧ idx.length ≤ flat.length ∧
      t = { s with rxsym := some (flat.take idx.length) } := by
  unfold truncBody at h
  split at h
  · split_ifs at h with hl
    cases h
    exact ⟨_, _, ‹_›, ‹_›, by omega, rfl⟩
  · cases h

theorem demapBody_ok {f : NumFormat} {s t : State} (h : demapBody f s = .ok t) :
    ∃ syms, s.rxsym = some syms ∧ t = { s with rxint := some (syms.map (demapSymbol f)) } := by
  unfold demapBody at h
  split at h
  · cases h
  · cases h
    exact ⟨_, ‹_›, rfl⟩

theorem repackBody_ok {s t : State} (h : repackBody s = .ok t) :
    ∃ ints bits, s.rxint = some ints ∧ s.bits = some bits ∧
      t = { s with outbuf := some (repackBytes ints bits.length) } := by
  unfold repackBody at h
  split at h
  · cases h
    exact ⟨_, _, ‹_›, ‹_›, rfl⟩
  · cases h

theorem sweepBody_ok {f : NumFormat} {s t : State} (h : sweepBody f s = .ok t) :
    s.okN = true ∧ s.okSweep = true ∧ ∃ idx wave, s.idx = some idx ∧ s.txwave = some wave ∧
      wave.length % (s.cfgN + s.cfgCp) = 0 ∧ idx.length ≤ wave.length / (s.cfgN + s.cfgCp) * s.cfgN ∧
      t = { s with
        result := some (sweepTrials f idx wave s.cfgN s.cfgCp s.sweepEntries s.noiseScript s.freeIdx).result
        noiseScript := (sweepTrials f idx wave s.cfgN s.cfgCp s.sweepEntries s.noiseScript s.freeIdx).script
        freeIdx := (sweepTrials f idx wave s.cfgN s.cfgCp s.sweepEntries s.noiseScript s.freeIdx).free } := by
  unfold sweepBody at h
  split_ifs at h with hc
  split at h
  · split_ifs at h with h1 h2
    cases h
    simp only [Bool.not_eq_true', Bool.not_eq_false] at hc
    exact ⟨(by simpa using hc : _ ∧ _).1, (by simpa using hc : _ ∧ _).2, _, _, ‹_›, ‹_›, by simpa using h1,
      by omega, rfl⟩
  · cases h

/-- A write to the sweep table is read back at its index. -/
theorem sweepRead_sweepWrite_same (table : List (Nat × SweepEntry)) (t : Nat) (e : SweepEntry)
    (hwf : sweepTableWf table = true) : sweepRead (sweepWrite table t e) t = e := by
  induction table with
  | nil =>
    simp only [sweepWrite]
    split_ifs with h
    · rw [h, sweepRead]
    · simp [sweepRead]
  | cons u rest ih =>
    obtain ⟨u, f⟩ := u
    simp only [sweepTableWf, Bool.and_eq_true, List.all_eq_true, decide_eq_true_eq] at hwf
    have absent (t : Nat) (rest : List (Nat × SweepEntry)) (h : ∀ v ∈ rest, t < v.1) : sweepRead rest t = .unlisted := by
      induction rest with
      | nil => rfl
      | cons v rest ihr =>
        obtain ⟨v, g⟩ := v
        have := h (v, g) (by simp)
        simp only at this
        rw [sweepRead, if_neg (by omega), ihr (fun w hw => h w (by simp [hw]))]
    simp only [sweepWrite]
    split_ifs with h1 h2 h3 h4
    · subst h1
      rw [h2]
      exact absent t rest hwf.1.2
    · simp [sweepRead]
    · rw [sweepRead, if_neg h1, h4]
      exact absent t rest (fun w hw => lt_trans h3 (hwf.1.2 w hw))
    · simp [sweepRead]
    · rw [sweepRead, if_neg h1]
      exact ih hwf.2

/-- A write to the sweep table leaves every other entry as it was. -/
theorem sweepRead_sweepWrite_other (table : List (Nat × SweepEntry)) (t u : Nat) (e : SweepEntry) (h : u ≠ t)
    (hwf : sweepTableWf table = true) : sweepRead (sweepWrite table t e) u = sweepRead table u := by
  induction table with
  | nil =>
    simp only [sweepWrite]
    split_ifs <;> simp [sweepRead, h]
  | cons v rest ih =>
    obtain ⟨v, f⟩ := v
    simp only [sweepTableWf, Bool.and_eq_true] at hwf
    simp only [sweepWrite]
    split_ifs with h1 h2 h3 h4
    · subst h1
      simp [sweepRead, h]
    · subst h1
      simp [sweepRead, h]
    · rfl
    · simp [sweepRead, h]
    · simp only [sweepRead]
      split_ifs
      · rfl
      · exact ih hwf.2

theorem sweepWrite_mem {table : List (Nat × SweepEntry)} {t : Nat} {e : SweepEntry} {v : Nat × SweepEntry}
    (h : v ∈ sweepWrite table t e) : v = (t, e) ∨ v ∈ table := by
  induction table with
  | nil =>
    simp only [sweepWrite] at h
    split_ifs at h
    · simp at h
    · simpa using h
  | cons u rest ih =>
    obtain ⟨u, f⟩ := u
    simp only [sweepWrite] at h
    split_ifs at h with h1 h2 h3 h4
    · exact .inr (by simp [h])
    · rcases List.mem_cons.mp h with h | h
      · exact .inl h
      · exact .inr (by simp [h])
    · exact .inr h
    · rcases List.mem_cons.mp h with h | h
      · exact .inl h
      · exact .inr h
    · rcases List.mem_cons.mp h with h | h
      · exact .inr (by simp [h])
      · rcases ih h with h | h
        · exact .inl h
        · exact .inr (by simp [h])

/-- A write keeps the sweep table in canonical form. -/
theorem sweepWrite_wf (table : List (Nat × SweepEntry)) (t : Nat) (e : SweepEntry) (h : sweepTableWf table = true) :
    sweepTableWf (sweepWrite table t e) = true := by
  induction table with
  | nil =>
    simp only [sweepWrite]
    split_ifs with he
    · rfl
    · simp [sweepTableWf, he]
  | cons u rest ih =>
    obtain ⟨u, f⟩ := u
    have h' := h
    simp only [sweepTableWf, Bool.and_eq_true, List.all_eq_true, decide_eq_true_eq] at h
    simp only [sweepWrite]
    split_ifs with h1 h2 h3 h4
    · exact h.2
    · subst h1
      simp only [sweepTableWf, Bool.and_eq_true, List.all_eq_true, decide_eq_true_eq]
      exact ⟨⟨h2, h.1.2⟩, h.2⟩
    · exact h'
    · rw [sweepTableWf, h', Bool.and_true]
      simp only [Bool.and_eq_true, List.all_eq_true, decide_eq_true_eq]
      refine ⟨h4, fun v hv => ?_⟩
      rcases List.mem_cons.mp hv with rfl | hv
      · exact h3
      · exact lt_trans h3 (h.1.2 v hv)
    · rw [sweepTableWf, ih h.2, Bool.and_true]
      simp only [Bool.and_eq_true, List.all_eq_true, decide_eq_true_eq]
      refine ⟨h.1.1, fun v hv => ?_⟩
      rcases sweepWrite_mem hv with rfl | hv
      · simp only
        omega
      · exact h.1.2 v hv

/-- Bit `id(B)` of `VALID` is the valid flag of `B` (10_state R23). -/
theorem validWord_bit (s : State) (b : BufId) : s.validWord.getLsbD b.id = s.valid b := by
  rw [State.validWord, BitVec.getLsbD_setWidth, BitVec.getLsbD_ofBoolListLE]
  cases b <;> rfl

/-- `STATUS.FAULT` of a fault word is the code (10_state R23). -/
theorem statusWord_fault (code : FaultCode) (w : Byte) : (statusWord code w).extractLsb' 0 4 = code.bits := by
  rw [statusWord, BitVec.extractLsb'_append_eq_right]

/-- A core that just took a fault is faulted (60_exceptions R266, R267). -/
theorem raise_faulted (s : State) (code : FaultCode) (w : Byte) (ds : List BufId) :
    (s.raise code w ds).faulted = true := by
  rw [State.faulted, State.faultField, State.raise_status, statusWord_fault]
  cases code <;> decide

end Sys2Proof.Machine
end

