-- ==== Sys2Proof/Laws/Memory.lean ====
section
/-! SUPPORT. Every operation that writes the memory keeps its form (`Memory.wf`): the Grids' shapes (10_state R31) and
the canonical sweep table. -/

namespace Sys2Proof.Machine

open Sys2Proof

/-- Number of blocks times rows covers the symbols (43_ofdm_framer R160). -/
theorem blocks_cover (n N : Nat) (hN : 1 ≤ N) : n ≤ (n + N - 1) / N * N := by
  have h := Nat.div_add_mod (n + N - 1) N
  have h2 := Nat.mod_lt (n + N - 1) (show 0 < N by omega)
  have h3 : N * ((n + N - 1) / N) = (n + N - 1) / N * N := Nat.mul_comm _ _
  omega

theorem buildGrid_wf (N : Nat) (syms : List Cplx) (hN : 1 ≤ N) : (buildGrid N syms).wellFormed = true := by
  have h := blocks_cover syms.length N hN
  have hc : (syms.length + N - 1) / N * N = N * ((syms.length + N - 1) / N) := Nat.mul_comm _ _
  simp only [buildGrid, Grid.wellFormed, decide_eq_true_eq, List.length_append, List.length_replicate]
  omega

theorem toTimeDomain_wf (N p : Nat) (g : Grid) (hp : p ≤ N) : (toTimeDomain Config.num N p g).wellFormed = true := by
  rw [Grid.wellFormed, decide_eq_true_eq]
  exact flatMap_range_length (N := N + p) _ _ fun c _ => by
    rw [cpins_length _ _ (by rw [Config.num_idft, idft_length]; exact hp), Config.num_idft, idft_length]

theorem toBlocks_wf (N p : Nat) (x : List Cplx) (h : x.length % (N + p) = 0) : (toBlocks N p x).wellFormed = true := by
  rw [Grid.wellFormed, decide_eq_true_eq]
  have hx : x.length = (N + p) * (x.length / (N + p)) := by
    have := Nat.div_add_mod x.length (N + p)
    omega
  exact flatMap_range_length (N := N) _ _ fun c hc => by rw [cprem_length, chunk_length x (N + p) c _ hx hc, Nat.add_sub_cancel]

theorem toFrequencyDomain_wf (N : Nat) (g : Grid) : (toFrequencyDomain Config.num N g).wellFormed = true := by
  rw [Grid.wellFormed, decide_eq_true_eq]
  exact flatMap_range_length _ _ fun c _ => dft_length N _

/-- Memory in form, part by part. -/
theorem memory_wf_iff (s : State) :
    Memory.wf s = true ↔ sweepTableWf s.sweepTable = true ∧ (∀ g, s.txgrid = some g → g.wellFormed = true) ∧
      (∀ g, s.txblk = some g → g.wellFormed = true) ∧ (∀ g, s.rxblk = some g → g.wellFormed = true) ∧
      (∀ g, s.rxgrid = some g → g.wellFormed = true) := by
  simp [Memory.wf, gridsWf, Option.all_eq_true, and_assoc]

theorem reset_memory_wf : Memory.wf State.reset = true := by decide

theorem invalidate_memory_wf (s : State) (b : BufId) (h : Memory.wf s = true) : Memory.wf (s.invalidate b) = true := by
  rw [memory_wf_iff] at h ⊢
  simp only [State.invalidate_sweepTable, State.invalidate_txgrid, State.invalidate_txblk, State.invalidate_rxblk,
    State.invalidate_rxgrid]
  refine ⟨h.1, ?_, ?_, ?_, ?_⟩ <;> intro g hg <;> split_ifs at hg
  · exact h.2.1 g hg
  · exact h.2.2.1 g hg
  · exact h.2.2.2.1 g hg
  · exact h.2.2.2.2 g hg

/-- Taking a fault keeps the memory's form (60_exceptions R266). -/
theorem raise_memory_wf (s : State) (code : FaultCode) (w : Byte) (ds : List BufId) (h : Memory.wf s = true) :
    Memory.wf (s.raise code w ds) = true := by
  rw [memory_wf_iff] at h ⊢
  simp only [State.raise_sweepTable, State.raise_txgrid, State.raise_txblk, State.raise_rxblk, State.raise_rxgrid]
  refine ⟨h.1, ?_, ?_, ?_, ?_⟩ <;> intro g hg <;> split_ifs at hg
  · exact h.2.1 g hg
  · exact h.2.2.1 g hg
  · exact h.2.2.2.1 g hg
  · exact h.2.2.2.2 g hg

/-- A sweep-table write keeps the memory's form. -/
theorem writeSweep_memory_wf (s : State) (t : Nat) (e : SweepEntry) (h : Memory.wf s = true) :
    Memory.wf { s with sweepTable := sweepWrite s.sweepTable t e } = true := by
  rw [memory_wf_iff] at h ⊢
  exact ⟨sweepWrite_wf _ t e h.1, h.2⟩

end Sys2Proof.Machine
end

