-- ==== Sys2Proof/Laws/PerInstr.lean ====
section
/-! SUPPORT. The statement made of every command as a term: it is well formed, its word is in the opcode map, and
decoding its word gives it back (30_encoding R82). -/

namespace Sys2Proof.Laws

open Sys2Proof

def CommandWord.Statement (i : Instr) : Prop :=
  i.wellFormed = true ∧ wordWellFormed (encode i) = true ∧ decode (encode i) = .ok i

theorem CommandWord.nop : CommandWord.Statement .nop := by unfold CommandWord.Statement; decide
theorem CommandWord.b2b : CommandWord.Statement .b2b := by unfold CommandWord.Statement; decide
theorem CommandWord.pad : CommandWord.Statement .pad := by unfold CommandWord.Statement; decide
theorem CommandWord.group : CommandWord.Statement .group := by unfold CommandWord.Statement; decide
theorem CommandWord.map : CommandWord.Statement .map := by unfold CommandWord.Statement; decide
theorem CommandWord.grid : CommandWord.Statement .grid := by unfold CommandWord.Statement; decide
theorem CommandWord.totime : CommandWord.Statement .totime := by unfold CommandWord.Statement; decide
theorem CommandWord.flattx : CommandWord.Statement .flattx := by unfold CommandWord.Statement; decide
theorem CommandWord.chan : CommandWord.Statement .chan := by unfold CommandWord.Statement; decide
theorem CommandWord.toblk : CommandWord.Statement .toblk := by unfold CommandWord.Statement; decide
theorem CommandWord.tofreq : CommandWord.Statement .tofreq := by unfold CommandWord.Statement; decide
theorem CommandWord.flatrx : CommandWord.Statement .flatrx := by unfold CommandWord.Statement; decide
theorem CommandWord.trunc : CommandWord.Statement .trunc := by unfold CommandWord.Statement; decide
theorem CommandWord.demap : CommandWord.Statement .demap := by unfold CommandWord.Statement; decide
theorem CommandWord.repack : CommandWord.Statement .repack := by unfold CommandWord.Statement; decide
theorem CommandWord.sweep : CommandWord.Statement .sweep := by unfold CommandWord.Statement; decide

end Sys2Proof.Laws
end

