-- ==== Sys2Proof/Tests/Slice0.lean ====
section
/-! SUPPORT. Tests of the model, each of one step or one function. Expected values come from spec/: the worked examples
of the command rules and the vectors V1 to V97 and programs P1 to P8 of 95_test_vectors. After them, for every
obligation with hypotheses, states and operands that meet them together (`witness_...`). -/

namespace Sys2Proof.Tests

open Sys2Proof Sys2Proof.Machine

-- One test at a time: a test that the kernel evaluates waits for all before it, and a hundred waiting at once take too
-- many threads.
set_option Elab.async false

/-- The complex number with rational parts. -/
def cx (a b : Rat) : Cplx := Cplx.ofRats a b

/-- The state an outcome leads to, if it is one. -/
def nextOf (o : Host.Outcome State Fault Refusal) : Option State :=
  match o with
  | .next s => some s
  | .fault _ => none
  | .refused _ => none

/-- The refusal an outcome is, if it is one. -/
def refusalOf (o : Host.Outcome State Fault Refusal) : Option Refusal :=
  match o with
  | .next _ => none
  | .fault _ => none
  | .refused r => some r

/-- The configuration of the source's scenario: `N = 4`, `cp_len = 2`, `M = 16` (V1). -/
def scenario : State := { State.reset with cfgN := 4, cfgCp := 2, cfgM := 16 }

/-- The waveform of the source's scenario (V1). -/
def wave1 : List Cplx := [cx 0 0, cx (-15 / 2) (15 / 2), cx 14 (-1), cx (-15 / 2) (-15 / 2), cx 0 0, cx (-15 / 2) (15 / 2)]

/-- The noise of programs P3 and of V71, trial 1. -/
def noise10 : List Cplx := [cx 0 0, cx 0 0, cx 10 0, cx 0 0, cx 0 0, cx 0 0]

/-! ## Well-formedness -/

/-- 30_encoding R83: 0x10 is not in the opcode map. -/
theorem test_word_ill_formed : wordWellFormed 0x10#8 = false := by decide

/-- 10_state R31: a Grid of 2 rows and 1 column holds two elements, not one. -/
theorem test_grid_ill_formed : Grid.wellFormed ⟨2, 1, [Cplx.zero]⟩ = false := by decide

/-- A product whose angle is a third of a turn is not in normal form. -/
theorem test_mono_ill_formed : Mono.inForm ⟨1 / 3, 0, []⟩ = false := by decide +kernel

/-- A Real with a zero term is not in normal form. -/
theorem test_num_ill_formed : Num.inForm ⟨[(Mono.one, 0)]⟩ = false := by decide +kernel

/-- A sweep table that lists an entry equal to the unlisted one is not in canonical form. -/
theorem test_table_ill_formed : sweepTableWf [(0, SweepEntry.unlisted)] = false := by decide

/-- A sweep table whose indices do not rise is not in canonical form. -/
theorem test_table_unsorted_ill_formed :
    sweepTableWf [(1, ⟨.rat 5, ⟨false, 0⟩⟩), (0, ⟨.rat 7, ⟨false, 0⟩⟩)] = false := by decide +kernel

/-! ## Decoding: each word written out from the encoding column of 30_encoding R82 -/

theorem test_decode_nop : decode 0b00000000#8 = .ok .nop := by decide
theorem test_decode_b2b : decode 0b00000001#8 = .ok .b2b := by decide
theorem test_decode_pad : decode 0b00000010#8 = .ok .pad := by decide
theorem test_decode_group : decode 0b00000011#8 = .ok .group := by decide
theorem test_decode_map : decode 0b00000100#8 = .ok .map := by decide
theorem test_decode_grid : decode 0b00000101#8 = .ok .grid := by decide
theorem test_decode_totime : decode 0b00000110#8 = .ok .totime := by decide
theorem test_decode_flattx : decode 0b00000111#8 = .ok .flattx := by decide
theorem test_decode_chan : decode 0b00001000#8 = .ok .chan := by decide
theorem test_decode_toblk : decode 0b00001001#8 = .ok .toblk := by decide
theorem test_decode_tofreq : decode 0b00001010#8 = .ok .tofreq := by decide
theorem test_decode_flatrx : decode 0b00001011#8 = .ok .flatrx := by decide
theorem test_decode_trunc : decode 0b00001100#8 = .ok .trunc := by decide
theorem test_decode_demap : decode 0b00001101#8 = .ok .demap := by decide
theorem test_decode_repack : decode 0b00001110#8 = .ok .repack := by decide
theorem test_decode_sweep : decode 0b00001111#8 = .ok .sweep := by decide

/-- 30_encoding R83. -/
theorem test_decode_illegal : decode 0xFF#8 = .error (.illegalCommand 0xFF#8) := by decide

/-- A command is one byte; the bytes after it are left (30_encoding R84). -/
theorem test_decode_bytes : decodeBytes [0x01#8, 0x02#8] = .ok (.b2b, [0x02#8]) := by decide

/-- No byte, no command. -/
theorem test_decode_no_byte : decodeBytes [] = .error .noWord := by decide

/-- 30_encoding R86: `TXALL` is the words 01 to 07 (program P1). -/
theorem test_txall_words : Pseudo.txall.expand.map encode = [1#8, 2#8, 3#8, 4#8, 5#8, 6#8, 7#8] := by decide

/-- 30_encoding R85: a command is its mnemonic, in capitals. -/
theorem test_mnemonic : commandOfText "SWEEP" = some .sweep ∧ commandOfText "sweep" = none := by decide +kernel

/-- 30_encoding R85: `.cfg NOM_SEED = 3`, `.expect` and a command, as host actions. -/
theorem test_assemble : registerOfText "NOM_SEED" = some 7 ∧
    assemble [.directive (.writeReg 7 (.seed (seedOfValue (some 3)))), .expect, .command .chan] =
      [.writeReg 7 (.seed ⟨true, 3⟩), .issue 0x08#8] := by decide +kernel

/-- 30_encoding R85: `.noise` values, one of them irrational. -/
theorem test_noise_values : noiseOfValues [(.rat 10, .rat 0), (.irr 2, .rat 1)] =
    .samples [cx 10 0, ⟨⟨[(⟨0, 0, [.host 2]⟩, 1)]⟩, Num.ofRat 1⟩] := by decide +kernel

/-! ## BitFramer -/

/-- V10. -/
theorem test_b2b : (nextOf (exec .b2b { scenario with inbuf := some [0xA5#8] })).bind (·.bits) =
    some [true, false, true, false, false, true, false, true] := by decide +kernel

/-- V17: the empty payload is legal and leaves `BITS` valid. -/
theorem test_b2b_empty : (nextOf (exec .b2b { scenario with inbuf := some [] })).bind (·.bits) = some [] := by
  decide +kernel

/-- V11: `k = 3`, one zero appended. -/
theorem test_pad : (nextOf (exec .pad { scenario with
      cfgM := 8, bits := some [true, false, true, false, false, true, false, true] })).bind (·.pbits) =
    some [true, false, true, false, false, true, false, true, false] := by decide +kernel

/-- V19 and P7: `M = 12` is no power of two; `STATUS = 0x0201`. -/
theorem test_pad_config : (nextOf (exec .pad { scenario with cfgM := 12, bits := some [true] })).map (·.status) =
    some 0x0201#16 := by decide +kernel

/-- V13. -/
theorem test_group : (nextOf (exec .group { scenario with
      cfgM := 8, pbits := some [true, false, true, false, false, true, false, true, false] })).bind (·.idx) =
    some [5, 1, 2] := by decide +kernel

/-- 40_bitframer R102: a length that is no multiple of the current `k` raises `E_SHAPE`, and `IDX` becomes invalid. -/
theorem test_group_shape : (nextOf (exec .group { scenario with
      cfgM := 8, pbits := some [true, false], idx := some [1] })).map (fun t => (t.status, t.idx)) =
    some (0x0302#16, none) := by decide +kernel

/-! ## SymbolMapper -/

/-- V20. -/
theorem test_map : (nextOf (exec .map { scenario with idx := some [0, 1, 2, 15] })).bind (·.sym) =
    some [cx (-1) (-1), cx 1 (-1), cx 3 (-1), cx 29 (-1)] := by decide +kernel

/-- V22, V23, V24, V26. -/
theorem test_demap : (nextOf (exec .demap { scenario with
      rxsym := some [cx (143 / 5) (-7 / 10), cx (-2 / 5) (2 / 5), cx (49 / 100) (-51 / 100), cx (-36 / 5) (5001 / 5)] })).bind
      (·.rxint) =
    some [⟨.lit 29, .lit (-1)⟩, ⟨.lit 0, .lit 0⟩, ⟨.lit 0, .lit (-1)⟩, ⟨.lit (-7), .lit 1000⟩] := by decide +kernel

/-- V25: an exact half is not decided here, it is the rounding of 5/2 under the open `ROUND_TIE`. -/
theorem test_demap_tie : (nextOf (exec .demap { scenario with rxsym := some [cx (5 / 2) 1] })).bind (·.rxint) =
    some [⟨.round (Num.ofRat (5 / 2)), .lit 1⟩] := by decide +kernel

/-! ## Complex arithmetic and transforms -/

/-- 42_cmac_dft R141: `csub`. -/
theorem test_csub : Cplx.sub (cx 1 2) (cx 3 (-1)) = cx (-2) 3 := by decide +kernel

/-- V30. -/
theorem test_cmul : Cplx.mul (cx 1 2) (cx 3 (-1)) = cx 5 5 := by decide +kernel

/-- V31. -/
theorem test_cmac : Cplx.mac (cx 1 1) (cx 0 1) (cx 0 1) = cx 0 1 := by decide +kernel

/-- V33. -/
theorem test_idft_2 : idft 2 [cx 9 (-1), cx 1 (-1)] = [cx 5 (-1), cx 4 0] := by decide +kernel

/-- V38: `N = 3` is legal. -/
theorem test_idft_3 : idft 3 [cx 1 (-1), cx 1 (-1), cx 1 (-1)] = [cx 1 (-1), cx 0 0, cx 0 0] := by decide +kernel

/-- V39: it tells the sign of the exponent. -/
theorem test_idft_4 : idft 4 [cx 1 (-1), cx 1 (-1), cx 0 0, cx 0 0] =
    [cx (1 / 2) (-1 / 2), cx (1 / 2) 0, cx 0 0, cx 0 (-1 / 2)] := by decide +kernel

/-- V36. -/
theorem test_dft_4 : dft 4 [cx 14 (-1), cx (-15 / 2) (-15 / 2), cx 0 0, cx (-15 / 2) (15 / 2)] =
    [cx (-1) (-1), cx (-1) (-1), cx 29 (-1), cx 29 (-1)] := by decide +kernel

/-- 42_cmac_dft R147 at `N = 8`, where the twiddle factors are irrational. -/
theorem test_inverse_8 : dft 8 (idft 8 ((List.range 8).map fun i => cx i (-1))) = (List.range 8).map fun i => cx i (-1) := by
  decide +kernel

/-! ## OFDMFramer -/

/-- V40. -/
theorem test_grid : (nextOf (exec .grid { scenario with
      sym := some [cx 1 (-1), cx 3 (-1), cx 5 (-1), cx 7 (-1), cx 9 (-1), cx 29 (-1)] })).bind (·.txgrid) =
    some ⟨4, 2, [cx 1 (-1), cx 3 (-1), cx 5 (-1), cx 7 (-1), cx 9 (-1), cx 29 (-1), cx 0 0, cx 0 0]⟩ := by
  decide +kernel

/-- V48: `cp_len < N` is false. -/
theorem test_grid_config : (nextOf (exec .grid { scenario with cfgCp := 4, sym := some [] })).map (·.status) =
    some 0x0501#16 := by decide +kernel

/-- V41. -/
theorem test_totime : (nextOf (exec .totime { scenario with
      cfgCp := 1
      txgrid := some ⟨4, 2, [cx 1 (-1), cx 3 (-1), cx 5 (-1), cx 7 (-1), cx 9 (-1), cx 29 (-1), cx 0 0, cx 0 0]⟩ })).bind
      (·.txblk) =
    some ⟨5, 2, [cx (-1) 1, cx 4 (-1), cx (-1) (-1), cx (-1) 0, cx (-1) 1,
      cx 2 (-15 / 2), cx (19 / 2) (-1 / 2), cx (5 / 2) 7, cx (-5) 0, cx 2 (-15 / 2)]⟩ := by decide +kernel

/-- 43_ofdm_framer R161: a grid built with another `N` raises `E_SHAPE`. -/
theorem test_totime_shape : (nextOf (exec .totime { scenario with txgrid := some ⟨5, 0, []⟩ })).map (·.status) =
    some 0x0602#16 := by decide +kernel

/-- V42 and the example of 43_ofdm_framer R162. -/
theorem test_flattx : (nextOf (exec .flattx { scenario with txblk := some ⟨6, 1, wave1⟩ })).bind (·.txwave) =
    some wave1 := by decide +kernel

/-! ## ChannelModel -/

/-- The example of 44_channel R180: 20 dB, one sample of noise 10. -/
theorem test_chan : (nextOf (exec .chan { scenario with
      cfgSnrNom := .rat 20, txwave := some wave1, noiseScript := [.samples noise10] })).bind (·.rxwave) =
    some [cx 0 0, cx (-15 / 2) (15 / 2), cx 15 (-1), cx (-15 / 2) (-15 / 2), cx 0 0, cx (-15 / 2) (15 / 2)] := by
  decide +kernel

/-- 44_channel R182, R183: an unseeded use at 0 dB adds two free draws, each over √2. -/
theorem test_chan_free : (nextOf (exec .chan { scenario with txwave := some [cx 0 0], freeIdx := 7 })).map
      (fun t => (t.rxwave, t.freeIdx)) =
    some (some [⟨⟨[(⟨1 / 8, 0, [.free 7]⟩, 1)]⟩, ⟨[(⟨1 / 8, 0, [.free 8]⟩, 1)]⟩⟩], 9) := by decide +kernel

/-- V52: −20 dB. -/
theorem test_channel_minus20 : channel Config.num [cx 0 0] (.rat (-20)) [cx (1 / 2) (1 / 2)] = [cx 5 5] := by decide +kernel

/-- 44_channel R181 at an irrational SNR `x`: the noise is scaled by the root of `10^(−x/10)`, by name. -/
theorem test_channel_irrational : channel Config.num [cx 1 0] (.irr 3) [cx 2 0] =
    [⟨⟨[(Mono.one, 1), (⟨0, 0, [.sqrt (Num.ofFactor (.pow10 (Num.toFactor ⟨[(⟨0, 0, [.host 3]⟩, -1 / 10)]⟩))).toFactor]⟩,
      2)]⟩, Num.zero⟩] := by decide +kernel

/-- 44_channel R181 at 20 dB and 10 dB: 1/10 and `10^(1/2)/10`. -/
theorem test_sigma : sigma Config.num (.rat 20) = Num.ofRat (1 / 10) ∧
    sigma Config.num (.rat 10) = ⟨[(⟨0, 1 / 2, []⟩, 1 / 10)]⟩ := by decide +kernel

/-- `sqrt(1/2) = cos(45°)`, `sqrt(4/9) = 2/3`; `sqrt(3)` by name, and `sqrt(−4)`, of which the spec states no value. -/
theorem test_sqrt : Num.sqrt (Num.ofRat (1 / 2)) = ⟨[(⟨1 / 8, 0, []⟩, 1)]⟩ ∧
    Num.sqrt (Num.ofRat (4 / 9)) = Num.ofRat (2 / 3) ∧
    Num.sqrt (Num.ofRat 3) = Num.ofFactor (.sqrt (Num.ofRat 3).toFactor) ∧
    Num.sqrt (Num.ofRat (-4)) = Num.ofFactor (.sqrt (Num.ofRat (-4)).toFactor) := by decide +kernel

/-! ## OFDMDeframer -/

/-- V60. -/
theorem test_toblk : (nextOf (exec .toblk { scenario with
      rxwave := some [cx 0 0, cx (-15 / 2) (15 / 2), cx 15 (-1), cx (-15 / 2) (-15 / 2), cx 0 0, cx (-15 / 2) (15 / 2)] })).bind
      (·.rxblk) =
    some ⟨4, 1, [cx 15 (-1), cx (-15 / 2) (-15 / 2), cx 0 0, cx (-15 / 2) (15 / 2)]⟩ := by decide +kernel

/-- P6: `6 mod 5 ≠ 0`; `STATUS = 0x0902` and `RXBLK` invalid. -/
theorem test_toblk_shape : (nextOf (exec .toblk { scenario with cfgCp := 1, rxwave := some wave1 })).map
      (fun t => (t.status, t.rxblk)) = some (0x0902#16, none) := by decide +kernel

/-- V61. -/
theorem test_tofreq : (nextOf (exec .tofreq { scenario with
      rxblk := some ⟨4, 1, [cx 15 (-1), cx (-15 / 2) (-15 / 2), cx 0 0, cx (-15 / 2) (15 / 2)]⟩ })).bind (·.rxgrid) =
    some ⟨4, 1, [cx 0 (-1), cx 0 (-1), cx 30 (-1), cx 30 (-1)]⟩ := by decide +kernel

/-- V66. -/
theorem test_tofreq_shape : (nextOf (exec .tofreq { scenario with
      cfgN := 5, cfgCp := 1, rxblk := some ⟨4, 0, []⟩ })).map (·.status) = some 0x0A02#16 := by decide +kernel

/-- V62. -/
theorem test_flatrx : (nextOf (exec .flatrx { scenario with
      rxgrid := some ⟨4, 1, [cx 0 (-1), cx 0 (-1), cx 30 (-1), cx 30 (-1)]⟩ })).bind (·.rxflat) =
    some [cx 0 (-1), cx 0 (-1), cx 30 (-1), cx 30 (-1)] := by decide +kernel

/-- V63, with two symbols of four kept. -/
theorem test_trunc : (nextOf (exec .trunc { scenario with
      rxflat := some [cx 1 0, cx 2 0, cx 3 0, cx 4 0], idx := some [0, 0] })).bind (·.rxsym) =
    some [cx 1 0, cx 2 0] := by decide +kernel

/-- V64. -/
theorem test_trunc_shape : (nextOf (exec .trunc { scenario with rxflat := some [cx 1 0], idx := some [0, 0] })).map
    (·.status) = some 0x0C02#16 := by decide +kernel

/-! ## Output -/

/-- V81. -/
theorem test_repack : (nextOf (exec .repack { scenario with
      bits := some (List.replicate 24 false)
      rxint := some ([1, 3, 5, 7, 5, 25].map fun z => ⟨.lit z, .lit (-1)⟩) })).bind (·.outbuf) =
    some [.lit 0x01#8, .lit 0x03#8, .lit 0x05#8] := by decide +kernel

/-- V82: the byte of −1 is unspecified. -/
theorem test_repack_free : (nextOf (exec .repack { scenario with
      bits := some (List.replicate 16 false)
      rxint := some ([-1, -1, 29, 29].map fun z => ⟨.lit z, .lit (-1)⟩) })).bind (·.outbuf) =
    some [.ofInt (.lit (-1)), .ofInt (.lit (-1))] := by decide +kernel

/-- V95. -/
theorem test_nop : nextOf (exec .nop State.reset) = some State.reset := by decide +kernel

/-! ## SweepEvaluator -/

/-- P3 and V71: zero noise in trial 0, noise 10 in trial 1. -/
theorem test_sweep : (nextOf (exec .sweep { scenario with
      idx := some [0, 0, 15, 15], txwave := some wave1, cfgSweepLen := 2
      sweepTable := [(1, ⟨.rat 20, ⟨false, 0⟩⟩)], noiseScript := [.zeros, .samples noise10] })).bind (·.result) =
    some [(.rat 0, .known 1), (.rat 20, .known (1 / 2))] := by decide +kernel

/-- V74: a repeated SNR value. -/
theorem test_sweep_repeated : (nextOf (exec .sweep { scenario with
      idx := some [], txwave := some [], cfgSweepLen := 2
      sweepTable := [(0, ⟨.rat 3, ⟨false, 0⟩⟩), (1, ⟨.rat 3, ⟨false, 0⟩⟩)] })).map (·.status) = some 0x0F01#16 := by
  decide +kernel

/-- 10_state R26 with irrational SNR values: two different ones are distinct keys, one given twice is not. -/
theorem test_sweep_irrational :
    ({ scenario with cfgSweepLen := 2, sweepTable := [(0, ⟨.irr 0, ⟨false, 0⟩⟩), (1, ⟨.irr 1, ⟨false, 0⟩⟩)] } : State).okSweep
      = true ∧
    ({ scenario with cfgSweepLen := 2, sweepTable := [(0, ⟨.irr 5, ⟨false, 0⟩⟩), (1, ⟨.irr 5, ⟨false, 0⟩⟩)] } : State).okSweep
      = false := by decide +kernel

/-! ## Faults, reset and the host -/

/-- V96: configuration is tested before sequence. -/
theorem test_order_config_first : (nextOf (exec .group { scenario with cfgM := 12 })).map (·.status) =
    some 0x0301#16 := by decide +kernel

/-- V97: sequence is tested before shape. -/
theorem test_order_sequence_first : (nextOf (exec .sweep { scenario with
      txwave := some (List.replicate 7 Cplx.zero) })).map (·.status) = some 0x0F03#16 := by decide +kernel

/-- V90: `GROUP` after reset with a legal `M`. -/
theorem test_step_group : (nextOf (step ({ State.reset with cfgM := 16 }.withFetchWord 8 0x03))).map (·.status) =
    some 0x0303#16 := by decide +kernel

/-- V91. -/
theorem test_step_illegal : (nextOf (step (scenario.withFetchWord 8 0x10))).map (·.status) = some 0x1004#16 := by
  decide +kernel

/-- V93: a faulted core accepts no command. -/
theorem test_step_faulted : nextOf (step ({ scenario with status := 0x0303#16 }.withFetchWord 8 0x01)) =
    some { scenario with status := 0x0303#16 } := by decide +kernel

/-- V94: only reset clears the fault. -/
theorem test_step_reset : (nextOf (step { scenario with status := 0x0303#16, pending := [.reset] })).map
      (fun t => (t.status, t.validWord)) = some (0#16, 0#16) := by decide +kernel

/-- P5: `VALID = 0x0003` when `INBUF` and `BITS` are valid. -/
theorem test_valid_word : ({ scenario with inbuf := some [0xA5#8], bits := some [] } : State).validWord = 0x0003#16 := by
  decide +kernel

/-- 60_exceptions R280: a configuration write, then a read of the register, sees the value. -/
theorem test_write_read : (nextOf (hostWriteReg Config.limits 2 (.nat 4) State.reset)).map (fun t => readRegister t 2) =
    some (some (.nat 4)) := by decide +kernel

/-- 60_exceptions R280: the host cannot write `STATUS`. -/
theorem test_write_status : refusalOf (hostWriteReg Config.limits 8 (.word 0) State.reset) = some (.registerNotWritable 8) := by
  decide +kernel

/-- 20_memory R61: a read of a buffer that is not valid has no meaning. -/
theorem test_read_invalid : refusalOf (hostReadBuf .outbuf 0 State.reset) = some (.bufferNotValid .outbuf) := by
  decide +kernel

/-- 10_state R22, 93 U9: a payload of two bytes exceeds a capacity of one element; a register of 4 bits holds 15, not
16; a sweep table of two entries has no entry 2. -/
theorem test_limits :
    refusalOf (hostLoadInbuf ⟨none, some 1, none⟩ [0#8, 0#8] State.reset) = some (.beyondCapacity .inbuf) ∧
    refusalOf (hostWriteReg ⟨some 4, none, none⟩ 4 (.nat 16) State.reset) = some (.beyondWidth 16) ∧
    refusalOf (hostWriteReg ⟨some 4, none, none⟩ 4 (.nat 15) State.reset) = none ∧
    refusalOf (hostReadSweep ⟨none, none, some 2⟩ 2 State.reset) = some (.beyondSweepTable 2) := by decide +kernel

/-- 10_state R22: a command whose destination would exceed the capacity is refused, one that fits runs. -/
theorem test_limit_command :
    refusalOf (runCommandWithin ⟨none, some 7, none⟩ .b2b b2bBody { scenario with inbuf := some [0xA5#8] }) =
      some (.beyondCapacity .bits) ∧
    refusalOf (runCommandWithin ⟨none, some 8, none⟩ .b2b b2bBody { scenario with inbuf := some [0xA5#8] }) = none := by
  decide +kernel

/-- 30_encoding R80, R82: bit 0 of the table is the least significant bit of the word. -/
theorem test_table_word : decodeTableWord 8 0x0F = some .sweep := by decide

/-! ## Witnesses: the hypotheses of the obligations are met together -/

/-- A core on which every command but `PAD` and `GROUP` at another `M` succeeds: every buffer valid, geometry
`N = 4`, `cp_len = 2`. -/
def loaded : State := { scenario with
  inbuf := some [0x00#8, 0xFF#8], bits := some (List.replicate 16 true), pbits := some (List.replicate 16 true)
  idx := some [0, 0, 15, 15], sym := some [cx 1 0], txgrid := some ⟨4, 1, List.replicate 4 Cplx.zero⟩
  txblk := some ⟨6, 1, wave1⟩, txwave := some wave1, rxwave := some wave1
  rxblk := some ⟨4, 1, List.replicate 4 Cplx.zero⟩, rxgrid := some ⟨4, 1, List.replicate 4 Cplx.zero⟩
  rxflat := some [cx 0 1, cx 0 2, cx 0 3, cx 0 4, cx 0 5], rxsym := some [cx 0 1]
  rxint := some [⟨.lit 255, .lit 0⟩, ⟨.lit 0, .lit 0⟩], outbuf := some [], result := some []
  cfgSweepLen := 2, sweepTable := [(1, ⟨.rat 20, ⟨true, 7⟩⟩)] }

/-- A faulted core. -/
def stuck : State := { loaded with status := 0x0303#16 }

theorem witness_DecodeEncodeAgree : decode 0x0F#8 = .ok .sweep := by decide

theorem witness_IllegalWordFaults : ∀ w ∈ [0x10#8, 0xFF#8],
    0x10 ≤ w.toNat ∧ ({ loaded with pending := [.issue w] } : State).faulted = false := by decide

theorem witness_StepIssuesDecodedCommand :
    ({ loaded with pending := [.issue 0x0F#8] } : State).pending = .issue 0x0F#8 :: [] ∧ decode 0x0F#8 = .ok .sweep := by
  decide

theorem witness_ResetIsTheOnlyWayOutOfAFault_reset :
    ({ stuck with pending := [.reset] } : State).pending = .reset :: [] := rfl

theorem witness_ResetIsTheOnlyWayOutOfAFault_stays :
    ∃ s t : State, s.faulted = true ∧ (∀ rest, s.pending ≠ .reset :: rest) ∧ step s = .next t :=
  ⟨{ stuck with pending := [.issue 0x01#8] }, stuck, by decide, by simp, rfl⟩

theorem witness_IdleCoreWaits : State.reset.pending = [] := rfl

theorem witness_FaultedCoreIsStuck : ∀ a ∈ [HostAction.reset, .writeReg 2 (.nat 4), .writeSweep 0 .unlisted, .readReg 9,
      .readSweep 0, .loadInbuf [], .readBuf .idx 3, .readLen .txgrid, .issue 0x01#8, .noise .zeros],
    ({ stuck with pending := [a] } : State).faulted = true := by decide

theorem witness_FaultedCoreIsStuck_reads : (bufferElems stuck .idx).map (·[3]?) = some (some (.index 15)) ∧
    stuck.valid .txgrid = true := by decide

theorem witness_FaultedCoreRunsNoCommand : stuck.faulted = true := by decide

theorem witness_FirstFailingTestDecides_decode : ∀ i, decode 0x10#8 ≠ .ok i := by intro i; cases i <;> decide

theorem witness_FirstFailingTestDecides : loaded.faulted = false ∧
    configTest .pad { loaded with cfgM := 1 } = false ∧
    (configTest .pad { loaded with bits := none } = true ∧ sequenceTest .pad { loaded with bits := none } = false) ∧
    (configTest .trunc { loaded with rxflat := some [] } = true ∧
      sequenceTest .trunc { loaded with rxflat := some [] } = true ∧
      shapeTest .trunc { loaded with rxflat := some [] } = false) ∧
    (configTest .sweep loaded = true ∧ sequenceTest .sweep loaded = true ∧ shapeTest .sweep loaded = true) := by
  decide +kernel

theorem witness_CommandFrame : ∃ t, exec .flattx loaded = .next t ∧ t.faulted = false ∧ BufId.idx ∉ destinations .flattx :=
  ⟨_, rfl, by decide +kernel, by decide⟩

theorem witness_CommandsAreRepeatable : loaded.faulted = false ∧ ({ loaded with idx := none } : State).faulted = false ∧
    sameConfig loaded { loaded with idx := none } ∧ ∀ b ∈ sources .flattx, sameBuffer loaded { loaded with idx := none } b := by
  refine ⟨by decide, by decide, ⟨rfl, rfl, rfl, rfl, rfl, rfl, rfl, rfl, rfl⟩, fun b hb => ?_⟩
  obtain rfl := List.mem_singleton.mp hb
  exact rfl

theorem witness_ReadsAnswerTheRegisters : ∀ a ∈ [HostAction.readReg 0, .readReg 8, .readReg 9, .readSweep 1],
    ({ loaded with pending := [a] } : State).pending = a :: [] := by simp

theorem witness_StepKeepsInvariant : ∃ s t, invariant s = true ∧ step s = .next t :=
  ⟨{ loaded with pending := [.issue 0x06#8] }, _, by decide +kernel, rfl⟩

theorem witness_StepKeepsNumbersInForm : ∃ s t, numbersInForm s = true ∧ step s = .next t :=
  ⟨{ loaded with pending := [.issue 0x06#8] }, _, by decide +kernel, rfl⟩

/-- The clause `E_SEQ` of every command with sources: not faulted, a legal configuration, no buffer valid. -/
theorem witness_every_command_invalid_source : scenario.faulted = false ∧
    (1 ≤ scenario.cfgN ∧ scenario.cfgCp < scenario.cfgN) ∧ scenario.cfgM = 2 ^ 4 ∧ scenario.okSweep = true ∧
    scenario.validWord = 0 := by decide +kernel

/-- The clause `E_CONFIG` of `GRID`, `TOTIME`, `TOBLK`, `TOFREQ`, `SWEEP` at its two boundaries. -/
theorem witness_geometry_illegal :
    ¬(1 ≤ ({ loaded with cfgN := 0, cfgCp := 0 } : State).cfgN ∧ 0 < ({ loaded with cfgN := 0, cfgCp := 0 } : State).cfgN) ∧
    ¬(1 ≤ ({ loaded with cfgCp := 4 } : State).cfgN ∧
      ({ loaded with cfgCp := 4 } : State).cfgCp < ({ loaded with cfgCp := 4 } : State).cfgN) := by decide

/-- The clause `E_CONFIG` of `PAD` and `GROUP` at `M = 0`, `M = 1` and `M = 12`. -/
theorem witness_constellation_illegal : ∀ m ∈ [0, 1, 12], ¬∃ k, 1 ≤ k ∧ 2 ^ k = ({ loaded with cfgM := m } : State).cfgM := by
  intro m hm
  rw [← okM_iff]
  revert m
  decide

theorem witness_B2bUnpacksBitSevenFirst : loaded.faulted = false ∧ loaded.inbuf = some [0x00#8, 0xFF#8] ∧ 1 < 2 ∧ 7 < 8 := by
  decide

/-- `M = 2`: `k = 1`, no padding; `M = 8`: `k = 3`, 16 bits are padded. -/
theorem witness_PadAppendsZerosAtTail : loaded.bits.map List.length = some 16 ∧
    (2 ^ 1 = ({ loaded with cfgM := 2 } : State).cfgM ∧ 16 % 1 = 0) ∧
    (2 ^ 3 = ({ loaded with cfgM := 8 } : State).cfgM ∧ 16 % 3 ≠ 0) := by decide

theorem witness_GroupReadsUnsignedIntegers : loaded.pbits.map List.length = some 16 ∧
    (2 ^ 1 = ({ loaded with cfgM := 2 } : State).cfgM ∧ 16 % 1 = 0 ∧ 15 < 16 / 1) ∧
    (2 ^ 3 = ({ loaded with cfgM := 8 } : State).cfgM ∧ 16 % 3 ≠ 0) := by decide

theorem witness_PaddedLengthIsSmallestMultiple : loaded.faulted = false ∧ loaded.inbuf = some [0x00#8, 0xFF#8] ∧
    1 ≤ 4 ∧ 2 ^ 4 = loaded.cfgM := by decide

theorem witness_MapIsTwiceIndexMinusOne : loaded.faulted = false ∧ loaded.idx = some [0, 0, 15, 15] := by decide

theorem witness_DemapRoundsBothParts : loaded.faulted = false ∧ loaded.rxsym = some [cx 0 1] ∧
    [demapSymbol Config.num (cx 0 1)][0]? = some ⟨.lit 0, .lit 1⟩ ∧ [cx 0 1][0]? = some (cx 0 1) := by decide +kernel

theorem witness_DemapIsNotTheInverseOfMap : ∃ t, loaded.faulted = false ∧ loaded.idx = some [0, 0, 15, 15] ∧
    exec .map loaded = .next t := ⟨_, by decide, rfl, rfl⟩

theorem witness_ForwardTransformFormula : 1 ≤ 1 ∧ [cx 1 2].length = 1 ∧ 0 < 1 := by decide

theorem witness_InverseTransformFormula : 1 ≤ 2 ∧ [cx 1 2, cx 3 4].length = 2 ∧ 1 < 2 := by decide

theorem witness_TransformsAreInverse : 1 ≤ 3 ∧ [cx 1 2, cx 3 4, cx 5 6].length = 3 := by decide

theorem witness_TransformsAreLinear : 1 ≤ 2 ∧ [cx 1 2, cx 3 4].length = 2 ∧ [cx 5 6, cx 7 8].length = 2 ∧ 1 < 2 := by
  decide

theorem witness_ColumnsAreIndependent : ∃ g h : Grid, 2 ≤ 4 ∧ 1 < g.cols ∧ 1 < h.cols ∧ g.col 1 = h.col 1 ∧ g ≠ h :=
  ⟨⟨1, 2, [cx 1 0, cx 3 0]⟩, ⟨1, 2, [cx 2 0, cx 3 0]⟩, by decide +kernel⟩

theorem witness_ColumnsAreIndependent_none : Grid.cols ⟨4, 0, []⟩ = 0 := rfl

theorem witness_GridPadsWithComplexZero : loaded.faulted = false ∧ (1 ≤ loaded.cfgN ∧ loaded.cfgCp < loaded.cfgN) ∧
    loaded.sym = some [cx 1 0] := by decide +kernel

/-- `TOTIME` and `TOFREQ`: a Grid in form with the current number of rows, and one with another number. -/
theorem witness_TotimeTransformsAndPrefixes : loaded.faulted = false ∧ (1 ≤ loaded.cfgN ∧ loaded.cfgCp < loaded.cfgN) ∧
    loaded.txgrid = loaded.rxblk ∧ loaded.txgrid.map Grid.wellFormed = some true ∧
    loaded.txgrid.map Grid.rows = some loaded.cfgN ∧
    loaded.txgrid.map Grid.rows ≠ some ({ loaded with cfgN := 5 } : State).cfgN := by decide +kernel

theorem witness_TofreqTransformsColumns : loaded.rxblk.map Grid.wellFormed = some true ∧
    loaded.rxblk.map Grid.rows = some loaded.cfgN ∧
    loaded.rxblk.map Grid.rows ≠ some ({ loaded with cfgN := 3 } : State).cfgN := by decide +kernel

theorem witness_FlattxConcatenatesBlocks : loaded.faulted = false ∧ loaded.txblk = some ⟨6, 1, wave1⟩ ∧
    Grid.wellFormed ⟨6, 1, wave1⟩ = true := by decide +kernel

theorem witness_FlatrxReadsColumnsInOrder : loaded.faulted = false ∧
    loaded.rxgrid.map Grid.wellFormed = some true := by decide +kernel

/-- `CHAN` seeded, and unseeded with no script. -/
theorem witness_ChanAddsScaledNoise : loaded.faulted = false ∧ loaded.txwave = some wave1 ∧
    ({ loaded with nomSeed := ⟨true, 0⟩ } : State).nomSeed.en = true ∧
    loaded.nomSeed.en = false ∧ loaded.noiseScript = [] := by decide +kernel

theorem witness_ChanUsesNoiseScript : ∀ sc ∈ [NoiseScript.zeros, .samples noise10],
    ({ loaded with noiseScript := [sc] } : State).faulted = false ∧ loaded.nomSeed.en = false ∧
    loaded.txwave = some wave1 ∧ ({ loaded with noiseScript := [sc] } : State).noiseScript = sc :: [] := by decide +kernel

theorem witness_SeededChanIsRepeatable : ∃ s s' : State, s.faulted = false ∧ s'.faulted = false ∧ s.txwave = some wave1 ∧
    s'.txwave = some wave1 ∧ s.cfgSnrNom = s'.cfgSnrNom ∧ s.nomSeed = s'.nomSeed ∧ s.nomSeed.en = true ∧ s ≠ s' :=
  ⟨{ loaded with nomSeed := ⟨true, 3⟩ }, { loaded with nomSeed := ⟨true, 3⟩, idx := none }, by decide +kernel⟩

/-- Six samples: a whole number of blocks of 6, and not of 5. -/
theorem witness_ToblkStripsThePrefix : loaded.faulted = false ∧ loaded.rxwave = some wave1 ∧
    wave1.length % (loaded.cfgN + loaded.cfgCp) = 0 ∧
    wave1.length % (({ loaded with cfgCp := 1 } : State).cfgN + ({ loaded with cfgCp := 1 } : State).cfgCp) ≠ 0 := by
  decide +kernel

theorem witness_TruncKeepsOriginalCount : loaded.faulted = false ∧ loaded.idx.map List.length = some 4 ∧
    loaded.rxflat.map List.length = some 5 ∧
    ({ loaded with rxflat := some [cx 0 0, cx 0 0, cx 0 0] } : State).rxflat.map List.length = some 3 := by
  decide +kernel

theorem witness_ZeroNoiseRoundTrip : ∃ g, loaded.faulted = false ∧ 1 ≤ loaded.cfgN ∧ loaded.cfgCp < loaded.cfgN ∧
    loaded.txgrid = some g ∧ g.rows = loaded.cfgN ∧ g.wellFormed = true :=
  ⟨⟨4, 1, List.replicate 4 Cplx.zero⟩, by decide +kernel⟩

theorem witness_SweepMeasuresEveryTrial : loaded.faulted = false ∧
    (1 ≤ loaded.cfgN ∧ loaded.cfgCp < loaded.cfgN ∧ ∀ t u, t < u → u < loaded.cfgSweepLen →
      (sweepRead loaded.sweepTable t).snr.val ≠ (sweepRead loaded.sweepTable u).snr.val) ∧
    loaded.idx = some [0, 0, 15, 15] ∧ loaded.txwave = some wave1 ∧ wave1.length % (4 + 2) = 0 ∧
    4 ≤ wave1.length / (4 + 2) * 4 :=
  ⟨by decide, ⟨by decide, by decide, (okSweep_iff loaded).1 (by decide +kernel)⟩, rfl, rfl, by decide, by decide⟩

/-- A trial of each kind has an entry: trial 0 unseeded with no script waiting and with one, trial 1 seeded. -/
theorem witness_SweepMeasuresEveryTrial_trials :
    (∃ t, exec .sweep loaded = .next t ∧ (t.result.map List.length) = some 2) ∧
    (sweepRead loaded.sweepTable 0).seed.en = false ∧ unseededBefore loaded 0 = 0 ∧ loaded.noiseScript[0]? = none ∧
    ({ loaded with noiseScript := [.zeros] } : State).noiseScript[0]? = some .zeros ∧
    (sweepRead loaded.sweepTable 1).seed.en = true ∧ unseededBefore loaded 1 = 1 :=
  ⟨⟨_, rfl, by decide +kernel⟩, by decide +kernel⟩

/-- The clause `E_CONFIG` by a repeated SNR. -/
theorem witness_SweepMeasuresEveryTrial_repeated :
    ¬(1 ≤ ({ loaded with sweepTable := [] } : State).cfgN ∧
      ({ loaded with sweepTable := [] } : State).cfgCp < ({ loaded with sweepTable := [] } : State).cfgN ∧
      ∀ t u, t < u → u < ({ loaded with sweepTable := [] } : State).cfgSweepLen →
        (sweepRead ({ loaded with sweepTable := [] } : State).sweepTable t).snr.val ≠
          (sweepRead ({ loaded with sweepTable := [] } : State).sweepTable u).snr.val) :=
  fun h => absurd ((okSweep_iff { loaded with sweepTable := [] }).2 h.2.2) (by decide +kernel)

/-- The two ways of `E_SHAPE` of `SWEEP`. -/
theorem witness_SweepMeasuresEveryTrial_shapes :
    wave1.length % (5 + 2) ≠ 0 ∧ wave1.length / (4 + 2) * 4 < [0, 0, 0, 0, 0].length := by decide

theorem witness_SweepOfEmptyPayloadIsFree : ∃ s : State, s.faulted = false ∧ s.okN = true ∧ s.okSweep = true ∧
    s.idx = some [] ∧ s.txwave = some [] ∧ s.cfgSweepLen = 2 ∧ ([] : List Cplx).length % (s.cfgN + s.cfgCp) = 0 :=
  ⟨{ loaded with idx := some [], txwave := some [] }, by decide +kernel⟩

theorem witness_SeededTrialsAreIndependent : ∃ s t, s.faulted = false ∧ s.idx = some [0, 0, 15, 15] ∧
    s.txwave = some wave1 ∧ exec .sweep s = .next t ∧ t.faulted = false ∧ t.result.isSome = true ∧ 1 < s.cfgSweepLen ∧
    (sweepRead s.sweepTable 1).seed.en = true :=
  ⟨loaded, _, by decide, rfl, rfl, rfl, by decide +kernel, rfl, by decide, by decide⟩

theorem witness_ZeroNoiseRateCountsIndicesOtherThanOne : ∃ s : State, s.faulted = false ∧ s.okN = true ∧
    s.okSweep = true ∧ s.idx = some [1, 0] ∧
    s.txwave = some (toTimeDomain Config.num s.cfgN s.cfgCp (buildGrid s.cfgN ([1, 0].map mapIndex))).data ∧
    (∀ k < s.cfgSweepLen, (sweepRead s.sweepTable k).seed.en = false) ∧
    s.noiseScript = List.replicate s.cfgSweepLen .zeros :=
  ⟨{ loaded with
      idx := some [1, 0], cfgSweepLen := 1, noiseScript := [.zeros]
      txwave := some (toTimeDomain Config.num 4 2 (buildGrid 4 ([1, 0].map mapIndex))).data },
    by decide, by decide, by decide +kernel, rfl, rfl, by decide, rfl⟩

/-- Recovered integers at both ends of 0 to 255. -/
theorem witness_RepackPacksEightBitsPerInteger : loaded.faulted = false ∧
    loaded.rxint = some [⟨.lit 255, .lit 0⟩, ⟨.lit 0, .lit 0⟩] ∧ loaded.bits = some (List.replicate 16 true) := by
  decide +kernel

theorem witness_RepackClosedForm : loaded.faulted = false ∧ loaded.rxint.isSome = true ∧
    loaded.bits.map List.length = some (8 * 2) := by decide +kernel

theorem witness_WriteRegChangesOneRegister : loaded.faulted = false ∧
    ∀ a ∈ [HostAction.writeReg 0 (.real (.rat 1)), .writeReg 1 (.real (.irr 0)), .writeReg 2 (.nat 4), .writeReg 3 (.nat 2),
        .writeReg 4 (.nat 16), .writeReg 5 (.real (.rat 20)), .writeReg 6 (.nat 2), .writeReg 7 (.seed ⟨true, 1⟩),
        .writeReg 8 (.word 0), .writeReg 9 (.word 0)],
      ({ loaded with pending := [a] } : State).pending = a :: [] :=
  ⟨by decide, fun _ _ => rfl⟩

theorem witness_WriteSweepChangesOneEntry : loaded.faulted = false ∧ Memory.wf loaded = true ∧
    ({ loaded with pending := [.writeSweep 0 ⟨.rat 5, ⟨true, 1⟩⟩] } : State).pending =
      .writeSweep 0 ⟨.rat 5, ⟨true, 1⟩⟩ :: [] := by decide +kernel

theorem witness_LoadInbufChangesInbufOnly : loaded.faulted = false ∧
    ({ loaded with pending := [.loadInbuf []] } : State).pending = .loadInbuf [] :: [] := by decide +kernel

theorem witness_NoiseDirectiveQueuesOneScript : loaded.faulted = false ∧
    ({ loaded with pending := [.noise .zeros] } : State).pending = .noise .zeros :: [] := by decide

/-- Every buffer of `loaded` is valid; `ReadBuf` of `IDX` at the last index and at the length; a buffer not valid. -/
theorem witness_ReadBufAnswersTheElement : (BufId.all.all fun b => loaded.valid b) = true ∧
    loaded.idx = some [0, 0, 15, 15] ∧ ([0, 0, 15, 15].map Elem.index)[3]? = some (.index 15) ∧
    ([0, 0, 15, 15].map Elem.index).length ≤ 4 ∧ State.reset.valid .idx = false := by decide +kernel

theorem witness_ReadLenAnswersLengthOrShape : (BufId.all.all fun b => loaded.valid b) = true ∧
    ({ loaded with pending := [.readLen .txblk] } : State).pending = .readLen .txblk :: [] ∧
    State.reset.valid .txblk = false := by decide +kernel

/-- Six received samples are one block of `4 + 2`. -/
theorem witness_DeframeIsTheReceiveChain : loaded.faulted = false ∧ 1 ≤ loaded.cfgN ∧ loaded.cfgCp < loaded.cfgN ∧
    loaded.rxwave = some wave1 ∧ wave1.length % (loaded.cfgN + loaded.cfgCp) = 0 ∧
    0 < wave1.length / (loaded.cfgN + loaded.cfgCp) := by decide +kernel

/-- Each limit reached and exceeded by one; `B2B` of one byte writes eight bits. -/
theorem witness_BeyondALimitIsRefused : loaded.faulted = false ∧ (⟨some 4, some 7, some 2⟩ : Limits).cw = some 4 ∧
    2 ^ 4 ≤ 16 ∧ (⟨some 4, some 7, some 2⟩ : Limits).sweepMax = some 2 ∧ 2 < 3 ∧ 2 ≤ 2 ∧
    (⟨some 4, some 7, some 2⟩ : Limits).cap = some 7 ∧ 7 < (List.replicate 8 (0#8)).length ∧
    (match b2bBody { scenario with inbuf := some [0xA5#8] } with
      | .ok t => decide (7 < t.size .bits)
      | .error _ => false) = true ∧ BufId.bits ∈ destinations .b2b ∧
    refusalOf (step { stuck with pending := [.readReg 10] }) = some (.noSuchRegister 10) := by decide +kernel

/-- A number format that is not exact: every sum, product, root, power and forward transform is 1/8 too large. -/
def coarse : NumFormat where
  add x y := Num.add (Num.add x y) (Num.ofRat (1 / 8))
  mul x y := Num.add (Num.mul x y) (Num.ofRat (1 / 8))
  dft N x := (dft N x).map (Cplx.add (cx (1 / 8) 0))
  idft := idft
  sqrt x := Num.add (Num.sqrt x) (Num.ofRat (1 / 8))
  pow10 x := Num.add (Num.pow10 x) (Num.ofRat (1 / 8))
  round := Num.round

/-- `coarse` has the property that 42_cmac_dft R152 names. -/
theorem coarse_withinTolerance : withinTolerance coarse (1 / 8) := by
  refine ⟨?_, ?_, ?_, ?_, ?_, ?_, ?_⟩
  iterate 2 (intros; simp [coarse])
  · intro N x _ hx
    refine ⟨by simp [coarse], fun m hm => ?_⟩
    have h : elemVal (coarse.dft N x) m = (cx (1 / 8) 0).val + ((dft N x).getD m Cplx.zero).val := by
      simp [elemVal, coarse, hm]
    rw [h, dft_getD_val N x hx m hm]
    simp only [elemVal, twiddle_val]
    push_cast
    simp [closeTo, cx, Cplx.ofRats, mul_div_assoc, mul_assoc]
  · intro N x _ hx
    refine ⟨by simp [coarse], fun n hn => ?_⟩
    simp only [coarse]
    rw [elemVal, idft_getD_val N x hx n hn]
    simp only [elemVal, twiddle_val]
    push_cast
    simp [closeTo, mul_div_assoc, mul_assoc, neg_div]
  · intro x hx
    simp [coarse, realSqrt_of_nonneg hx]
  · intros; simp [coarse]
  · simp [coarse]

/-- A core with `N = 1` and no prefix that received one sample. -/
def receiver (x : Rat) : State := { loaded with cfgN := 1, cfgCp := 0, rxwave := some [cx x 0], idx := some [0] }

/-- 42_cmac_dft R152: 17/16 received by `coarse`, which makes it 19/16, gives the integer of exact arithmetic, 1. -/
theorem test_coarse_receiver :
    ((nextOf (issueAll Config.num Pseudo.rxall.expand (receiver 1))).bind (·.rxint)) = some [⟨.lit 1, .lit 0⟩] ∧
    ((nextOf (issueAll coarse Pseudo.rxall.expand (receiver (17 / 16)))).map fun t => (t.rxsym, t.rxint)) =
      some (some [cx (19 / 16) 0], some [⟨.lit 1, .lit 0⟩]) := by decide +kernel

/-- 1 lies farther than 1/4 from every half-integer. -/
theorem one_far_from_halves (z : ℤ) : (1 / 4 : ℝ) < |(elemVal [cx 1 0] 0).re - (z + 1 / 2)| := by
  simp only [elemVal, cx, Cplx.ofRats, List.getD_cons_zero, Cplx.val_re, Num.val_ofRat, Rat.cast_one]
  rcases le_or_gt z 0 with h | h
  · have : (z : ℝ) ≤ 0 := by exact_mod_cast h
    rw [abs_of_pos (by linarith)]
    linarith
  · have : (1 : ℝ) ≤ z := by exact_mod_cast h
    rw [abs_of_neg (by linarith)]
    linarith

theorem closeTo_single (a b : Rat) (tol : ℝ) (h : |(a : ℝ) - b| ≤ tol) (i : Nat) (hi : i < 1) :
    closeTo tol (elemVal [cx a 0] i) (elemVal [cx b 0] i) := by
  obtain rfl : i = 0 := by omega
  simpa [closeTo, elemVal, cx, Cplx.ofRats, h] using (abs_nonneg _).trans h

/-- 6/5 lies within 1/4 of 1, and 1 lies farther than 1/4 from every half-integer. -/
theorem witness_DemapToleratesSmallErrors : withinTolerance coarse (1 / 8) ∧ (1 / 8 : ℝ) < 1 ∧
    ({ loaded with rxsym := some [cx 1 0] } : State).faulted = false ∧
    ({ loaded with rxsym := some [cx (6 / 5) 0] } : State).faulted = false ∧ [cx 1 0].length = [cx (6 / 5) 0].length ∧
    (∀ i < [cx 1 0].length, closeTo (1 / 4) (elemVal [cx (6 / 5) 0] i) (elemVal [cx 1 0] i)) ∧
    ∀ z : ℤ, (1 / 4 : ℝ) < |(elemVal [cx 1 0] 0).re - (z + 1 / 2)| :=
  ⟨coarse_withinTolerance, by norm_num, by decide, by decide, rfl,
    closeTo_single _ _ _ (by push_cast; norm_num [abs_le]), one_far_from_halves⟩

/-- `N = 1`, `e = 1/16`, `tol = 1/8`, so `TOL' = 1/4`; the exact symbol is 1. -/
theorem witness_ReceiveChainToleratesSmallErrors : withinTolerance coarse (1 / 8) ∧ (1 / 8 : ℝ) < 1 ∧
    (receiver 1).faulted = false ∧ (receiver (17 / 16)).faulted = false ∧
    (receiver (17 / 16)).cfgN = (receiver 1).cfgN ∧ (receiver (17 / 16)).cfgCp = (receiver 1).cfgCp ∧
    (receiver 1).rxwave = some [cx 1 0] ∧ (receiver (17 / 16)).rxwave = some [cx (17 / 16) 0] ∧
    (receiver 1).idx = some [0] ∧ (receiver (17 / 16)).idx = some [0] ∧ 1 ≤ (receiver 1).cfgN ∧
    (receiver 1).cfgCp < (receiver 1).cfgN ∧ [cx 1 0].length % ((receiver 1).cfgN + (receiver 1).cfgCp) = 0 ∧
    (∀ i < [cx 1 0].length, closeTo (1 / 16) (elemVal [cx (17 / 16) 0] i) (elemVal [cx 1 0] i)) ∧
    [0].length ≤ [cx 1 0].length / ((receiver 1).cfgN + (receiver 1).cfgCp) * (receiver 1).cfgN ∧
    ((nextOf (issueAll Config.num Pseudo.rxall.expand (receiver 1))).bind (·.rxsym)) = some [cx 1 0] ∧
    ∀ z : ℤ, 2 * ((1 : ℕ) : ℝ) * (1 / 16) + 1 / 8 < |(elemVal [cx 1 0] 0).re - (z + 1 / 2)| :=
  ⟨coarse_withinTolerance, by norm_num, by decide, by decide, rfl, rfl, rfl, rfl, rfl, rfl, by decide, by decide,
    by decide, closeTo_single _ _ _ (by push_cast; norm_num [abs_le]), by decide, by decide +kernel,
    fun z => by norm_num; simpa using one_far_from_halves z⟩

end Sys2Proof.Tests
end

section
/-! The limits an implementation sets (10_state R22, 93 U9). First what a limit refuses, for any limits; then all the
refusals there are at the limits of this machine, action by action, none of which is for a limit. -/

namespace Sys2Proof.Machine

open Sys2Proof

/-! ## What a limit refuses -/

theorem fitsWidth_eq_false {lim : Limits} {w n : Nat} (hw : lim.cw = some w) (h : 2 ^ w ≤ n) :
    fitsWidth lim n = false := by
  simpa [fitsWidth_of_some hw] using h

theorem fitsTable_eq_false {lim : Limits} {m n : Nat} (hm : lim.sweepMax = some m) (h : m < n) :
    fitsTable lim n = false := by
  simpa [fitsTable_of_some hm] using h

theorem fitsCapacity_eq_false {lim : Limits} {c n : Nat} (hc : lim.cap = some c) (h : c < n) :
    fitsCapacity lim n = false := by
  simpa [fitsCapacity_of_some hc] using h

/-- A guard refuses at least when what it guards does. -/
theorem keeping_refused (fits : Bool) (r r' : Refusal) :
    ∃ r'', keeping fits r (.refused r') = .refused r'' := by
  cases fits
  · exact ⟨r, rfl⟩
  · exact ⟨r', rfl⟩

theorem hostWriteReg_of_not_faulted {s : State} (hs : s.faulted = false) (lim : Limits) (no : Nat) (v : RegValue) :
    hostWriteReg lim no v s = writeRegister lim no v s := by
  simp [hostWriteReg, hs]

theorem hostWriteSweep_of_not_faulted {s : State} (hs : s.faulted = false) (lim : Limits) (t : Nat) (e : SweepEntry) :
    hostWriteSweep lim t e s =
      keeping (fitsTable lim (t + 1)) (.beyondSweepTable t)
        (keeping (fitsWidth lim e.seed.val) (.beyondWidth e.seed.val)
          (.next { s with sweepTable := sweepWrite s.sweepTable t e })) := by
  simp [hostWriteSweep, hs]

theorem hostLoadInbuf_of_not_faulted {s : State} (hs : s.faulted = false) (lim : Limits) (bytes : List Byte) :
    hostLoadInbuf lim bytes s =
      keeping (fitsCapacity lim bytes.length) (.beyondCapacity .inbuf) (.next { s with inbuf := some bytes }) := by
  simp [hostLoadInbuf, hs]

/-- `CW` is the first test of a write to a Nat register. -/
theorem writeRegister_nat_beyondWidth {lim : Limits} {no n : Nat} (hno : no ∈ [2, 3, 4, 6])
    (h : fitsWidth lim n = false) (s : State) : writeRegister lim no (.nat n) s = .refused (.beyondWidth n) := by
  simp only [List.mem_cons, List.not_mem_nil, or_false] at hno
  obtain rfl | rfl | rfl | rfl := hno <;> simp [writeRegister, h]

theorem writeRegister_seed_beyondWidth {lim : Limits} {e : Seed} (h : fitsWidth lim e.val = false) (s : State) :
    writeRegister lim 7 (.seed e) s = .refused (.beyondWidth e.val) := by
  simp [writeRegister, h]

theorem writeRegister_sweepLen_beyondTable {lim : Limits} {n : Nat} (h : fitsTable lim n = false) (s : State) :
    ∃ r, writeRegister lim 6 (.nat n) s = .refused r := by
  simpa [writeRegister, h] using keeping_refused _ _ _

/-- The one buffer that a command writes, if it writes any (30_encoding R82). -/
theorem destinations_eq_of_mem {i : Instr} {b : BufId} (h : b ∈ destinations i) : destinations i = [b] := by
  cases i <;> simp_all [destinations]

theorem runCommandWithin_beyondCapacity {lim : Limits} {i : Instr} {body : State → Except FaultCode State}
    {s t : State} {b : BufId} (hs : s.faulted = false) (ht : body s = .ok t) (hb : b ∈ destinations i)
    (h : fitsCapacity lim (t.size b) = false) : runCommandWithin lim i body s = .refused (.beyondCapacity b) := by
  simp [runCommandWithin, hs, ht, destinations_eq_of_mem hb, h]

/-! ## The refusals at the limits of this machine -/

/-- A limit is exceeded: the refusals of 10_state R22. -/
def Refusal.ForLimit : Refusal → Prop
  | .beyondWidth _ | .beyondCapacity _ | .beyondSweepTable _ => True
  | _ => False

theorem Refusal.not_forLimit_iff (r : Refusal) : ¬ r.ForLimit ↔
    (∀ n, r ≠ .beyondWidth n) ∧ (∀ b, r ≠ .beyondCapacity b) ∧ ∀ n, r ≠ .beyondSweepTable n := by
  cases r <;> simp [Refusal.ForLimit]

theorem runCommand_ne_refused (i : Instr) (body : State → Except FaultCode State) (s : State) (r : Refusal) :
    runCommand i body s ≠ .refused r := by
  rw [runCommand_eq]
  split
  · simp
  · cases body s <;> simp

theorem hostIssue_ne_refused (w : Byte) (s : State) (r : Refusal) : hostIssue w s ≠ .refused r := by
  unfold hostIssue
  split
  · rw [exec_eq_runCommand]
    exact runCommand_ne_refused _ _ _ _
  · unfold illegalWord
    split <;> simp

theorem hostWriteReg_limits_refused {no : Nat} {v : RegValue} {s : State} {r : Refusal}
    (h : hostWriteReg Config.limits no v s = .refused r) :
    r = .registerTypeMismatch no ∨ r = .registerNotWritable no := by
  unfold hostWriteReg at h
  split at h
  · cases h
  · unfold writeRegister at h
    split at h
    case h_9 =>
      split at h
      · cases h
        exact .inl rfl
      · cases h
        exact .inr rfl
    all_goals simp at h

theorem hostWriteSweep_limits_ne_refused (t : Nat) (e : SweepEntry) (s : State) (r : Refusal) :
    hostWriteSweep Config.limits t e s ≠ .refused r := by
  unfold hostWriteSweep
  split <;> simp

theorem hostReadSweep_limits_ne_refused (t : Nat) (s : State) (r : Refusal) :
    hostReadSweep Config.limits t s ≠ .refused r := by
  simp [hostReadSweep]

theorem hostLoadInbuf_limits_ne_refused (bytes : List Byte) (s : State) (r : Refusal) :
    hostLoadInbuf Config.limits bytes s ≠ .refused r := by
  unfold hostLoadInbuf
  split <;> simp

theorem hostReadReg_refused {no : Nat} {s : State} {r : Refusal} (h : hostReadReg no s = .refused r) :
    r = .noSuchRegister no := by
  unfold hostReadReg at h
  split at h
  · cases h
  · cases h
    rfl

theorem hostReadBuf_refused {b : BufId} {i : Nat} {s : State} {r : Refusal} (h : hostReadBuf b i s = .refused r) :
    r = .bufferNotValid b ∨ r = .indexBeyondLength b i := by
  unfold hostReadBuf at h
  split at h
  · cases h
    exact .inl rfl
  · split at h
    · cases h
    · cases h
      exact .inr rfl

theorem hostReadLen_refused {b : BufId} {s : State} {r : Refusal} (h : hostReadLen b s = .refused r) :
    r = .bufferNotValid b := by
  unfold hostReadLen at h
  split at h
  · cases h
    rfl
  · split at h <;> cases h

/-- The machine without limits (notes/assumptions/12.md) refuses no action for one. -/
theorem perform_refused_not_forLimit {a : HostAction} {s : State} {r : Refusal} (h : perform a s = .refused r) :
    ¬ r.ForLimit := by
  cases a with
  | reset => cases h
  | noise script => cases h
  | writeReg no v => obtain rfl | rfl := hostWriteReg_limits_refused h <;> exact id
  | writeSweep t e => exact absurd h (hostWriteSweep_limits_ne_refused t e s r)
  | readReg no => obtain rfl := hostReadReg_refused h; exact id
  | readSweep t => exact absurd h (hostReadSweep_limits_ne_refused t s r)
  | loadInbuf bytes => exact absurd h (hostLoadInbuf_limits_ne_refused bytes s r)
  | readBuf b i => obtain rfl | rfl := hostReadBuf_refused h <;> exact id
  | readLen b => obtain rfl := hostReadLen_refused h; exact id
  | issue w => exact absurd h (hostIssue_ne_refused w s r)

theorem step_refused_not_forLimit {s : State} {r : Refusal} (h : step s = .refused r) : ¬ r.ForLimit := by
  unfold step performNext at h
  split at h
  · cases h
  · exact perform_refused_not_forLimit h

/-- Settles O57: each limit is tested by the guard of the action that could exceed it, and at this machine's limits
every refusal of an action is for another reason. -/
theorem beyondALimitIsRefused : Obligations.BeyondALimitIsRefused := by
  unfold Obligations.BeyondALimitIsRefused
  refine ⟨fun lim s hs => ⟨fun w hw => ⟨?_, ?_, ?_⟩, fun m hm => ⟨?_, ?_⟩, fun c hc => ⟨?_, ?_⟩⟩, ?_⟩
  · intro no hno n hn
    rw [hostWriteReg_of_not_faulted hs]
    exact writeRegister_nat_beyondWidth hno (fitsWidth_eq_false hw hn) s
  · intro e he
    rw [hostWriteReg_of_not_faulted hs]
    exact writeRegister_seed_beyondWidth (fitsWidth_eq_false hw he) s
  · intro t e he
    rw [hostWriteSweep_of_not_faulted hs, fitsWidth_eq_false hw he, keeping_false]
    exact keeping_refused _ _ _
  · intro n hn
    rw [hostWriteReg_of_not_faulted hs]
    exact writeRegister_sweepLen_beyondTable (fitsTable_eq_false hm hn) s
  · intro t ht
    have hfit : fitsTable lim (t + 1) = false := fitsTable_eq_false hm (by omega)
    refine ⟨by rw [hostReadSweep, hfit, keeping_false], fun e => ?_⟩
    rw [hostWriteSweep_of_not_faulted hs, hfit, keeping_false]
  · intro bytes hlen
    rw [hostLoadInbuf_of_not_faulted hs, fitsCapacity_eq_false hc hlen, keeping_false]
  · intro i body t b ht hb hlen
    exact runCommandWithin_beyondCapacity hs ht hb (fitsCapacity_eq_false hc hlen)
  · intro s r h
    exact r.not_forLimit_iff.mp (step_refused_not_forLimit h)

end Sys2Proof.Machine
end

section
/-! The host's reads `ReadBuf` and `ReadLen` (20_memory R61). First the step in terms of the action it performs and of
the buffer's elements, then the reads buffer by buffer. -/

namespace Sys2Proof.Machine

open Sys2Proof

/-! ## What a buffer offers to a read -/

/-- One step performs the action at the head of the host's queue (70_reset_and_hazards R291). -/
theorem step_of_pending {s : State} {a : HostAction} {rest : List HostAction} (h : s.pending = a :: rest) :
    step s = perform a { s with pending := rest } := by
  simp [step, performNext, h]

/-- The host's queue is no part of a buffer. -/
@[simp] theorem bufferElems_withPending (s : State) (rest : List HostAction) (b : BufId) :
    bufferElems { s with pending := rest } b = bufferElems s b := rfl

@[simp] theorem bufferGrid_withPending (s : State) (rest : List HostAction) (b : BufId) :
    bufferGrid { s with pending := rest } b = bufferGrid s b := rfl

theorem bufferElems_eq_none_iff {s : State} {b : BufId} : bufferElems s b = none ↔ s.valid b = false := by
  cases b <;> simp [bufferElems, State.valid]

/-- The elements of a Grid are its data, column by column (10_state R31). -/
theorem bufferElems_of_bufferGrid {s : State} {b : BufId} {g : Grid} (h : bufferGrid s b = some g) :
    bufferElems s b = some (g.data.map .complex) := by
  cases b
  case txgrid | txblk | rxblk | rxgrid => exact congrArg (Option.map fun g : Grid => g.data.map Elem.complex) h
  all_goals cases h

/-! ## The reads -/

section ReadBuf

variable {s : State} {b : BufId} {i : Nat} {rest : List HostAction} (h : s.pending = .readBuf b i :: rest)
include h

theorem step_readBuf_of_not_valid (hb : s.valid b = false) : step s = .refused (.bufferNotValid b) := by
  simp [step_of_pending h, perform, hostReadBuf, bufferElems_eq_none_iff.mpr hb]

theorem readsElements_of_bufferElems {es : List Elem} (hes : bufferElems s b = some es) :
    readsElements s b i rest es := by
  refine ⟨fun e he => ?_, fun hi => ?_⟩
  · simp [answersRead, step_of_pending h, perform, hostReadBuf, hes, he]
  · simp [step_of_pending h, perform, hostReadBuf, hes, List.getElem?_eq_none hi]

/-- A buffer that holds the sequence `x`, each entry of which reads as an element by `f`. -/
theorem readsElements_map {α : Type} {o : Option (List α)} {x : List α} {f : α → Elem} (hx : o = some x)
    (hb : bufferElems s b = o.map (·.map f)) : readsElements s b i rest (x.map f) :=
  readsElements_of_bufferElems h (by rw [hb, hx, Option.map_some])

theorem readsElements_grid {g : Grid} (hg : bufferGrid s b = some g) :
    readsElements s b i rest (g.data.map .complex) :=
  readsElements_of_bufferElems h (bufferElems_of_bufferGrid hg)

end ReadBuf

section ReadLen

variable {s : State} {b : BufId} {rest : List HostAction} (h : s.pending = .readLen b :: rest)
include h

theorem step_readLen_of_not_valid (hb : s.valid b = false) : step s = .refused (.bufferNotValid b) := by
  simp [step_of_pending h, perform, hostReadLen, bufferElems_eq_none_iff.mpr hb]

/-- A buffer that is no Grid and holds the sequence `x`, each entry of which reads as an element by `f`. -/
theorem answersRead_len {α : Type} {o : Option (List α)} {x : List α} {f : α → Elem} (hx : o = some x)
    (hb : bufferElems s b = o.map (·.map f)) (hg : bufferGrid s b = none) : answersRead s rest (.len x.length) := by
  simp [answersRead, step_of_pending h, perform, hostReadLen, hb, hx, hg]

theorem answersRead_shape {g : Grid} (hg : bufferGrid s b = some g) :
    answersRead s rest (.shape g.rows g.cols) := by
  simp [answersRead, step_of_pending h, perform, hostReadLen, bufferElems_of_bufferGrid hg, hg]

end ReadLen

/-- Settles O53: a read of a buffer finds its elements, which are a Grid's data or a sequence entry by entry. -/
theorem readBufAnswersTheElement : Obligations.ReadBufAnswersTheElement := by
  unfold Obligations.ReadBufAnswersTheElement
  intro s b i rest h
  refine ⟨step_readBuf_of_not_valid h, ?_⟩
  cases b
  case txgrid | txblk | rxblk | rxgrid => exact fun g hg => readsElements_grid h hg
  all_goals exact fun x hx => readsElements_map h hx rfl

/-- Settles O54: a Grid buffer answers its shape, every other buffer the length of its sequence. -/
theorem readLenAnswersLengthOrShape : Obligations.ReadLenAnswersLengthOrShape := by
  unfold Obligations.ReadLenAnswersLengthOrShape
  intro s b rest h
  refine ⟨step_readLen_of_not_valid h, ?_⟩
  cases b
  case txgrid | txblk | rxblk | rxgrid => exact fun g hg => answersRead_shape h hg
  all_goals exact fun x hx => answersRead_len h hx rfl rfl

end Sys2Proof.Machine
end

section
/-! Illegal command words (30_encoding R83) and the directive `.noise` (R85). -/

namespace Sys2Proof.Machine

open Sys2Proof

/-! ## Illegal words -/

/-- The opcode map ends at `0x0F` (30_encoding R82, R83). -/
theorem decode_of_illegal {w : Byte} (hw : 0x10 ≤ w.toNat) : decode w = .error (.illegalCommand w) := by
  unfold decode
  split
  case h_17 => rfl
  all_goals omega

theorem hostIssue_of_illegal {w : Byte} {s : State} (hw : 0x10 ≤ w.toNat) (hs : s.faulted = false) :
    hostIssue w s = .next (s.raise .eIllcmd w []) := by
  simp [hostIssue, decode_of_illegal hw, illegalWord, hs]

/-- A fault without a destination changes `STATUS` only (60_exceptions R266). -/
@[simp] theorem State.raise_nil (s : State) (code : FaultCode) (w : Byte) :
    s.raise code w [] = { s with status := statusWord code w } := rfl

/-- The host's queue is no part of `STATUS`. -/
@[simp] theorem State.faulted_withPending (s : State) (rest : List HostAction) :
    ({ s with pending := rest } : State).faulted = s.faulted := rfl

/-- `STATUS[7:4]` of a fault word is zero (10_state R23). -/
theorem statusWord_reserved (code : FaultCode) (w : Byte) : (statusWord code w).extractLsb' 4 4 = 0#4 := by
  rw [statusWord, BitVec.extractLsb'_append_eq_of_le (by decide), BitVec.extractLsb'_append_eq_right,
    BitVec.ofNat_eq_ofNat]

/-- `STATUS.FCMD` of a fault word is the command word (10_state R23). -/
theorem statusWord_fcmd (code : FaultCode) (w : Byte) : (statusWord code w).extractLsb' 8 8 = w := by
  rw [statusWord, BitVec.extractLsb'_append_eq_of_le (by decide), BitVec.extractLsb'_append_eq_left]

/-- Settles O3: an illegal word raises its fault without a destination, and each field of the fault word is known. -/
theorem illegalWordFaults : Obligations.IllegalWordFaults := by
  unfold Obligations.IllegalWordFaults
  intro w s rest hw hs h
  refine ⟨statusWord .eIllcmd w, ?_, statusWord_fault .eIllcmd w, statusWord_reserved .eIllcmd w,
    statusWord_fcmd .eIllcmd w⟩
  rw [step_of_pending h, perform, hostIssue_of_illegal hw (by simpa using hs), State.raise_nil]

/-! ## The directive for noise -/

/-- Settles O55: `.noise` is performed on every core alike (notes/assumptions/17.md). -/
theorem noiseDirectiveQueuesOneScript : Obligations.NoiseDirectiveQueuesOneScript := by
  unfold Obligations.NoiseDirectiveQueuesOneScript
  intro s script rest _ h
  rw [step_of_pending h, perform, hostNoise]

end Sys2Proof.Machine
end

section
/-! The BitFramer commands `B2B`, `PAD` and `GROUP` (40_bitframer R100 to R103). First how a command's outcome follows
from its body, then each command: the outcomes of its body, the sequence it writes, the statement. -/

namespace Sys2Proof.Machine

open Sys2Proof

theorem exec_of_commandBody_ok {i : Instr} {s t : State} (hs : s.faulted = false)
    (hb : commandBody Config.num i s = .ok t) : exec i s = .next t := by
  rw [exec_eq_runCommand, runCommand_ok hs hb]

theorem faultsWith_of_commandBody_error {i : Instr} {s : State} {code : FaultCode} (hs : s.faulted = false)
    (hb : commandBody Config.num i s = .error code) : faultsWith i code s := by
  rw [faultsWith, exec_eq_runCommand, runCommand_error hs hb]

/-- What the E_CONFIG clauses assume is that `okM` fails (10_state R26). -/
theorem okM_eq_false {s : State} (h : ¬ ∃ k, 1 ≤ k ∧ 2 ^ k = s.cfgM) : s.okM = false := by
  rwa [← okM_iff, Bool.not_eq_true] at h

/-! ## `B2B` -/

theorem b2bBody_of_none {s : State} (h : s.inbuf = none) : b2bBody s = .error .eSeq := by
  simp [b2bBody, h]

theorem b2bBody_of_some {s : State} {bytes : List Byte} (h : s.inbuf = some bytes) :
    b2bBody s = .ok { s with bits := some (bytesToBits bytes) } := by
  simp [b2bBody, h]

@[simp] theorem byteBits_length (y : Byte) : (byteBits y).length = 8 := by simp [byteBits]

/-- Bit `j` of a byte by division. -/
theorem getLsbD_eq_decide_div (y : Byte) (j : Nat) : y.getLsbD j = decide (y.toNat / 2 ^ j % 2 = 1) := by
  rw [← BitVec.testBit_toNat, Nat.testBit_eq_decide_div_mod_eq]

theorem byteBits_getElem? (y : Byte) {b : Nat} (hb : b < 8) :
    (byteBits y)[b]? = some (decide (y.toNat / 2 ^ (7 - b) % 2 = 1)) := by
  simp [byteBits, List.getElem?_range hb, getLsbD_eq_decide_div]

theorem bytesToBits_cons (y : Byte) (bytes : List Byte) : bytesToBits (y :: bytes) = byteBits y ++ bytesToBits bytes :=
  List.flatMap_cons

/-- Bit `b` of byte `i` stands at `8i + b` (40_bitframer R100). -/
theorem bytesToBits_getElem? (bytes : List Byte) {i b : Nat} (hi : i < bytes.length) (hb : b < 8) :
    (bytesToBits bytes)[8 * i + b]? = some (decide ((bytes.getD i 0).toNat / 2 ^ (7 - b) % 2 = 1)) := by
  induction bytes generalizing i with
  | nil => simp at hi
  | cons y bytes ih =>
    rw [bytesToBits_cons]
    cases i with
    | zero =>
      rw [Nat.mul_zero, Nat.zero_add, List.getElem?_append_left (by simpa using hb), byteBits_getElem? y hb,
        List.getD_cons_zero]
    | succ i =>
      have hj : 8 * (i + 1) + b - 8 = 8 * i + b := by omega
      rw [List.getElem?_append_right (by simp; omega), byteBits_length, hj, ih (by simpa using hi),
        List.getD_cons_succ]

/-- Settles O19: `B2B` writes the bits of the bytes in order, each bit of a byte being a digit of its value. -/
theorem b2bUnpacksBitSevenFirst : Obligations.B2bUnpacksBitSevenFirst := by
  unfold Obligations.B2bUnpacksBitSevenFirst
  refine ⟨by decide, fun s hs => ⟨fun h => ?_, fun bytes h => ?_⟩⟩
  · exact faultsWith_of_commandBody_error hs (b2bBody_of_none h)
  · exact ⟨bytesToBits bytes, exec_of_commandBody_ok hs (b2bBody_of_some h), bytesToBits_length bytes,
      fun i b hi hb => bytesToBits_getElem? bytes hi hb⟩

/-! ## `PAD` -/

theorem padBody_of_not_okM {s : State} (h : s.okM = false) : padBody s = .error .eConfig := by
  simp [padBody, h]

theorem padBody_of_none {s : State} (hm : s.okM = true) (h : s.bits = none) : padBody s = .error .eSeq := by
  simp [padBody, hm, h]

theorem padBody_of_some {s : State} {bits : List Bit} (hm : s.okM = true) (h : s.bits = some bits) :
    padBody s = .ok { s with pbits := some (padBits s.cfgK bits) } := by
  simp [padBody, hm, h]

/-- Settles O20: where `M = 2^k` the group width of `PAD` is `k`, and its two cases are those of `padBits`. -/
theorem padAppendsZerosAtTail : Obligations.PadAppendsZerosAtTail := by
  unfold Obligations.PadAppendsZerosAtTail
  refine ⟨by decide, fun s hs => ⟨fun h => ?_, fun k hk hM => ?_⟩⟩
  · exact faultsWith_of_commandBody_error hs (padBody_of_not_okM (okM_eq_false h))
  · have hm : s.okM = true := (okM_iff s).mpr ⟨k, hk, hM⟩
    refine ⟨fun h => faultsWith_of_commandBody_error hs (padBody_of_none hm h), fun bits h => ?_⟩
    have hpad : exec .pad s = .next { s with pbits := some (padBits k bits) } :=
      cfgK_of_pow hM ▸ exec_of_commandBody_ok hs (padBody_of_some hm h)
    refine ⟨fun hl => ?_, fun hl => ?_⟩
    · rw [hpad, padBits, if_pos hl]
    · rw [hpad, padBits, if_neg hl]

/-! ## `GROUP` -/

theorem groupBody_of_not_okM {s : State} (h : s.okM = false) : groupBody s = .error .eConfig := by
  simp [groupBody, h]

theorem groupBody_of_none {s : State} (hm : s.okM = true) (h : s.pbits = none) : groupBody s = .error .eSeq := by
  simp [groupBody, hm, h]

theorem groupBody_of_not_multiple {s : State} {pbits : List Bit} (hm : s.okM = true) (h : s.pbits = some pbits)
    (hl : pbits.length % s.cfgK ≠ 0) : groupBody s = .error .eShape := by
  simp [groupBody, hm, h, hl]

theorem groupBody_of_multiple {s : State} {pbits : List Bit} (hm : s.okM = true) (h : s.pbits = some pbits)
    (hl : pbits.length % s.cfgK = 0) : groupBody s = .ok { s with idx := some (groupBits s.cfgK pbits) } := by
  simp [groupBody, hm, h, hl]

@[simp] theorem bitsValue_concat (bits : List Bit) (b : Bit) :
    bitsValue (bits ++ [b]) = 2 * bitsValue bits + b.toNat := by
  simp [bitsValue]

/-- The first bit is the most significant (00_scope R16). -/
theorem bitsValue_eq_sum (bits : List Bit) :
    bitsValue bits = ∑ i ∈ Finset.range bits.length, (bits.getD i false).toNat * 2 ^ (bits.length - 1 - i) := by
  induction bits using List.reverseRecOn with
  | nil => rfl
  | append_singleton bits b ih =>
    rw [bitsValue_concat, ih, List.length_append, List.length_singleton, Finset.sum_range_succ, Finset.mul_sum]
    congr 1
    · refine Finset.sum_congr rfl fun i hi => ?_
      have hi : i < bits.length := Finset.mem_range.mp hi
      have hexp : bits.length + 1 - 1 - i = bits.length - 1 - i + 1 := by omega
      rw [List.getD_append _ _ _ _ hi, hexp, pow_succ]
      ring
    · simp

theorem bitsValue_lt (bits : List Bit) : bitsValue bits < 2 ^ bits.length := by
  induction bits using List.reverseRecOn with
  | nil => decide
  | append_singleton bits b ih =>
    have hb : b.toNat ≤ 1 := Bool.toNat_le b
    rw [bitsValue_concat, List.length_append, List.length_singleton, pow_succ]
    omega

@[simp] theorem groupBits_length (k : Nat) (bits : List Bit) : (groupBits k bits).length = bits.length / k := by
  simp [groupBits]

theorem group_length {k g : Nat} {bits : List Bit} (hg : g < bits.length / k) :
    ((bits.drop (k * g)).take k).length = k := by
  have hle : k * (g + 1) ≤ bits.length := (Nat.mul_le_mul_left k hg).trans (Nat.mul_div_le _ _)
  rw [Nat.mul_succ] at hle
  simp only [List.length_take, List.length_drop]
  omega

theorem group_getD (k g : Nat) (bits : List Bit) {i : Nat} (hi : i < k) :
    ((bits.drop (k * g)).take k).getD i false = bits.getD (k * g + i) false := by
  simp [List.getD_eq_getElem?_getD, List.getElem?_take_of_lt hi]

/-- The `g`-th integer is read from the `k` bits from `kg` on (40_bitframer R102). -/
theorem groupBits_getElem? {k g : Nat} {bits : List Bit} (hg : g < bits.length / k) :
    (groupBits k bits)[g]? =
      some (∑ i ∈ Finset.range k, (bits.getD (k * g + i) false).toNat * 2 ^ (k - 1 - i)) := by
  rw [groupBits, List.getElem?_map, List.getElem?_range hg, Option.map_some, bitsValue_eq_sum, group_length hg]
  congr 1
  exact Finset.sum_congr rfl fun i hi => by rw [group_getD k g bits (Finset.mem_range.mp hi)]

theorem groupBits_lt {k v : Nat} {bits : List Bit} (hv : v ∈ groupBits k bits) : v < 2 ^ k := by
  obtain ⟨g, hg, rfl⟩ := List.mem_map.mp hv
  have h := bitsValue_lt ((bits.drop (k * g)).take k)
  rwa [group_length (List.mem_range.mp hg)] at h

/-- Settles O21: where `M = 2^k` the group width of `GROUP` is `k`, and a group's value is the sum of its digits. -/
theorem groupReadsUnsignedIntegers : Obligations.GroupReadsUnsignedIntegers := by
  unfold Obligations.GroupReadsUnsignedIntegers
  refine ⟨by decide, fun s hs => ⟨fun h => ?_, fun k hk hM => ?_⟩⟩
  · exact faultsWith_of_commandBody_error hs (groupBody_of_not_okM (okM_eq_false h))
  · have hm : s.okM = true := (okM_iff s).mpr ⟨k, hk, hM⟩
    obtain rfl : s.cfgK = k := cfgK_of_pow hM
    refine ⟨fun h => faultsWith_of_commandBody_error hs (groupBody_of_none hm h),
      fun pbits h => ⟨fun hl => ?_, fun hl => ?_⟩⟩
    · exact faultsWith_of_commandBody_error hs (groupBody_of_not_multiple hm h hl)
    · exact ⟨groupBits s.cfgK pbits, exec_of_commandBody_ok hs (groupBody_of_multiple hm h hl),
        groupBits_length _ _, fun g hg => groupBits_getElem? hg, fun v hv => groupBits_lt hv⟩

/-! ## The three commands in order -/

/-- The padded length as a rounded-up quotient: the remainder adds one group or none. -/
theorem padBits_length {k : Nat} (hk : 0 < k) (bits : List Bit) :
    (padBits k bits).length = k * (bits.length ⌈/⌉ k) := by
  have hdiv := Nat.div_add_mod bits.length k
  have hlt := Nat.mod_lt bits.length hk
  have hsplit : bits.length + k - 1 = k * (bits.length / k) + (bits.length % k + k - 1) := by omega
  rw [Nat.ceilDiv_eq_add_pred_div, hsplit, Nat.mul_add_div hk, padBits]
  by_cases h : bits.length % k = 0
  · rw [if_pos h, Nat.div_eq_of_lt (show bits.length % k + k - 1 < k by omega), Nat.add_zero]
    omega
  · have hone : (bits.length % k + k - 1) / k = 1 := Nat.div_eq_of_lt_le (by omega) (by omega)
    rw [if_neg h, hone, Nat.mul_succ, List.length_append, List.length_replicate]
    omega

/-- Settles O22: the padded length is `k` times the rounded-up quotient, which is the least multiple by the Galois
connection of `⌈/⌉` with multiplication. -/
theorem paddedLengthIsSmallestMultiple : Obligations.PaddedLengthIsSmallestMultiple := by
  unfold Obligations.PaddedLengthIsSmallestMultiple
  intro s bytes k hs h hk hM
  have hm : s.okM = true := (okM_iff s).mpr ⟨k, hk, hM⟩
  obtain rfl : s.cfgK = k := cfgK_of_pow hM
  have hp : (padBits s.cfgK (bytesToBits bytes)).length = s.cfgK * (8 * bytes.length ⌈/⌉ s.cfgK) := by
    rw [padBits_length hk, bytesToBits_length]
  have hl : (padBits s.cfgK (bytesToBits bytes)).length % s.cfgK = 0 := by rw [hp, Nat.mul_mod_right]
  refine ⟨_, _, _, padBits s.cfgK (bytesToBits bytes), groupBits s.cfgK (padBits s.cfgK (bytesToBits bytes)),
    exec_of_commandBody_ok hs (b2bBody_of_some h), exec_of_commandBody_ok hs (padBody_of_some hm rfl),
    exec_of_commandBody_ok hs (groupBody_of_multiple hm rfl hl), hs, rfl, rfl, ?_⟩
  rw [groupBits_length, hp, Nat.mul_div_cancel_left _ hk, ← Nat.ceilDiv_eq_add_pred_div]
  refine ⟨dvd_mul_right _ _, (ceilDiv_le_iff_le_mul hk).mp le_rfl, ?_, rfl, rfl⟩
  rintro _ ⟨c, rfl⟩ hc
  exact Nat.mul_le_mul_left _ ((ceilDiv_le_iff_le_mul hk).mpr hc)

end Sys2Proof.Machine
end

section
/-! The SymbolMapper commands `MAP` and `DEMAP` (41_symbolmapper R120, R121, R126): each command's body, the values it
writes, the statement. -/

namespace Sys2Proof.Machine

open Sys2Proof

/-! ## `MAP` -/

theorem mapBody_of_none {s : State} (h : s.idx = none) : mapBody s = .error .eSeq := by
  simp [mapBody, h]

theorem mapBody_of_some {s : State} {idx : List Nat} (h : s.idx = some idx) :
    mapBody s = .ok { s with sym := some (idx.map mapIndex) } := by
  simp [mapBody, h]

/-- Settles O23: `MAP` writes the symbol of each index, and `mapIndex_val` is the number a symbol denotes. -/
theorem mapIsTwiceIndexMinusOne : Obligations.MapIsTwiceIndexMinusOne := by
  unfold Obligations.MapIsTwiceIndexMinusOne
  refine ⟨by decide, fun s hs => ⟨fun h => ?_, fun idx h => ?_⟩⟩
  · exact faultsWith_of_commandBody_error hs (mapBody_of_none h)
  · refine ⟨idx.map mapIndex, exec_of_commandBody_ok hs (mapBody_of_some h), ?_⟩
    rw [List.map_map]
    exact List.map_congr_left fun i _ => mapIndex_val i

/-! ## `DEMAP` -/

theorem demapBody_of_none {f : NumFormat} {s : State} (h : s.rxsym = none) : demapBody f s = .error .eSeq := by
  simp [demapBody, h]

theorem demapBody_of_some {f : NumFormat} {s : State} {syms : List Cplx} (h : s.rxsym = some syms) :
    demapBody f s = .ok { s with rxint := some (syms.map (demapSymbol f)) } := by
  simp [demapBody, h]

/-- The rounding of a Real is one that 41_symbolmapper R126 allows. -/
theorem round_isRounding (x : Num) : isRounding (Num.round x).val x.val := by
  rw [IntTerm.val_round]
  exact roundReal_isRounding x.val

/-- Settles O24: `DEMAP` rounds symbol by symbol, and both parts of a symbol alike. -/
theorem demapRoundsBothParts : Obligations.DemapRoundsBothParts := by
  unfold Obligations.DemapRoundsBothParts
  refine ⟨by decide, fun s hs => ⟨fun h => ?_, fun syms h => ?_⟩⟩
  · exact faultsWith_of_commandBody_error hs (demapBody_of_none h)
  · refine ⟨syms.map (demapSymbol Config.num), exec_of_commandBody_ok hs (demapBody_of_some h),
      List.length_map _, fun i p z hp hz => ?_⟩
    obtain rfl : demapSymbol Config.num z = p := by simpa [hz] using hp
    exact ⟨round_isRounding z.re, round_isRounding z.im⟩

end Sys2Proof.Machine
end

section
/-! The transforms column by column and as formulas, and the number format of this machine (42_cmac_dft R140, R145, R146,
R151, R152). -/

namespace Sys2Proof.Machine

open Sys2Proof

/-! ## Columns -/

/-- Settles O31: a column of either transformed Grid is a function of the column alone, and a Grid is made column by
column, so that no column gives no data. -/
theorem columnsAreIndependent : Obligations.ColumnsAreIndependent := by
  unfold Obligations.ColumnsAreIndependent
  refine ⟨fun N p g h c hp hg hh hgh => ⟨?_, ?_⟩, fun N p g => ⟨rfl, rfl, fun h0 => ⟨?_, ?_⟩⟩⟩
  · rw [toTimeDomain_col _ N p hp g (fun _ _ => idft_length N _) c hg,
      toTimeDomain_col _ N p hp h (fun _ _ => idft_length N _) c hh, hgh]
  · rw [toFrequencyDomain_col _ N g (fun _ _ => dft_length N _) c hg,
      toFrequencyDomain_col _ N h (fun _ _ => dft_length N _) c hh, hgh]
  · simp [toTimeDomain, h0]
  · simp [toFrequencyDomain, h0]

/-! ## The transforms as formulas -/

/-- Element `m` of the forward transform (42_cmac_dft R145). -/
theorem dft_elemVal {N : Nat} {x : List Cplx} (hx : x.length = N) {m : Nat} (hm : m < N) :
    elemVal (dft N x) m =
      ∑ n ∈ Finset.range N, elemVal x n * Complex.exp (-(2 * Real.pi * (m * n) / N) * Complex.I) := by
  rw [elemVal, dft_getD_val N x hx m hm]
  refine Finset.sum_congr rfl fun n _ => ?_
  rw [twiddle_val, elemVal]
  congr 2
  push_cast
  ring

/-- Element `n` of the inverse transform (42_cmac_dft R146). -/
theorem idft_elemVal {N : Nat} {X : List Cplx} (hX : X.length = N) {n : Nat} (hn : n < N) :
    elemVal (idft N X) n =
      (1 / N) * ∑ m ∈ Finset.range N, elemVal X m * Complex.exp ((2 * Real.pi * (m * n) / N) * Complex.I) := by
  rw [elemVal, idft_getD_val N X hX n hn]
  congr 1
  refine Finset.sum_congr rfl fun m _ => ?_
  rw [twiddle_val, elemVal]
  congr 2
  push_cast
  ring

/-! ## Closeness part by part -/

theorem closeTo_of_eq {x y : ℂ} (h : x = y) : closeTo 0 x y := by
  simp [closeTo, h]

theorem closeTo.symm {a : ℝ} {x y : ℂ} (h : closeTo a x y) : closeTo a y x := by
  rwa [closeTo, abs_sub_comm y.re, abs_sub_comm y.im]

theorem closeTo.trans {a b : ℝ} {x y z : ℂ} (hxy : closeTo a x y) (hyz : closeTo b y z) : closeTo (a + b) x z := by
  obtain ⟨hre, him⟩ := hxy
  obtain ⟨hre', him'⟩ := hyz
  exact ⟨(abs_sub_le _ y.re _).trans (add_le_add hre hre'), (abs_sub_le _ y.im _).trans (add_le_add him him')⟩

theorem closeTo.add {a b : ℝ} {x y z w : ℂ} (hxy : closeTo a x y) (hzw : closeTo b z w) :
    closeTo (a + b) (x + z) (y + w) := by
  obtain ⟨hre, him⟩ := hxy
  obtain ⟨hre', him'⟩ := hzw
  rw [closeTo, Complex.add_re, Complex.add_re, Complex.add_im, Complex.add_im, add_sub_add_comm, add_sub_add_comm]
  exact ⟨(abs_add_le _ _).trans (add_le_add hre hre'), (abs_add_le _ _).trans (add_le_add him him')⟩

/-- Errors add up along a sum. -/
theorem closeTo.sum {a : ℝ} {N : Nat} {x y : Nat → ℂ} (h : ∀ n < N, closeTo a (x n) (y n)) :
    closeTo (N * a) (∑ n ∈ Finset.range N, x n) (∑ n ∈ Finset.range N, y n) := by
  induction N with
  | zero => simp [closeTo]
  | succ N ih =>
    rw [Finset.sum_range_succ, Finset.sum_range_succ, Nat.cast_succ, add_one_mul]
    exact (ih fun n hn => h n (hn.trans N.lt_succ_self)).add (h N N.lt_succ_self)

/-- A factor of at most unit length mixes the errors of both parts. -/
theorem closeTo.mul_right {a : ℝ} {x y w : ℂ} (h : closeTo a x y) (hw : ‖w‖ ≤ 1) : closeTo (2 * a) (x * w) (y * w) := by
  obtain ⟨hre, him⟩ := h
  have hwre : |w.re| ≤ 1 := (Complex.abs_re_le_norm w).trans hw
  have hwim : |w.im| ≤ 1 := (Complex.abs_im_le_norm w).trans hw
  have bound {d v : ℝ} (hd : |d| ≤ a) (hv : |v| ≤ 1) : |d * v| ≤ a := by
    rw [abs_mul]
    exact (mul_le_of_le_one_right (abs_nonneg d) hv).trans hd
  have split_re : (x * w).re - (y * w).re = (x.re - y.re) * w.re - (x.im - y.im) * w.im := by
    simp only [Complex.mul_re]
    ring
  have split_im : (x * w).im - (y * w).im = (x.re - y.re) * w.im + (x.im - y.im) * w.re := by
    simp only [Complex.mul_im]
    ring
  rw [closeTo, split_re, split_im, two_mul]
  exact ⟨(abs_sub _ _).trans (add_le_add (bound hre hwre) (bound him hwim)),
    (abs_add_le _ _).trans (add_le_add (bound hre hwim) (bound him hwre))⟩

/-! ## The number format of this machine -/

/-- Each function of `Config.num` denotes the exact operation, so that its error is 0. -/
theorem num_withinTolerance : withinTolerance Config.num 0 := by
  refine ⟨?add, ?mul, ?dft, ?idft, ?sqrt, ?pow10, ?round⟩
  case add => simp
  case mul => simp
  case dft => exact fun N x _ hx => ⟨dft_length N x, fun m hm => closeTo_of_eq (dft_elemVal hx hm)⟩
  case idft => exact fun N x _ hx => ⟨idft_length N x, fun n hn => closeTo_of_eq (idft_elemVal hx hn)⟩
  case sqrt =>
    intro x hx
    simp [realSqrt_of_nonneg hx]
  case pow10 => simp
  case round => simp

/-- Settles O58: the machine's `TOL` is 0, which `num_withinTolerance` reaches. -/
theorem numberFormatIsWithinTolerance : Obligations.NumberFormatIsWithinTolerance := by
  unfold Obligations.NumberFormatIsWithinTolerance
  have htol : (Config.tol : ℝ) = 0 := Rat.cast_zero
  rw [htol]
  exact num_withinTolerance

end Sys2Proof.Machine
end

section
/-! `DEMAP` on inexact symbols (42_cmac_dft R152, 41_symbolmapper R121, R126). -/

namespace Sys2Proof.Machine

open Sys2Proof

/-! ## Rounding -/

/-- Integers less than 1 apart are equal. -/
theorem int_eq_of_abs_sub_lt_one {m n : ℤ} (h : |(m : ℝ) - n| < 1) : m = n :=
  sub_eq_zero.mp (Int.abs_lt_one_iff.mp (by exact_mod_cast h))

theorem withinTolerance.round_val {f : NumFormat} {tol : ℝ} (hf : withinTolerance f tol) (htol : tol < 1) (x : Num) :
    (f.round x).val = roundReal x.val := by
  obtain ⟨-, -, -, -, -, -, hround⟩ := hf
  exact int_eq_of_abs_sub_lt_one ((hround x).trans_lt htol)

/-- A rounding lies within half a unit. -/
theorem abs_sub_roundReal_le (x : ℝ) : |x - roundReal x| ≤ 1 / 2 := by
  obtain ⟨hbelow, habove, htie⟩ := roundReal_isRounding x
  have hfloor := Int.floor_le x
  have hceil := Int.lt_floor_add_one x
  have hfl : (roundReal x = ⌊x⌋ ∧ x - ⌊x⌋ ≤ 1 / 2) ∨ (roundReal x = ⌊x⌋ + 1 ∧ 1 / 2 ≤ x - ⌊x⌋) := by
    rcases lt_trichotomy (x - ⌊x⌋) (1 / 2) with h | h | h
    · exact .inl ⟨hbelow h, h.le⟩
    · exact (htie h).imp (⟨·, h.le⟩) (⟨·, h.ge⟩)
    · exact .inr ⟨habove h, h.le⟩
  obtain ⟨hr, h⟩ | ⟨hr, h⟩ := hfl
  · rw [hr, abs_of_nonneg (by linarith)]
    exact h
  · rw [hr, Int.cast_add, Int.cast_one, abs_of_nonpos (by linarith)]
    linarith

/-- A number farther than `a` from every half-integer is less than `1/2 − a` from its rounding. -/
theorem abs_sub_roundReal_lt {a x : ℝ} (hfar : ∀ z : ℤ, a < |x - (z + 1 / 2)|) : |x - roundReal x| < 1 / 2 - a := by
  have hle := abs_le.mp (abs_sub_roundReal_le x)
  have habove := hfar (roundReal x)
  have hbelow := hfar (roundReal x - 1)
  rw [abs_of_nonpos (by linarith)] at habove
  rw [Int.cast_sub, Int.cast_one, abs_of_nonneg (by linarith)] at hbelow
  exact abs_lt.mpr ⟨by linarith, by linarith⟩

/-- An error that reaches no half-integer does not change the rounding. -/
theorem roundReal_eq_of_close {a x y : ℝ} (hyx : |y - x| ≤ a) (hfar : ∀ z : ℤ, a < |x - (z + 1 / 2)|) :
    roundReal y = roundReal x := by
  refine int_eq_of_abs_sub_lt_one ?_
  have hy : |(roundReal y : ℝ) - y| ≤ 1 / 2 := abs_sub_comm y _ ▸ abs_sub_roundReal_le y
  have hx := abs_sub_roundReal_lt hfar
  calc |(roundReal y : ℝ) - roundReal x|
      ≤ |(roundReal y : ℝ) - y| + (|y - x| + |x - roundReal x|) :=
        (abs_sub_le _ y _).trans (add_le_add_right (abs_sub_le y x _) _)
    _ < 1 := by linarith

/-! ## Demapping -/

/-- Where the exact part `x` is farther than `a` from every half-integer, a format rounds a Real within `a` of it to the
integer of exact arithmetic. -/
theorem withinTolerance.round_eq_of_close {f : NumFormat} {tol a : ℝ} (hf : withinTolerance f tol) (htol : tol < 1)
    {x y : Num} (hyx : |y.val - x.val| ≤ a) (hfar : ∀ z : ℤ, a < |x.val - (z + 1 / 2)|) :
    (f.round y).val = (Config.num.round x).val := by
  rw [hf.round_val htol, num_withinTolerance.round_val one_pos, roundReal_eq_of_close hyx hfar]

/-- Entry `i` of a demapped sequence, by the symbol it comes from. -/
theorem eq_demapSymbol_getD {f : NumFormat} {syms : List Cplx} {i : Nat} {p : IntPair}
    (h : (syms.map (demapSymbol f))[i]? = some p) :
    i < syms.length ∧ p = demapSymbol f (syms.getD i Cplx.zero) := by
  obtain ⟨z, hz, rfl⟩ : ∃ z, syms[i]? = some z ∧ demapSymbol f z = p := by simpa using h
  obtain ⟨hi, -⟩ := List.getElem?_eq_some_iff.mp hz
  exact ⟨hi, by simp [hz]⟩

/-- The integers recovered from inexact symbols, against those of exact arithmetic. -/
theorem withinTolerance.demap_eq_of_close {f : NumFormat} {tol a : ℝ} (hf : withinTolerance f tol) (htol : tol < 1)
    {syms syms' : List Cplx} (hclose : ∀ i < syms.length, closeTo a (elemVal syms' i) (elemVal syms i))
    {i : Nat} {p p' : IntPair} (hp : (syms.map (demapSymbol Config.num))[i]? = some p)
    (hp' : (syms'.map (demapSymbol f))[i]? = some p') :
    ((∀ z : ℤ, a < |(elemVal syms i).re - (z + 1 / 2)|) → p'.re.val = p.re.val) ∧
      ((∀ z : ℤ, a < |(elemVal syms i).im - (z + 1 / 2)|) → p'.im.val = p.im.val) := by
  obtain ⟨hi, rfl⟩ := eq_demapSymbol_getD hp
  obtain ⟨-, rfl⟩ := eq_demapSymbol_getD hp'
  obtain ⟨hre, him⟩ := hclose i hi
  exact ⟨hf.round_eq_of_close htol hre, hf.round_eq_of_close htol him⟩

theorem execIn_of_commandBody_ok {f : NumFormat} {i : Instr} {s t : State} (hs : s.faulted = false)
    (hb : commandBody f i s = .ok t) : execIn f i s = .next t :=
  runCommand_ok hs hb

/-- Settles O59: both cores demap symbol by symbol, and an error that reaches no half-integer does not change a
rounding. -/
theorem demapToleratesSmallErrors : Obligations.DemapToleratesSmallErrors := by
  unfold Obligations.DemapToleratesSmallErrors
  intro f tol tol' s s' syms syms' hf htol hs hs' hsyms hsyms' hlen hclose
  exact ⟨_, _, syms.map (demapSymbol Config.num), syms'.map (demapSymbol f),
    exec_of_commandBody_ok hs (demapBody_of_some hsyms), execIn_of_commandBody_ok hs' (demapBody_of_some hsyms'),
    rfl, rfl, List.length_map _, (List.length_map _).trans hlen.symm,
    fun _ _ _ hp hp' => hf.demap_eq_of_close htol hclose hp hp'⟩

end Sys2Proof.Machine
end

section
/-! The receive chain `RXALL` (30_encoding R86) in any number format (42_cmac_dft R152): what its commands write, how far
the received symbols lie from those of exact arithmetic, the statement. -/

namespace Sys2Proof.Machine

open Sys2Proof

/-! ## The commands of the chain -/

section

variable {f : NumFormat} {s : State} {is : List Instr} (hs : s.faulted = false)
include hs

theorem issueAll_toblk {x : List Cplx} (hn : s.okN = true) (h : s.rxwave = some x)
    (hl : x.length % (s.cfgN + s.cfgCp) = 0) :
    issueAll f (.toblk :: is) s = issueAll f is { s with rxblk := some (toBlocks s.cfgN s.cfgCp x) } :=
  issueAll_cons hs (by simp [commandBody, toblkBody, hn, h, hl])

theorem issueAll_tofreq {g : Grid} (hn : s.okN = true) (h : s.rxblk = some g) (hr : g.rows = s.cfgN) :
    issueAll f (.tofreq :: is) s = issueAll f is { s with rxgrid := some (toFrequencyDomain f s.cfgN g) } :=
  issueAll_cons hs (by simp [commandBody, tofreqBody, hn, h, hr])

theorem issueAll_flatrx {g : Grid} (h : s.rxgrid = some g) :
    issueAll f (.flatrx :: is) s = issueAll f is { s with rxflat := some g.data } :=
  issueAll_cons hs (by simp [commandBody, flatrxBody, h])

theorem issueAll_trunc {flat : List Cplx} {idx : List Nat} (h : s.rxflat = some flat) (hi : s.idx = some idx)
    (hl : idx.length ≤ flat.length) :
    issueAll f (.trunc :: is) s = issueAll f is { s with rxsym := some (flat.take idx.length) } :=
  issueAll_cons hs (by simp [commandBody, truncBody, h, hi, hl])

theorem issueAll_demap {syms : List Cplx} (h : s.rxsym = some syms) :
    issueAll f (.demap :: is) s = issueAll f is { s with rxint := some (syms.map (demapSymbol f)) } :=
  issueAll_cons hs (demapBody_of_some h)

/-- `RXALL` on whole blocks and an `IDX` that the received symbols cover (30_encoding R86, 45_ofdm_deframer R204). -/
theorem issueAll_rxall {x : List Cplx} {idx : List Nat} (hn : s.okN = true) (hx : s.rxwave = some x)
    (hl : x.length % (s.cfgN + s.cfgCp) = 0) (hi : s.idx = some idx)
    (hle : idx.length ≤ (deframe f x s.cfgN s.cfgCp).length) :
    issueAll f Pseudo.rxall.expand s = .next { s with
      rxblk := some (toBlocks s.cfgN s.cfgCp x)
      rxgrid := some (toFrequencyDomain f s.cfgN (toBlocks s.cfgN s.cfgCp x))
      rxflat := some (deframe f x s.cfgN s.cfgCp)
      rxsym := some ((deframe f x s.cfgN s.cfgCp).take idx.length)
      rxint := some (((deframe f x s.cfgN s.cfgCp).take idx.length).map (demapSymbol f)) } := by
  rw [← toFrequencyDomain_toBlocks f _ _ x hl] at hle ⊢
  -- `by exact` has each hypothesis about `s` checked of the state that the rewriting has reached.
  rw [Pseudo.expand, issueAll_toblk hs hn hx hl, issueAll_tofreq (by exact hs) (by exact hn) rfl rfl,
    issueAll_flatrx (by exact hs) rfl, issueAll_trunc (by exact hs) rfl (by exact hi) (by exact hle),
    issueAll_demap (by exact hs) rfl, issueAll]

end

/-! ## Elements of blocks -/

theorem elemVal_chunk {x : List Cplx} {n c i : Nat} (hi : i < n) : elemVal (chunk x n c) i = elemVal x (c * n + i) := by
  simp [elemVal, chunk, hi]

theorem elemVal_cprem (b : List Cplx) (p i : Nat) : elemVal (cprem b p) i = elemVal b (p + i) := by
  simp [elemVal, cprem]

theorem elemVal_take {x : List Cplx} {n i : Nat} (hi : i < n) : elemVal (x.take n) i = elemVal x i := by
  simp [elemVal, hi]

/-- The remover leaves `N` samples of each whole block (45_ofdm_deframer R203). -/
theorem cprem_chunk_length {N p : Nat} {x : List Cplx} (hl : x.length % (N + p) = 0) {c : Nat}
    (hc : c < x.length / (N + p)) : (cprem (chunk x (N + p) c) p).length = N := by
  have hx : x.length = (N + p) * (x.length / (N + p)) := (Nat.mul_div_cancel' (Nat.dvd_of_mod_eq_zero hl)).symm
  rw [cprem_length, chunk_length x (N + p) c _ hx hc, Nat.add_sub_cancel]

/-- What the remover leaves of block `c` lies inside the waveform. -/
theorem block_sample_lt {N p L c n : Nat} (hc : c < L / (N + p)) (hn : n < N) : c * (N + p) + (p + n) < L := by
  have h := Nat.mul_le_of_le_div _ _ _ (Nat.succ_le_of_lt hc)
  rw [Nat.succ_mul] at h
  omega

theorem elemVal_block {N p : Nat} (x : List Cplx) (c : Nat) {n : Nat} (hn : n < N) :
    elemVal (cprem (chunk x (N + p) c) p) n = elemVal x (c * (N + p) + (p + n)) := by
  rw [elemVal_cprem, elemVal_chunk (by omega)]

/-! ## The received symbols -/

/-- Symbol `m` of block `c` of a received waveform in exact arithmetic (42_cmac_dft R145, 45_ofdm_deframer R204). -/
noncomputable def exactSymbol (N p : Nat) (x : List Cplx) (c m : Nat) : ℂ :=
  ∑ n ∈ Finset.range N, elemVal x (c * (N + p) + (p + n)) * Complex.exp (-(2 * Real.pi * (m * n) / N) * Complex.I)

/-- An error of the samples reaches an exact symbol through `N` products with a twiddle factor. -/
theorem exactSymbol_close {N p : Nat} {x x' : List Cplx} {e : ℝ}
    (hclose : ∀ i < x.length, closeTo e (elemVal x' i) (elemVal x i)) {c : Nat} (hc : c < x.length / (N + p)) (m : Nat) :
    closeTo (N * (2 * e)) (exactSymbol N p x' c m) (exactSymbol N p x c m) := by
  refine closeTo.sum fun n hn => (hclose _ (block_sample_lt hc hn)).mul_right ?_
  have hunit : -(2 * Real.pi * (m * n) / N) * Complex.I = ((-(2 * Real.pi * (m * n) / N) : ℝ) : ℂ) * Complex.I := by
    push_cast
    rfl
  rw [hunit, Complex.norm_exp_ofReal_mul_I]

section

variable {f : NumFormat} {tol : ℝ} (hf : withinTolerance f tol) {N p : Nat} {x : List Cplx} (hN : 1 ≤ N)
  (hl : x.length % (N + p) = 0)
include hf hN hl

theorem withinTolerance.dft_block_length {c : Nat} (hc : c < x.length / (N + p)) :
    (f.dft N (cprem (chunk x (N + p) c) p)).length = N := by
  obtain ⟨-, -, hdft, -⟩ := hf
  exact (hdft N _ hN (cprem_chunk_length hl hc)).1

theorem withinTolerance.dft_block_close {c m : Nat} (hc : c < x.length / (N + p)) (hm : m < N) :
    closeTo tol (elemVal (f.dft N (cprem (chunk x (N + p) c) p)) m) (exactSymbol N p x c m) := by
  obtain ⟨-, -, hdft, -⟩ := hf
  have hsum : exactSymbol N p x c m = ∑ n ∈ Finset.range N, elemVal (cprem (chunk x (N + p) c) p) n *
      Complex.exp (-(2 * Real.pi * (m * n) / N) * Complex.I) :=
    Finset.sum_congr rfl fun n hn => by rw [elemVal_block x c (Finset.mem_range.mp hn)]
  rw [hsum]
  exact (hdft N _ hN (cprem_chunk_length hl hc)).2 m hm

theorem withinTolerance.deframe_length_eq : (deframe f x N p).length = x.length / (N + p) * N := by
  rw [Nat.mul_comm]
  exact flatMap_range_length _ _ fun c hc => hf.dft_block_length hN hl hc

/-- Symbol `i` of the deframed waveform is symbol `i % N` of block `i / N`. -/
theorem withinTolerance.deframe_close {i : Nat} (hi : i < x.length / (N + p) * N) :
    closeTo tol (elemVal (deframe f x N p) i) (exactSymbol N p x (i / N) (i % N)) := by
  have hc : i / N < x.length / (N + p) := Nat.div_lt_of_lt_mul (by rwa [Nat.mul_comm])
  have hm : i % N < N := Nat.mod_lt i hN
  have hblock : chunk (deframe f x N p) N (i / N) = f.dft N (cprem (chunk x (N + p) (i / N)) p) :=
    chunk_flatMap _ _ _ (fun c hc => hf.dft_block_length hN hl hc) hc
  have hpos : i / N * N + i % N = i := by rw [Nat.mul_comm, Nat.div_add_mod]
  rw [← congrArg (elemVal (deframe f x N p)) hpos, ← elemVal_chunk hm, hblock]
  exact hf.dft_block_close hN hl hc hm

/-- `TOL'` along the receive chain: `2·e` for each of the `N` samples of a block, and the transform's own `tol`. -/
theorem withinTolerance.deframe_close_exact {x' : List Cplx} {e : ℝ} (hlen : x'.length = x.length)
    (hclose : ∀ i < x.length, closeTo e (elemVal x' i) (elemVal x i)) {i : Nat} (hi : i < x.length / (N + p) * N) :
    closeTo (2 * N * e + tol) (elemVal (deframe f x' N p) i) (elemVal (deframe Config.num x N p) i) := by
  have hformat := hf.deframe_close hN (hlen ▸ hl) (hlen ▸ hi)
  have hsamples := exactSymbol_close hclose (Nat.div_lt_of_lt_mul (by rwa [Nat.mul_comm]) : i / N < _) (i % N)
  have hexact := (num_withinTolerance.deframe_close hN hl hi).symm
  convert hformat.trans (hsamples.trans hexact) using 1
  ring

end

/-- Settles O60: both chains complete, the symbols that `TRUNC` leaves lie within `TOL'` of each other, and from there on
`DEMAP` is as in `DemapToleratesSmallErrors`. -/
theorem receiveChainToleratesSmallErrors : Obligations.ReceiveChainToleratesSmallErrors := by
  unfold Obligations.ReceiveChainToleratesSmallErrors
  intro f tol e s s' x x' idx hf htol hs hs' hN hp hN1 hpN hx hx' hlen hl hclose hidx hidx' hle
  have hlen_num := num_withinTolerance.deframe_length_eq hN1 hl
  have hlen_f : (deframe f x' s.cfgN s.cfgCp).length = x.length / (s.cfgN + s.cfgCp) * s.cfgN :=
    hlen ▸ hf.deframe_length_eq hN1 (hlen ▸ hl)
  have hok : s.okN = true := (okN_iff s).mpr ⟨hN1, hpN⟩
  have hok' : s'.okN = true := (okN_iff s').mpr (by rw [hN, hp]; exact ⟨hN1, hpN⟩)
  refine ⟨_, _, _, _, _, issueAll_rxall hs hok hx hl hidx (hlen_num ▸ hle),
    issueAll_rxall hs' hok' hx' (by rwa [hN, hp, hlen]) hidx' (by rwa [hN, hp, hlen_f]), rfl, rfl, rfl, ?_, ?_,
    fun i p p' hp_i hp_i' => hf.demap_eq_of_close htol ?_ hp_i hp_i'⟩
  · simpa [hlen_num] using hle
  · simpa [hN, hp, hlen_f] using hle
  · intro i hi
    have hi : i < idx.length := (List.length_take_le _ _).trans_lt' hi
    rw [hN, hp, elemVal_take hi, elemVal_take hi]
    exact hf.deframe_close_exact hN1 hl hlen hclose (hi.trans_le hle)

end Sys2Proof.Machine
end

section
/-! The OFDMFramer commands `GRID` and `FLATTX` (43_ofdm_framer R160, R162): the outcomes of each command's body, the
elements it lays out, the statement. -/

namespace Sys2Proof.Machine

open Sys2Proof

/-! ## `GRID` -/

/-- What the E_CONFIG clauses of the framer and the deframer assume is that `okN` fails (10_state R26). -/
theorem okN_eq_false {s : State} (h : ¬ (1 ≤ s.cfgN ∧ s.cfgCp < s.cfgN)) : s.okN = false := by
  rwa [← okN_iff, Bool.not_eq_true] at h

theorem gridBody_of_not_okN {s : State} (h : s.okN = false) : gridBody s = .error .eConfig := by
  simp [gridBody, h]

theorem gridBody_of_none {s : State} (hn : s.okN = true) (h : s.sym = none) : gridBody s = .error .eSeq := by
  simp [gridBody, hn, h]

theorem gridBody_of_some {s : State} {syms : List Cplx} (hn : s.okN = true) (h : s.sym = some syms) :
    gridBody s = .ok { s with txgrid := some (buildGrid s.cfgN syms) } := by
  simp [gridBody, hn, h]

@[simp] theorem buildGrid_rows (N : Nat) (syms : List Cplx) : (buildGrid N syms).rows = N := rfl

theorem buildGrid_cols (N : Nat) (syms : List Cplx) : (buildGrid N syms).cols = syms.length ⌈/⌉ N :=
  (Nat.ceilDiv_eq_add_pred_div _ _).symm

/-- The columns hold the symbols, and no fewer columns do. -/
theorem buildGrid_cols_le_iff {N : Nat} (hN : 1 ≤ N) (syms : List Cplx) (q : Nat) :
    (buildGrid N syms).cols ≤ q ↔ syms.length ≤ q * N := by
  rw [buildGrid_cols, ceilDiv_le_iff_le_mul hN, Nat.mul_comm]

theorem buildGrid_data_length {N : Nat} (hN : 1 ≤ N) (syms : List Cplx) :
    (buildGrid N syms).data.length = (buildGrid N syms).rows * (buildGrid N syms).cols :=
  wellFormed_length (buildGrid_wf N syms hN)

theorem buildGrid_data_getElem?_of_lt (N : Nat) {syms : List Cplx} {n : Nat} (hn : n < syms.length) :
    (buildGrid N syms).data[n]? = syms[n]? :=
  List.getElem?_append_left hn

theorem buildGrid_data_getElem?_of_le (N : Nat) {syms : List Cplx} {n : Nat} (hn : syms.length ≤ n)
    (hlt : n < (buildGrid N syms).data.length) : (buildGrid N syms).data[n]? = some Cplx.zero := by
  simp only [buildGrid, List.length_append, List.length_replicate] at hlt ⊢
  rw [List.getElem?_append_right hn, List.getElem?_replicate, if_pos (by omega)]

/-- Settles O32: `GRID` writes `buildGrid`, whose columns are the rounded-up quotient of the number of symbols by `N`
and whose data past the symbols is the complex zero. -/
theorem gridPadsWithComplexZero : Obligations.GridPadsWithComplexZero := by
  unfold Obligations.GridPadsWithComplexZero
  refine ⟨by decide, fun s hs => ⟨fun h => ?_, fun h => ?_⟩⟩
  · exact faultsWith_of_commandBody_error hs (gridBody_of_not_okN (okN_eq_false h))
  · have hn : s.okN = true := (okN_iff s).mpr h
    obtain ⟨hN, -⟩ := h
    refine ⟨fun h => faultsWith_of_commandBody_error hs (gridBody_of_none hn h), fun syms h => ?_⟩
    refine ⟨buildGrid s.cfgN syms, exec_of_commandBody_ok hs (gridBody_of_some hn h), buildGrid_rows _ _,
      (buildGrid_cols_le_iff hN syms _).mp le_rfl, fun q hq => (buildGrid_cols_le_iff hN syms q).mpr hq,
      buildGrid_data_length hN syms, fun n hlt => buildGrid_data_getElem?_of_lt _ hlt, fun n hle hlt => ?_⟩
    rw [← buildGrid_data_length hN] at hlt
    rw [buildGrid_data_getElem?_of_le _ hle hlt, Option.map_some, Cplx.val_zero]

/-! ## `FLATTX` -/

theorem flattxBody_of_none {s : State} (h : s.txblk = none) : flattxBody s = .error .eSeq := by
  simp [flattxBody, h]

theorem flattxBody_of_some {s : State} {g : Grid} (h : s.txblk = some g) :
    flattxBody s = .ok { s with txwave := some g.data } := by
  simp [flattxBody, h]

/-- Element (row `r`, column `c`) stands inside the data of a Grid in form (00_scope R14, 10_state R31). -/
theorem gridPos_lt_length {g : Grid} (h : g.wellFormed = true) {r c : Nat} (hr : r < g.rows) (hc : c < g.cols) :
    c * g.rows + r < g.data.length := by
  calc c * g.rows + r
      < (c + 1) * g.rows := by rw [Nat.succ_mul]; omega
    _ ≤ g.cols * g.rows := Nat.mul_le_mul_right _ hc
    _ = g.data.length := by rw [wellFormed_length h, Nat.mul_comm]

/-- The data of a Grid in form holds the columns in order, down the rows of each. -/
theorem data_getElem?_eq_gridElem {g : Grid} (h : g.wellFormed = true) {r c : Nat} (hr : r < g.rows) (hc : c < g.cols) :
    g.data[c * g.rows + r]? = some (gridElem g r c) := by
  have hpos := gridPos_lt_length h hr hc
  rw [gridElem, List.getD_eq_getElem _ _ hpos, List.getElem?_eq_getElem hpos]

/-- Settles O34: `FLATTX` writes the data of the Grid, which holds the blocks column by column. -/
theorem flattxConcatenatesBlocks : Obligations.FlattxConcatenatesBlocks := by
  unfold Obligations.FlattxConcatenatesBlocks
  refine ⟨by decide, fun s hs => ⟨fun h => ?_, fun g h hg => ?_⟩⟩
  · exact faultsWith_of_commandBody_error hs (flattxBody_of_none h)
  · exact ⟨g.data, exec_of_commandBody_ok hs (flattxBody_of_some h), (wellFormed_length hg).trans (Nat.mul_comm _ _),
      fun c hc i hi => data_getElem?_eq_gridElem hg hi hc⟩

end Sys2Proof.Machine
end

section
/-! The ChannelModel command `CHAN` (44_channel R180 to R183): the outcomes of its body, the noise that one use of the
noise source gives, the statement. -/

namespace Sys2Proof.Machine

open Sys2Proof

theorem chanBody_of_none {f : NumFormat} {s : State} (h : s.txwave = none) : chanBody f s = .error .eSeq := by
  simp [chanBody, h]

theorem chanBody_of_some {f : NumFormat} {s : State} {x : List Cplx} (h : s.txwave = some x) :
    chanBody f s = .ok { s with
      rxwave := some (channel f x s.cfgSnrNom (noise f s.nomSeed x.length s.noiseScript s.freeIdx).w)
      noiseScript := (noise f s.nomSeed x.length s.noiseScript s.freeIdx).script
      freeIdx := (noise f s.nomSeed x.length s.noiseScript s.freeIdx).free } := by
  simp [chanBody, h]

/-- A seeded sample depends on the seed value alone, whatever script waits (notes/assumptions/17.md). -/
theorem noiseVal_of_seeded {seed : Seed} (h : seed.en = true) (script : Option NoiseScript) (free i : Nat) :
    noiseVal seed script free i =
      (Config.ngSeq seed.val (2 * i) + Config.ngSeq seed.val (2 * i + 1) * Complex.I) / Real.sqrt 2 :=
  if_pos h

/-- An unseeded sample that no script fixes is two free values over √2 (notes/assumptions/6.md, 7.md). -/
theorem noiseVal_of_unscripted {seed : Seed} (h : seed.en = false) (free i : Nat) :
    noiseVal seed none free i =
      (Config.drawReal (free + 2 * i) + Config.drawReal (free + 2 * i + 1) * Complex.I) / Real.sqrt 2 := by
  simp [noiseVal, h]

/-- The noise source gives a sequence that the spec allows. -/
theorem noise_allowed (seed : Seed) (L : Nat) (script : List NoiseScript) (free : Nat) :
    noiseAllowed seed L (noise Config.num seed L script free).w :=
  ⟨noise_length .., fun hen i hi => by rw [noise_elemVal _ _ _ _ _ hi, noiseVal_of_seeded hen]⟩

/-- Settles O35: `CHAN` adds one use of the noise source, scaled by `sigma`; the source's seeded samples are those of
`noiseVal_of_seeded`, its unscripted ones those of `noiseVal_of_unscripted`. -/
theorem chanAddsScaledNoise : Obligations.ChanAddsScaledNoise := by
  unfold Obligations.ChanAddsScaledNoise
  refine ⟨by decide, fun s hs => ⟨fun h => ?_, fun x h => ?_⟩⟩
  · exact faultsWith_of_commandBody_error hs (chanBody_of_none h)
  · have hlen := noise_length Config.num s.nomSeed x.length s.noiseScript s.freeIdx
    refine ⟨_, _, _, _, exec_of_commandBody_ok hs (chanBody_of_some h), channel_length _ x _ _ hlen,
      noise_allowed .., fun i hi => channel_elemVal x _ _ hlen i hi, fun hen => ⟨?_, ?_⟩,
      fun hen hscript => ⟨?_, fun i hi => ?_⟩⟩
    · rw [noise_script, if_pos hen]
    · rw [noise_free, if_pos hen]
    · simp [noise_free, hen]
    · rw [noise_elemVal _ _ _ _ _ hi, hscript]
      exact noiseVal_of_unscripted hen _ _

end Sys2Proof.Machine
end

section
/-! The OFDMDeframer commands `TOBLK`, `FLATRX` and `TRUNC` (45_ofdm_deframer R200, R202, R206), and `deframe` as
what the receive chain leaves (R204): the outcomes of each command, the elements it lays out, the statements. -/

namespace Sys2Proof.Machine

open Sys2Proof

/-! ## `TOBLK` -/

theorem toblkBody_of_not_okN {s : State} (h : s.okN = false) : toblkBody s = .error .eConfig := by
  simp [toblkBody, h]

theorem toblkBody_of_none {s : State} (hn : s.okN = true) (h : s.rxwave = none) : toblkBody s = .error .eSeq := by
  simp [toblkBody, hn, h]

theorem toblkBody_of_not_whole {s : State} {x : List Cplx} (hn : s.okN = true) (h : s.rxwave = some x)
    (hl : x.length % (s.cfgN + s.cfgCp) ≠ 0) : toblkBody s = .error .eShape := by
  simp [toblkBody, hn, h, hl]

theorem exec_toblk {s : State} {x : List Cplx} (hs : s.faulted = false) (hn : s.okN = true) (h : s.rxwave = some x)
    (hl : x.length % (s.cfgN + s.cfgCp) = 0) :
    exec .toblk s = .next { s with rxblk := some (toBlocks s.cfgN s.cfgCp x) } :=
  exec_of_commandBody_ok hs (by simp [commandBody, toblkBody, hn, h, hl])

/-- Row `r` of column `c` is sample `p + r` of block `c` (45_ofdm_deframer R203). -/
theorem gridElem_toBlocks {N p : Nat} {x : List Cplx} (hl : x.length % (N + p) = 0) {c r : Nat}
    (hc : c < x.length / (N + p)) (hr : r < N) :
    gridElem (toBlocks N p x) r c = x.getD (c * (N + p) + (p + r)) Cplx.zero := by
  have hin : p + r < N + p := by omega
  rw [← col_getD (toBlocks N p x) r c hr, toBlocks_col N p x hl c hc]
  simp [cprem, chunk, hin]

/-- The waveform holds every element of its blocks. -/
theorem getElem?_eq_gridElem_toBlocks {N p : Nat} {x : List Cplx} (hl : x.length % (N + p) = 0) {c r : Nat}
    (hc : c < x.length / (N + p)) (hr : r < N) :
    x[c * (N + p) + p + r]? = some (gridElem (toBlocks N p x) r c) := by
  have hpos := block_sample_lt hc hr
  rw [gridElem_toBlocks hl hc hr, Nat.add_assoc, List.getD_eq_getElem _ _ hpos, List.getElem?_eq_getElem hpos]

/-- Settles O38: `TOBLK` writes `toBlocks`, a Grid in form whose elements stand behind the prefixes of the waveform's
blocks. -/
theorem toblkStripsThePrefix : Obligations.ToblkStripsThePrefix := by
  unfold Obligations.ToblkStripsThePrefix
  refine ⟨by decide, fun s hs => ⟨fun h => ?_, fun h => ?_⟩⟩
  · exact faultsWith_of_commandBody_error hs (toblkBody_of_not_okN (okN_eq_false h))
  · have hn : s.okN = true := (okN_iff s).mpr h
    refine ⟨fun h => faultsWith_of_commandBody_error hs (toblkBody_of_none hn h),
      fun x h => ⟨fun hl => ?_, fun hl => ?_⟩⟩
    · exact faultsWith_of_commandBody_error hs (toblkBody_of_not_whole hn h hl)
    · exact ⟨toBlocks s.cfgN s.cfgCp x, exec_toblk hs hn h hl, rfl, rfl,
        wellFormed_length (toBlocks_wf _ _ x hl), fun c hc r hr => getElem?_eq_gridElem_toBlocks hl hc hr⟩

/-! ## `FLATRX` -/

theorem flatrxBody_of_none {s : State} (h : s.rxgrid = none) : flatrxBody s = .error .eSeq := by
  simp [flatrxBody, h]

theorem exec_flatrx {s : State} {g : Grid} (hs : s.faulted = false) (h : s.rxgrid = some g) :
    exec .flatrx s = .next { s with rxflat := some g.data } :=
  exec_of_commandBody_ok hs (by simp [commandBody, flatrxBody, h])

/-- Settles O40: `FLATRX` writes the data of the Grid, which holds the columns in order. -/
theorem flatrxReadsColumnsInOrder : Obligations.FlatrxReadsColumnsInOrder := by
  unfold Obligations.FlatrxReadsColumnsInOrder
  refine ⟨by decide, fun s hs => ⟨fun h => ?_, fun g h hg => ?_⟩⟩
  · exact faultsWith_of_commandBody_error hs (flatrxBody_of_none h)
  · exact ⟨g.data, exec_flatrx hs h, wellFormed_length hg, fun c hc r hr => data_getElem?_eq_gridElem hg hr hc⟩

/-! ## `TRUNC` -/

theorem truncBody_of_none {s : State} (h : s.rxflat = none ∨ s.idx = none) : truncBody s = .error .eSeq := by
  obtain h | h := h
  · simp [truncBody, h]
  · cases hflat : s.rxflat <;> simp [truncBody, h, hflat]

theorem truncBody_of_short {s : State} {flat : List Cplx} {idx : List Nat} (h : s.rxflat = some flat)
    (hi : s.idx = some idx) (hl : flat.length < idx.length) : truncBody s = .error .eShape := by
  simp [truncBody, h, hi, hl]

theorem exec_trunc {s : State} {flat : List Cplx} {idx : List Nat} (hs : s.faulted = false) (h : s.rxflat = some flat)
    (hi : s.idx = some idx) (hl : idx.length ≤ flat.length) :
    exec .trunc s = .next { s with rxsym := some (flat.take idx.length) } :=
  exec_of_commandBody_ok hs (by simp [commandBody, truncBody, h, hi, hl])

/-- Settles O41: `TRUNC` takes as many elements of `RXFLAT` as `IDX` has, which is all of them at equal lengths. -/
theorem truncKeepsOriginalCount : Obligations.TruncKeepsOriginalCount := by
  unfold Obligations.TruncKeepsOriginalCount
  refine ⟨by decide, fun s hs => ⟨fun h => ?_, fun flat idx h hi => ⟨fun hl => ?_, fun hl => ?_⟩⟩⟩
  · exact faultsWith_of_commandBody_error hs (truncBody_of_none h)
  · exact faultsWith_of_commandBody_error hs (truncBody_of_short h hi hl)
  · exact ⟨flat.take idx.length, exec_trunc hs h hi hl, List.length_take_of_le hl,
      fun i hlt => List.getElem?_take_of_lt hlt⟩

/-! ## The receive chain -/

/-- `TOFREQ` on a Grid of the configured size (45_ofdm_deframer R201). -/
theorem exec_tofreq {s : State} {g : Grid} (hs : s.faulted = false) (hn : s.okN = true) (h : s.rxblk = some g)
    (hr : g.rows = s.cfgN) :
    exec .tofreq s = .next { s with rxgrid := some (toFrequencyDomain Config.num s.cfgN g) } :=
  exec_of_commandBody_ok hs (by simp [commandBody, tofreqBody, hn, h, hr])

/-- Symbol `m` of block `c` of the deframed waveform (45_ofdm_deframer R204, 42_cmac_dft R145). -/
theorem deframe_elemVal {N p : Nat} {x : List Cplx} (hl : x.length % (N + p) = 0) {c m : Nat}
    (hc : c < x.length / (N + p)) (hm : m < N) :
    elemVal (deframe Config.num x N p) (c * N + m) = exactSymbol N p x c m := by
  have hblock : chunk (deframe Config.num x N p) N c = dft N (cprem (chunk x (N + p) c) p) :=
    chunk_flatMap _ _ _ (fun _ _ => dft_length N _) hc
  rw [← elemVal_chunk hm, hblock, dft_elemVal (cprem_chunk_length hl hc) hm, exactSymbol]
  exact Finset.sum_congr rfl fun n hn => by rw [elemVal_block x c (Finset.mem_range.mp hn)]

/-- Settles O56: the commands leave the transformed blocks one after the other, which is `deframe`; its elements are
those of `deframe_elemVal`. -/
theorem deframeIsTheReceiveChain : Obligations.DeframeIsTheReceiveChain := by
  unfold Obligations.DeframeIsTheReceiveChain
  intro s x hs hN hp hx hl
  have hn : s.okN = true := (okN_iff s).mpr ⟨hN, hp⟩
  have hflat := toFrequencyDomain_toBlocks Config.num s.cfgN s.cfgCp x hl
  -- `by exact` has each hypothesis about `s` checked of the state that the chain has reached.
  -- `by exact` has each hypothesis about `s` checked of the state that the commands before have reached.
  refine ⟨_, _, _, exec_toblk hs hn hx hl, exec_tofreq (by exact hs) (by exact hn) rfl rfl,
    exec_flatrx (by exact hs) rfl, by exact hs, congrArg some hflat, deframe_length x _ _, fun c hc m hm => ?_⟩
  simpa only [exactSymbol, Nat.add_assoc] using deframe_elemVal hl hc hm

end Sys2Proof.Machine
end

section
/-! The SweepEvaluator command `SWEEP` (46_sweep R220 to R222, R224, R228): the outcomes of its body, the noisy waveform
and the integers of one trial, the free rates of an empty payload, the statements. -/

namespace Sys2Proof.Machine

open Sys2Proof

/-! ## The outcomes of the command -/

theorem sweepBody_of_bad_config {f : NumFormat} {s : State} (h : (s.okN && s.okSweep) = false) :
    sweepBody f s = .error .eConfig := by
  simp [sweepBody, h]

theorem sweepBody_of_none {f : NumFormat} {s : State} (hc : (s.okN && s.okSweep) = true)
    (h : s.idx = none ∨ s.txwave = none) : sweepBody f s = .error .eSeq := by
  obtain h | h := h
  · simp [sweepBody, hc, h]
  · cases hi : s.idx <;> simp [sweepBody, hc, h, hi]

theorem sweepBody_of_not_whole {f : NumFormat} {s : State} {idx : List Nat} {wave : List Cplx}
    (hc : (s.okN && s.okSweep) = true) (hi : s.idx = some idx) (hw : s.txwave = some wave)
    (hl : wave.length % (s.cfgN + s.cfgCp) ≠ 0) : sweepBody f s = .error .eShape := by
  simp [sweepBody, hc, hi, hw, hl]

theorem sweepBody_of_short {f : NumFormat} {s : State} {idx : List Nat} {wave : List Cplx}
    (hc : (s.okN && s.okSweep) = true) (hi : s.idx = some idx) (hw : s.txwave = some wave)
    (hle : wave.length / (s.cfgN + s.cfgCp) * s.cfgN < idx.length) : sweepBody f s = .error .eShape := by
  simp [sweepBody, hc, hi, hw, hle]

theorem exec_sweep {s : State} {idx : List Nat} {wave : List Cplx} (hs : s.faulted = false)
    (hc : (s.okN && s.okSweep) = true) (hi : s.idx = some idx) (hw : s.txwave = some wave)
    (hl : wave.length % (s.cfgN + s.cfgCp) = 0) (hle : idx.length ≤ wave.length / (s.cfgN + s.cfgCp) * s.cfgN) :
    exec .sweep s = .next { s with
      result := some (sweepTrials Config.num idx wave s.cfgN s.cfgCp s.sweepEntries s.noiseScript s.freeIdx).result
      noiseScript := (sweepTrials Config.num idx wave s.cfgN s.cfgCp s.sweepEntries s.noiseScript s.freeIdx).script
      freeIdx := (sweepTrials Config.num idx wave s.cfgN s.cfgCp s.sweepEntries s.noiseScript s.freeIdx).free } :=
  exec_of_commandBody_ok hs (by simp [commandBody, sweepBody, hc, hi, hw, hl, Nat.not_lt.mpr hle])

/-- The configuration test of `SWEEP` in the numbers it is about (10_state R26). -/
theorem sweepConfig_iff (s : State) : (s.okN && s.okSweep) = true ↔
    1 ≤ s.cfgN ∧ s.cfgCp < s.cfgN ∧ ∀ t u, t < u → u < s.cfgSweepLen →
      (sweepRead s.sweepTable t).snr.val ≠ (sweepRead s.sweepTable u).snr.val := by
  rw [Bool.and_eq_true, okN_iff, okSweep_iff, and_assoc]

/-! ## The configured entries -/

theorem sweepEntries_snr (s : State) :
    s.sweepEntries.map (·.snr) = (List.range s.cfgSweepLen).map fun t => (sweepRead s.sweepTable t).snr :=
  List.map_map

@[simp] theorem sweepEntries_length (s : State) : s.sweepEntries.length = s.cfgSweepLen := by
  simp [State.sweepEntries]

theorem unseeded_sweepEntries (s : State) : unseeded s.sweepEntries = unseededBefore s s.cfgSweepLen := by
  rw [← unseeded_take_sweepEntries s _ le_rfl, List.take_of_length_le (sweepEntries_length s).le]

theorem sweepEntries_getElem? {s : State} {t : Nat} (ht : t < s.cfgSweepLen) :
    s.sweepEntries[t]? = some (sweepRead s.sweepTable t) := by
  simp [State.sweepEntries, ht]

theorem sweepTrials_length (f : NumFormat) (idx : List Nat) (wave : List Cplx) (N p : Nat) (es : List SweepEntry)
    (script : List NoiseScript) (free : Nat) :
    (sweepTrials f idx wave N p es script free).result.length = es.length := by
  simpa using congrArg List.length (sweepTrials_keys f idx wave N p es script free)

/-- Position `i` lies in a block of the waveform that holds `n` positions. -/
theorem position_block_lt {i n N nb : Nat} (hle : n ≤ nb * N) (hi : i < n) : i / N < nb :=
  Nat.div_lt_of_lt_mul (Nat.mul_comm nb N ▸ hi.trans_le hle)

/-! ## One trial -/

/-- The waveform that the trial of sweep entry `e` receives (46_sweep R221). -/
def noisyWave (wave : List Cplx) (e : SweepEntry) (script : List NoiseScript) (free : Nat) : List Cplx :=
  channel Config.num wave e.snr (noise Config.num e.seed wave.length script free).w

@[simp] theorem noisyWave_length (wave : List Cplx) (e : SweepEntry) (script : List NoiseScript) (free : Nat) :
    (noisyWave wave e script free).length = wave.length :=
  channel_length _ _ _ _ (noise_length ..)

theorem noisyWave_elemVal {wave : List Cplx} {j : Nat} (hj : j < wave.length) (e : SweepEntry)
    (script : List NoiseScript) (free : Nat) :
    elemVal (noisyWave wave e script free) j =
      elemVal wave j + Real.sqrt ((10 : ℝ) ^ (-e.snr.val / 10)) * noiseVal e.seed script[0]? free j := by
  rw [noisyWave, channel_elemVal _ _ _ (noise_length ..) _ hj, noise_elemVal _ _ _ _ _ hj]

/-- The integers that the trial of sweep entry `e` recovers (46_sweep R221). -/
noncomputable def trialIntegers (n : Nat) (wave : List Cplx) (N p : Nat) (e : SweepEntry) (script : List NoiseScript)
    (free : Nat) : List ℤ :=
  (recovered Config.num (deframe Config.num (noisyWave wave e script free) N p) n).map IntTerm.val

theorem trialIntegers_length {n N p : Nat} {wave : List Cplx} (hle : n ≤ wave.length / (N + p) * N) (e : SweepEntry)
    (script : List NoiseScript) (free : Nat) : (trialIntegers n wave N p e script free).length = n := by
  rw [Nat.mul_comm] at hle
  simp [trialIntegers, recovered, deframe_length, hle]

theorem recovered_isRounding {flat : List Cplx} {n i : Nat} (hi : i < n) (hn : n ≤ flat.length) :
    isRounding (((recovered Config.num flat n).map IntTerm.val).getD i 0) (elemVal flat i).re := by
  have hlt : i < flat.length := by omega
  simpa [recovered, elemVal, hi, hlt] using round_isRounding flat[i].re

/-- Integer `i` of a trial rounds the symbol of position `i`: block `i / N`, subcarrier `i % N`. -/
theorem trialIntegers_isRounding {n N p i : Nat} {wave : List Cplx} (hl : wave.length % (N + p) = 0)
    (hle : n ≤ wave.length / (N + p) * N) (hi : i < n) (e : SweepEntry) (script : List NoiseScript) (free : Nat) :
    isRounding ((trialIntegers n wave N p e script free).getD i 0)
      (exactSymbol N p (noisyWave wave e script free) (i / N) (i % N)).re := by
  have hN : 0 < N := Nat.pos_of_ne_zero (by rintro rfl; omega)
  rw [← deframe_elemVal (by simpa using hl) (by simpa using position_block_lt hle hi) (Nat.mod_lt i hN),
    Nat.div_add_mod']
  exact recovered_isRounding hi (by rw [deframe_length, noisyWave_length, Nat.mul_comm]; exact hle)

/-- A symbol of the noisy waveform in the samples sent and the noise drawn (44_channel R181, 42_cmac_dft R145). -/
theorem exactSymbol_noisyWave {N p c : Nat} {wave : List Cplx} (hc : c < wave.length / (N + p)) (m : Nat)
    (e : SweepEntry) (script : List NoiseScript) (free : Nat) :
    exactSymbol N p (noisyWave wave e script free) c m =
      ∑ n ∈ Finset.range N,
        let j := c * (N + p) + p + n
        (elemVal wave j + Real.sqrt ((10 : ℝ) ^ (-e.snr.val / 10)) * noiseVal e.seed script[0]? free j) *
          Complex.exp (-(2 * Real.pi * (m * n) / N) * Complex.I) := by
  refine Finset.sum_congr rfl fun n hn => ?_
  rw [noisyWave_elemVal (block_sample_lt hc (Finset.mem_range.mp hn)), Nat.add_assoc]

theorem mismatches_zip (rec : List IntTerm) (idx : List Nat) :
    mismatches (rec.zip idx) = ((rec.map IntTerm.val).zip idx).countP fun p => decide (p.1 ≠ (p.2 : ℤ)) := by
  rw [List.zip_map_left, List.countP_map]
  rfl

/-- The rate of a trial is the quotient of the integers that differ from their index (46_sweep R222). -/
theorem trial_rate_val {idx : List Nat} (h : idx ≠ []) (wave : List Cplx) (N p : Nat) (e : SweepEntry)
    (script : List NoiseScript) (free : Nat) :
    (trial Config.num idx wave N p e script free).rate.val =
      ((((trialIntegers idx.length wave N p e script free).zip idx).countP
        fun p => decide (p.1 ≠ (p.2 : ℤ)) : Nat) : ℝ) / (idx.length : ℝ) := by
  rw [trial, if_neg (by simpa using h)]
  exact (errorRate_val _ _).trans (by rw [mismatches_zip]; rfl)

/-- Settles O43: entry `t` of the result is the trial of sweep entry `t`, whose integers round the symbols of the noisy
waveform. -/
theorem sweepMeasuresEveryTrial : Obligations.SweepMeasuresEveryTrial := by
  unfold Obligations.SweepMeasuresEveryTrial
  refine ⟨by decide, fun s hs => ⟨fun h => ?_, fun h => ?_⟩⟩
  · exact faultsWith_of_commandBody_error hs
      (sweepBody_of_bad_config (by rwa [← sweepConfig_iff, Bool.not_eq_true] at h))
  have hc := (sweepConfig_iff s).mpr h
  refine ⟨fun h => faultsWith_of_commandBody_error hs (sweepBody_of_none hc h),
    fun idx wave hi hw => ⟨fun h => ?_, fun hl hle => ?_⟩⟩
  · obtain hl | hle := h
    · exact faultsWith_of_commandBody_error hs (sweepBody_of_not_whole hc hi hw hl)
    · exact faultsWith_of_commandBody_error hs (sweepBody_of_short hc hi hw hle)
  refine ⟨_, _, _, exec_sweep hs hc hi hw hl hle, (sweepTrials_keys ..).trans (sweepEntries_snr s),
    fun hne => ?_, fun t key rate hentry hne => ?_⟩
  · rw [← unseeded_sweepEntries]
    exact sweepTrials_leaves _ _ _ _ _ hne _ _ _
  · have ht := (List.getElem?_eq_some_iff.mp hentry).1
    rw [sweepTrials_length, sweepEntries_length] at ht
    rw [sweepTrials_entry _ _ _ _ _ hne _ _ _ _ _ (sweepEntries_getElem? ht),
      unseeded_take_sweepEntries s t ht.le] at hentry
    obtain ⟨-, rfl⟩ := Prod.mk.inj (Option.some.inj hentry)
    refine ⟨_, trialIntegers_length hle _ _ _, fun i hlt => ?_, trial_rate_val hne ..⟩
    have hround := trialIntegers_isRounding hl hle hlt (sweepRead s.sweepTable t)
      (s.noiseScript.drop (unseededBefore s t)) (s.freeIdx + 2 * wave.length * unseededBefore s t)
    rw [exactSymbol_noisyWave (position_block_lt hle hlt)] at hround
    simpa only [List.getElem?_drop, Nat.add_zero] using hround

/-! ## The empty payload -/

theorem noise_free_le (f : NumFormat) (seed : Seed) (L : Nat) (script : List NoiseScript) (free : Nat) :
    free ≤ (noise f seed L script free).free := by
  rw [noise_free]
  split <;> omega

/-- Beside the noise of its trial, each entry takes one free value, which is its rate. -/
theorem sweepTrials_empty_cons_rates (f : NumFormat) (wave : List Cplx) (N p : Nat) (e : SweepEntry)
    (es : List SweepEntry) (script : List NoiseScript) (free : Nat) :
    (sweepTrials f [] wave N p (e :: es) script free).result.map (·.2) =
      .undetermined (noise f e.seed wave.length script free).free ::
        (sweepTrials f [] wave N p es (noise f e.seed wave.length script free).script
          ((noise f e.seed wave.length script free).free + 1)).result.map (·.2) :=
  rfl

theorem sweepTrials_empty_cons_free (f : NumFormat) (wave : List Cplx) (N p : Nat) (e : SweepEntry)
    (es : List SweepEntry) (script : List NoiseScript) (free : Nat) :
    (sweepTrials f [] wave N p (e :: es) script free).free =
      (sweepTrials f [] wave N p es (noise f e.seed wave.length script free).script
        ((noise f e.seed wave.length script free).free + 1)).free :=
  rfl

/-- With no original index a sweep only moves the counter of the free values on. -/
theorem sweepTrials_empty_free_le (f : NumFormat) (wave : List Cplx) (N p : Nat) (es : List SweepEntry)
    (script : List NoiseScript) (free : Nat) : free ≤ (sweepTrials f [] wave N p es script free).free := by
  induction es generalizing script free with
  | nil => exact le_rfl
  | cons e es ih =>
    rw [sweepTrials_empty_cons_free]
    exact (Nat.le_succ_of_le (noise_free_le ..)).trans (ih _ _)

/-- With no original index every rate is a free value that the sweep itself numbers (46_sweep R224). -/
theorem sweepTrials_empty_rate {f : NumFormat} {wave : List Cplx} {N p : Nat} {es : List SweepEntry}
    {script : List NoiseScript} {free : Nat} {r : Rate}
    (hr : r ∈ (sweepTrials f [] wave N p es script free).result.map (·.2)) :
    ∃ k, free ≤ k ∧ k < (sweepTrials f [] wave N p es script free).free ∧ r = .undetermined k := by
  induction es generalizing script free with
  | nil => cases hr
  | cons e es ih =>
    have hnoise := noise_free_le f e.seed wave.length script free
    rw [sweepTrials_empty_cons_rates] at hr
    rw [sweepTrials_empty_cons_free]
    obtain rfl | hr := List.mem_cons.mp hr
    · exact ⟨_, hnoise, sweepTrials_empty_free_le .., rfl⟩
    · obtain ⟨k, hk, hlt, rfl⟩ := ih hr
      exact ⟨k, by omega, hlt, rfl⟩

/-- The trials after one take free values with higher numbers, so that no two rates are the same one. -/
theorem sweepTrials_empty_nodup (f : NumFormat) (wave : List Cplx) (N p : Nat) (es : List SweepEntry)
    (script : List NoiseScript) (free : Nat) :
    ((sweepTrials f [] wave N p es script free).result.map (·.2)).Nodup := by
  induction es generalizing script free with
  | nil => exact List.nodup_nil
  | cons e es ih =>
    rw [sweepTrials_empty_cons_rates]
    refine List.nodup_cons.mpr ⟨fun hmem => ?_, ih _ _⟩
    obtain ⟨k, hk, -, heq⟩ := sweepTrials_empty_rate hmem
    cases heq
    omega

/-- Settles O44: the rates are free values that this sweep numbers, each trial's higher than those before it. -/
theorem sweepOfEmptyPayloadIsFree : Obligations.SweepOfEmptyPayloadIsFree := by
  unfold Obligations.SweepOfEmptyPayloadIsFree
  intro s wave hs hn hsnr hi hw hl
  refine ⟨_, _, exec_sweep hs (by simp [hn, hsnr]) hi hw hl (Nat.zero_le _), rfl,
    (sweepTrials_keys ..).trans (sweepEntries_snr s), fun e he => ?_, sweepTrials_empty_nodup ..⟩
  obtain ⟨k, hk, hlt, hrate⟩ := sweepTrials_empty_rate (List.mem_map_of_mem he)
  exact ⟨k, hk, hlt, by rw [hrate, Rate.val]⟩

end Sys2Proof.Machine
end

section
/-! The output boundary `REPACK` and `NOP` (47_output_and_misc R240, R241, R245): the bits of bytes in a row and where
those of one byte stand, the bytes that `REPACK` writes, the statements. -/

namespace Sys2Proof.Machine

open Sys2Proof

/-! ## The bits of bytes in a row -/

theorem divBits_eq_byteBits (y : Byte) : divBits y = byteBits y :=
  List.map_congr_left fun b _ => (getLsbD_eq_decide_div y (7 - b)).symm

theorem flatMap_divBits (ys : List Byte) : ys.flatMap divBits = bytesToBits ys :=
  List.flatMap_congr fun y _ => divBits_eq_byteBits y

/-- The bits from position `8q` on are those of the bytes from the `q`-th on. -/
theorem bytesToBits_drop (ys : List Byte) (q : Nat) : (bytesToBits ys).drop (8 * q) = bytesToBits (ys.drop q) := by
  induction q generalizing ys with
  | zero => rfl
  | succ q ih =>
    cases ys with
    | nil => rfl
    | cons y ys =>
      rw [Nat.mul_succ, Nat.add_comm, bytesToBits_cons, ← byteBits_length y, List.drop_length_add_append,
        byteBits_length, ih, List.drop_succ_cons]

/-- Eight bits from position `8q` are those of byte `q`, also in a prefix that keeps all eight. -/
theorem bytesToBits_take_slice {ys : List Byte} {q m : Nat} {y : Byte} (hy : ys[q]? = some y) (hm : 8 * q + 8 ≤ m) :
    (((bytesToBits ys).take m).drop (8 * q)).take 8 = byteBits y := by
  obtain ⟨hq, rfl⟩ := List.getElem?_eq_some_iff.mp hy
  rw [List.drop_take, List.take_take, Nat.min_eq_left (by omega), bytesToBits_drop, List.drop_eq_getElem_cons hq,
    bytesToBits_cons, List.take_left' (byteBits_length _)]

/-! ## `REPACK` -/

theorem repackBody_of_none {s : State} (h : s.rxint = none ∨ s.bits = none) : repackBody s = .error .eSeq := by
  obtain h | h := h
  · simp [repackBody, h]
  · cases hints : s.rxint <;> simp [repackBody, h, hints]

theorem exec_repack {s : State} {ints : List IntPair} {bits : List Bit} (hs : s.faulted = false)
    (hi : s.rxint = some ints) (hb : s.bits = some bits) :
    exec .repack s = .next { s with outbuf := some (repackBytes ints bits.length) } :=
  exec_of_commandBody_ok hs (by simp [commandBody, repackBody, hi, hb])

/-- The byte of an integer in 0 to 255 has its value (47_output_and_misc R241). -/
theorem byteOfInt_toNat {v : ℤ} (h0 : 0 ≤ v) (h255 : v ≤ 255) : ((byteOfInt v).toNat : ℤ) = v := by
  rw [byteOfInt, if_pos ⟨h0, h255⟩, BitVec.toNat_ofInt]
  omega

/-- The bytes into which `REPACK` unpacks the recovered integers (47_output_and_misc R241). -/
noncomputable def recoveredBytes (ints : List IntPair) : List Byte := ints.map fun p => byteOfInt p.re.val

@[simp] theorem recoveredBytes_length (ints : List IntPair) : (recoveredBytes ints).length = ints.length :=
  List.length_map _

theorem recoveredBytes_getD_toNat {ints : List IntPair} {q : Nat} {p : IntPair} (hp : ints[q]? = some p)
    (h0 : 0 ≤ p.re.val) (h255 : p.re.val ≤ 255) : (((recoveredBytes ints).getD q 0).toNat : ℤ) = p.re.val := by
  rw [List.getD_eq_getElem?_getD, recoveredBytes, List.getElem?_map, hp]
  exact byteOfInt_toNat h0 h255

theorem repackBytes_length (ints : List IntPair) (n : Nat) :
    (repackBytes ints n).length = min n (8 * ints.length) / 8 := by
  rw [repackBytes, List.length_map, List.length_take]
  omega

/-- An output byte is the recovered byte at its place. -/
theorem recoveredBytes_getElem?_of_repackBytes {ints : List IntPair} {n q : Nat} {y : ByteTerm}
    (hy : (repackBytes ints n)[q]? = some y) : (recoveredBytes ints)[q]? = some y.val := by
  rw [repackBytes, List.getElem?_map, Option.map_eq_some_iff] at hy
  obtain ⟨p, hp, rfl⟩ := hy
  rw [List.getElem?_take, Option.ite_none_right_eq_some] at hp
  rw [recoveredBytes, List.getElem?_map, hp.2, byteTerm_val, Option.map_some]

/-- Settles O47: output byte `q` is recovered byte `q`, whose eight bits are all in what the truncation leaves. -/
theorem repackPacksEightBitsPerInteger : Obligations.RepackPacksEightBitsPerInteger := by
  unfold Obligations.RepackPacksEightBitsPerInteger
  refine ⟨by decide, fun s hs => ⟨fun h => ?_, fun ints bits hi hb => ?_⟩⟩
  · exact faultsWith_of_commandBody_error hs (repackBody_of_none h)
  refine ⟨_, recoveredBytes ints, exec_repack hs hi hb, recoveredBytes_length ints,
    fun q p hp => recoveredBytes_getD_toNat hp, ?_⟩
  simp only [flatMap_divBits, bytesToBits_length, recoveredBytes_length, List.length_take, divBits_eq_byteBits]
  refine ⟨by rw [repackBytes_length]; omega, fun q y hy => ?_⟩
  have hq := (List.getElem?_eq_some_iff.mp hy).1
  rw [repackBytes_length] at hq
  exact (bytesToBits_take_slice (recoveredBytes_getElem?_of_repackBytes hy) (by omega)).symm

/-! ## `NOP` -/

/-- Settles O49: a faulted core accepts no command, and on any other the body of `NOP` is the identity. -/
theorem nopChangesNothing : Obligations.NopChangesNothing := by
  unfold Obligations.NopChangesNothing
  refine ⟨by decide, fun s => ?_⟩
  cases hs : s.faulted with
  | true => exact (exec_eq_runCommand .nop s).trans (runCommand_faulted hs)
  | false => exact exec_of_commandBody_ok hs rfl

end Sys2Proof.Machine
end

section
/-! What an action of the host can do to the state, said once (60_exceptions R265 to R267, R280): a fault, a
command that completes, any other action. From it the frame of a command and of a fault. -/

namespace Sys2Proof.Machine

open Sys2Proof

/-! ## Buffers with the same content -/

theorem sameBuffer.refl (s : State) (b : BufId) : sameBuffer s s b := by
  cases b <;> exact rfl

theorem sameBuffer.bufferElems_eq {s t : State} {b : BufId} (h : sameBuffer s t b) :
    bufferElems s b = bufferElems t b := by
  cases b <;> simp only [sameBuffer] at h <;> simp only [bufferElems, h]

theorem sameBuffer.bufferGrid_eq {s t : State} {b : BufId} (h : sameBuffer s t b) :
    bufferGrid s b = bufferGrid t b := by
  cases b
  case txgrid | txblk | rxblk | rxgrid => exact h
  all_goals rfl

theorem sameBuffer.valid_eq {s t : State} {b : BufId} (h : sameBuffer s t b) : s.valid b = t.valid b := by
  cases b <;> simp only [sameBuffer] at h <;> simp only [State.valid, h]

theorem sameBuffer_of_not_valid {s t : State} {b : BufId} (hs : s.valid b = false) (ht : t.valid b = false) :
    sameBuffer s t b := by
  have none_of {α : Type} {o : Option α} (h : o.isSome = false) : o = none :=
    Option.isNone_iff_eq_none.mp (Option.isSome_eq_false_iff.mp h)
  cases b <;> exact (none_of hs).trans (none_of ht).symm

theorem sameBuffer_withInbuf {b : BufId} (h : b ≠ .inbuf) (s : State) (bytes : List Byte) :
    sameBuffer s { s with inbuf := some bytes } b := by
  cases b
  case inbuf => exact absurd rfl h
  all_goals exact rfl

/-! ## Faults -/

theorem raise_valid_of_mem {b : BufId} {ds : List BufId} (h : b ∈ ds) (s : State) (code : FaultCode) (w : Byte) :
    (s.raise code w ds).valid b = false := by
  cases b <;> simp [State.valid, h]

theorem sameBuffer_raise {b : BufId} {ds : List BufId} (h : b ∉ ds) (s : State) (code : FaultCode) (w : Byte) :
    sameBuffer s (s.raise code w ds) b := by
  cases b <;> simp [sameBuffer, h]

theorem sameConfig_raise (s : State) (code : FaultCode) (w : Byte) (ds : List BufId) :
    sameConfig s (s.raise code w ds) := by
  simp [sameConfig]

/-- Settles O11: the fields of the fault word are those of `statusWord`, and invalidating the destinations reaches no
other field. -/
theorem faultEntryWritesStatusOnly : Obligations.FaultEntryWritesStatusOnly := by
  unfold Obligations.FaultEntryWritesStatusOnly
  refine ⟨⟨rfl, rfl, rfl, rfl⟩, fun s code w ds => ?_⟩
  refine ⟨?_, ?_, ?_, raise_faulted s code w ds, fun b hb => raise_valid_of_mem hb s code w,
    fun b hb => sameBuffer_raise hb s code w, sameConfig_raise s code w ds, State.raise_pending ..,
    State.raise_noiseScript .., State.raise_answer .., State.raise_freeIdx ..⟩
  · rw [State.faultField, State.raise_status, statusWord_fault]
  · rw [State.fcmdField, State.raise_status, statusWord_fcmd]
  · rw [State.raise_status, statusWord_reserved]

/-! ## Commands -/

/-- All that a completing command changes: with its destinations dropped on both sides, the states before and after it
differ in the noise source only, and there only for `CHAN` and `SWEEP` (30_encoding R82, 44_channel R183). -/
structure ChangesDestinationsOnly (i : Instr) (s t : State) : Prop where
  status : t.status = s.status
  rest (code : FaultCode) (w : Byte) : t.raise code w (destinations i) =
    ({ s with noiseScript := t.noiseScript, freeIdx := t.freeIdx } : State).raise code w (destinations i)
  noise : i ≠ .chan → i ≠ .sweep → t.noiseScript = s.noiseScript ∧ t.freeIdx = s.freeIdx

theorem commandBody_ok_changes {f : NumFormat} {i : Instr} {s t : State} (h : commandBody f i s = .ok t) :
    ChangesDestinationsOnly i s t := by
  cases i
  case nop => cases h; exact ⟨rfl, fun _ _ => rfl, fun _ _ => ⟨rfl, rfl⟩⟩
  case b2b => obtain ⟨_, -, rfl⟩ := b2bBody_ok h; exact ⟨rfl, fun _ _ => rfl, fun _ _ => ⟨rfl, rfl⟩⟩
  case pad => obtain ⟨-, _, -, rfl⟩ := padBody_ok h; exact ⟨rfl, fun _ _ => rfl, fun _ _ => ⟨rfl, rfl⟩⟩
  case group => obtain ⟨-, _, -, -, rfl⟩ := groupBody_ok h; exact ⟨rfl, fun _ _ => rfl, fun _ _ => ⟨rfl, rfl⟩⟩
  case map => obtain ⟨_, -, rfl⟩ := mapBody_ok h; exact ⟨rfl, fun _ _ => rfl, fun _ _ => ⟨rfl, rfl⟩⟩
  case grid => obtain ⟨-, _, -, rfl⟩ := gridBody_ok h; exact ⟨rfl, fun _ _ => rfl, fun _ _ => ⟨rfl, rfl⟩⟩
  case totime => obtain ⟨-, _, -, -, rfl⟩ := totimeBody_ok h; exact ⟨rfl, fun _ _ => rfl, fun _ _ => ⟨rfl, rfl⟩⟩
  case flattx => obtain ⟨_, -, rfl⟩ := flattxBody_ok h; exact ⟨rfl, fun _ _ => rfl, fun _ _ => ⟨rfl, rfl⟩⟩
  case chan => obtain ⟨_, -, rfl⟩ := chanBody_ok h; exact ⟨rfl, fun _ _ => rfl, fun h => absurd rfl h⟩
  case toblk => obtain ⟨-, _, -, -, rfl⟩ := toblkBody_ok h; exact ⟨rfl, fun _ _ => rfl, fun _ _ => ⟨rfl, rfl⟩⟩
  case tofreq => obtain ⟨-, _, -, -, rfl⟩ := tofreqBody_ok h; exact ⟨rfl, fun _ _ => rfl, fun _ _ => ⟨rfl, rfl⟩⟩
  case flatrx => obtain ⟨_, -, rfl⟩ := flatrxBody_ok h; exact ⟨rfl, fun _ _ => rfl, fun _ _ => ⟨rfl, rfl⟩⟩
  case trunc => obtain ⟨_, _, -, -, -, rfl⟩ := truncBody_ok h; exact ⟨rfl, fun _ _ => rfl, fun _ _ => ⟨rfl, rfl⟩⟩
  case demap => obtain ⟨_, -, rfl⟩ := demapBody_ok h; exact ⟨rfl, fun _ _ => rfl, fun _ _ => ⟨rfl, rfl⟩⟩
  case repack => obtain ⟨_, _, -, -, rfl⟩ := repackBody_ok h; exact ⟨rfl, fun _ _ => rfl, fun _ _ => ⟨rfl, rfl⟩⟩
  case sweep =>
    obtain ⟨-, -, _, _, -, -, -, -, rfl⟩ := sweepBody_ok h
    exact ⟨rfl, fun _ _ => rfl, fun _ h => absurd rfl h⟩

section

variable {i : Instr} {s t : State} (h : ChangesDestinationsOnly i s t)
include h

theorem ChangesDestinationsOnly.sameBuffer {b : BufId} (hb : b ∉ destinations i) : sameBuffer s t b := by
  have hs := sameBuffer_raise hb { s with noiseScript := t.noiseScript, freeIdx := t.freeIdx } .eConfig 0
  rw [← h.rest] at hs
  have ht := sameBuffer_raise hb t .eConfig 0
  cases b <;> exact Eq.trans hs (Eq.symm ht)

theorem ChangesDestinationsOnly.sameConfig : sameConfig s t := by
  have hs := sameConfig_raise { s with noiseScript := t.noiseScript, freeIdx := t.freeIdx } .eConfig 0 (destinations i)
  rw [← h.rest] at hs
  simpa [Machine.sameConfig] using hs

theorem ChangesDestinationsOnly.pending : t.pending = s.pending := by
  simpa using congrArg State.pending (h.rest .eConfig 0)

theorem ChangesDestinationsOnly.answer : t.answer = s.answer := by
  simpa using congrArg State.answer (h.rest .eConfig 0)

theorem ChangesDestinationsOnly.faulted : t.faulted = s.faulted := by
  rw [State.faulted, State.faulted, State.faultField, State.faultField, h.status]

end

/-- Settles O13: a faulted core and a command that faults keep everything that a completing one keeps. -/
theorem commandFrame : Obligations.CommandFrame := by
  unfold Obligations.CommandFrame
  intro i s t h
  obtain ⟨-, rfl⟩ | ⟨-, hok⟩ | ⟨-, code, -, rfl⟩ := exec_cases h
  · exact ⟨fun b _ => .refl t b, ⟨rfl, rfl, rfl, rfl, rfl, rfl, rfl, rfl, rfl⟩, rfl, rfl, fun _ => rfl,
      fun _ _ => ⟨rfl, rfl⟩⟩
  · have hc := commandBody_ok_changes hok
    exact ⟨fun b hb => hc.sameBuffer hb, hc.sameConfig, hc.pending, hc.answer, fun _ => hc.status, hc.noise⟩
  · refine ⟨fun b hb => sameBuffer_raise hb s code _, sameConfig_raise .., State.raise_pending .., State.raise_answer ..,
      fun hf => ?_, fun _ _ => ⟨State.raise_noiseScript .., State.raise_freeIdx ..⟩⟩
    exact absurd hf (by rw [raise_faulted]; decide)

theorem commandBody_ok_of_exec {i : Instr} {s t : State} (hs : s.faulted = false) (h : exec i s = .next t)
    (ht : t.faulted = false) : commandBody Config.num i s = .ok t := by
  obtain ⟨hf, -⟩ | ⟨-, hok⟩ | ⟨-, code, -, rfl⟩ := exec_cases h
  · rw [hs] at hf
    cases hf
  · exact hok
  · rw [raise_faulted] at ht
    cases ht

/-! ## Host actions -/

/-- The state after a reset: what is no state of the core stays (70_reset_and_hazards R290, notes/assumptions/24.md). -/
def State.afterReset (s : State) : State := { State.reset with
  pending := s.pending, noiseScript := s.noiseScript, answer := s.answer, freeIdx := s.freeIdx }

theorem perform_reset (s : State) : perform .reset s = .next s.afterReset := rfl

/-- All that performing an action of the host can do (60_exceptions R265 to R267, R280, 30_encoding R85). -/
inductive ActionEffect (a : HostAction) (s : State) : State → Prop
  | reset (ha : a = .reset) : ActionEffect a s s.afterReset
  /-- An action that the core does not accept, a read or the directive `.noise`. -/
  | outside (scripts : List NoiseScript) (ans : Option Answer) :
      ActionEffect a s { s with noiseScript := scripts, answer := ans }
  | writeReg (hf : s.faulted = false) (fs fc : HostReal) (n p m : Nat) (snr : HostReal) (len : Nat) (seed : Seed) :
      ActionEffect a s { s with
        cfgFs := fs, cfgFc := fc, cfgN := n, cfgCp := p, cfgM := m, cfgSnrNom := snr, cfgSweepLen := len
        nomSeed := seed }
  | writeSweep (hf : s.faulted = false) (t : Nat) (e : SweepEntry) :
      ActionEffect a s { s with sweepTable := sweepWrite s.sweepTable t e }
  | loadInbuf (hf : s.faulted = false) (bytes : List Byte) : ActionEffect a s { s with inbuf := some bytes }
  | command (hf : s.faulted = false) (i : Instr) {t : State} (h : commandBody Config.num i s = .ok t) :
      ActionEffect a s t
  | fault (hf : s.faulted = false) (code : FaultCode) (w : Byte) (ds : List BufId) :
      ActionEffect a s (s.raise code w ds)

/-- The action has no effect. -/
theorem ActionEffect.none (a : HostAction) (s : State) : ActionEffect a s s := .outside s.noiseScript s.answer

theorem writeRegister_effect {a : HostAction} {no : Nat} {v : RegValue} {s t : State} (hf : s.faulted = false)
    (h : writeRegister Config.limits no v s = .next t) : ActionEffect a s t := by
  unfold writeRegister at h
  split at h
  case h_9 => split_ifs at h
  all_goals
    cases h
    exact .writeReg hf _ _ _ _ _ _ _ _

theorem hostIssue_effect {w : Byte} {s t : State} (h : hostIssue w s = .next t) : ActionEffect (.issue w) s t := by
  unfold hostIssue at h
  split at h
  · obtain ⟨-, rfl⟩ | ⟨hf, hok⟩ | ⟨hf, code, -, rfl⟩ := exec_cases h
    · exact .none _ _
    · exact .command hf _ hok
    · exact .fault hf _ _ _
  · unfold illegalWord at h
    split_ifs at h with hf
    · cases h; exact .none _ _
    · cases h; exact .fault (by simpa using hf) _ _ _

theorem perform_effect {a : HostAction} {s t : State} (h : perform a s = .next t) : ActionEffect a s t := by
  cases a with
  | reset =>
    rw [perform_reset] at h
    cases h
    exact .reset rfl
  | writeReg no v =>
    cases hf : s.faulted with
    | true => rw [perform, hostWriteReg, if_pos hf] at h; cases h; exact .none _ _
    | false => exact writeRegister_effect hf (by rwa [perform, hostWriteReg_of_not_faulted hf] at h)
  | writeSweep k e =>
    cases hf : s.faulted with
    | true => rw [perform, hostWriteSweep, if_pos hf] at h; cases h; exact .none _ _
    | false => rw [perform, hostWriteSweep_of_not_faulted hf] at h; cases h; exact .writeSweep hf k e
  | readReg no =>
    rw [perform, hostReadReg] at h
    split at h <;> cases h
    exact .outside _ _
  | readSweep k => cases h; exact .outside _ _
  | loadInbuf bytes =>
    cases hf : s.faulted with
    | true => rw [perform, hostLoadInbuf, if_pos hf] at h; cases h; exact .none _ _
    | false => rw [perform, hostLoadInbuf_of_not_faulted hf] at h; cases h; exact .loadInbuf hf bytes
  | readBuf b i =>
    simp only [perform, hostReadBuf] at h
    repeat' split at h
    all_goals cases h
    exact .outside _ _
  | readLen b =>
    simp only [perform, hostReadLen] at h
    repeat' split at h
    all_goals cases h
    all_goals exact .outside _ _
  | issue w => exact hostIssue_effect h
  | noise script => cases h; exact .outside _ _

/-- All that a step can do: nothing, where no action waits, else what performing the oldest one does. -/
theorem step_cases {s t : State} (h : step s = .next t) :
    t = s ∨ ∃ a rest, s.pending = a :: rest ∧ ActionEffect a { s with pending := rest } t := by
  cases hp : s.pending with
  | nil =>
    rw [step, performNext, hp] at h
    cases h
    exact .inl rfl
  | cons a rest =>
    rw [step_of_pending hp] at h
    exact .inr ⟨a, rest, rfl, perform_effect h⟩

end Sys2Proof.Machine
end

section
/-! Reset (70_reset_and_hazards R290) and the invariants of the machine (10_state R23, R31, 60_exceptions R261,
40_bitframer R100; notes/assumptions/1.md). -/

namespace Sys2Proof.Machine

open Sys2Proof

/-! ## Reset -/

theorem reset_validWord : State.reset.validWord = 0 := by decide

theorem reset_valid (b : BufId) : State.reset.valid b = false := by
  cases b <;> rfl

/-- An entry of the empty sweep table has the seed enable 0 (10_state R40). -/
theorem reset_sweepRead_seed (k : Nat) : (sweepRead State.reset.sweepTable k).seed.en = false := rfl

/-- Settles O6, value by value. -/
theorem resetStateValues : Obligations.ResetStateValues := by
  unfold Obligations.ResetStateValues
  exact ⟨rfl, reset_validWord, reset_valid, rfl, rfl, reset_sweepRead_seed⟩

/-- Settles O7: of all that an action can do to a faulted core, only a reset and what lies outside the core remain. -/
theorem resetIsTheOnlyWayOutOfAFault : Obligations.ResetIsTheOnlyWayOutOfAFault := by
  unfold Obligations.ResetIsTheOnlyWayOutOfAFault
  refine ⟨fun s rest h => ?_, fun s t hs hno h => ?_⟩
  · exact ⟨_, (step_of_pending h).trans (perform_reset _), rfl, reset_validWord, reset_valid, rfl, rfl,
      reset_sweepRead_seed, rfl⟩
  · obtain rfl | ⟨a, rest, hp, heff⟩ := step_cases h
    · exact ⟨rfl, hs⟩
    · cases heff with
      | reset ha => exact absurd (ha ▸ hp) (hno rest)
      | outside scripts ans => exact ⟨rfl, hs⟩
      | writeReg hf | writeSweep hf | loadInbuf hf | command hf | fault hf =>
        exact absurd hf (by rw [State.faulted_withPending, hs]; decide)

/-! ## The form of the memory, of `STATUS` and of `BITS` -/

theorem invariant_iff (s : State) :
    invariant s = true ↔ Memory.wf s = true ∧ statusWf s = true ∧ bitsWhole s = true := by
  simp only [invariant, Bool.and_eq_true, and_assoc]

/-- The form of the memory by the Grid that each buffer holds. -/
theorem memory_wf_iff_bufferGrid (s : State) : Memory.wf s = true ↔
    sweepTableWf s.sweepTable = true ∧ ∀ b g, bufferGrid s b = some g → g.wellFormed = true := by
  rw [memory_wf_iff]
  refine and_congr_right fun _ =>
    ⟨fun ⟨htxgrid, htxblk, hrxblk, hrxgrid⟩ b g hg => ?_, fun h => ⟨h .txgrid, h .txblk, h .rxblk, h .rxgrid⟩⟩
  cases b
  case txgrid => exact htxgrid g hg
  case txblk => exact htxblk g hg
  case rxblk => exact hrxblk g hg
  case rxgrid => exact hrxgrid g hg
  all_goals cases hg

theorem bitsWhole_iff (s : State) : bitsWhole s = true ↔ ∀ b, s.bits = some b → b.length % 8 = 0 := by
  simp [bitsWhole, Option.all_eq_true]

theorem reset_statusWf : statusWf State.reset = true := by decide

theorem raise_statusWf (s : State) (code : FaultCode) (w : Byte) (ds : List BufId) :
    statusWf (s.raise code w ds) = true := by
  have hcode : code.bits.toNat ≤ 4 := by cases code <;> decide
  rw [statusWf, raise_faulted, State.faultField, State.raise_status, statusWord_reserved, statusWord_fault]
  simpa using hcode

theorem raise_bitsWhole (s : State) (code : FaultCode) (w : Byte) (ds : List BufId) (h : bitsWhole s = true) :
    bitsWhole (s.raise code w ds) = true := by
  rw [bitsWhole_iff] at h ⊢
  intro b hb
  rw [State.raise_bits] at hb
  split_ifs at hb
  exact h b hb

/-- The Grid that a command writes holds `rows·cols` elements (10_state R31). -/
theorem commandBody_ok_grid_wellFormed {i : Instr} {s t : State} (h : commandBody Config.num i s = .ok t) {b : BufId}
    (hb : b ∈ destinations i) {g : Grid} (hg : bufferGrid t b = some g) : g.wellFormed = true := by
  cases i
  case nop => cases hb
  all_goals obtain rfl := List.mem_singleton.mp hb
  case grid =>
    obtain ⟨hn, syms, -, rfl⟩ := gridBody_ok h
    obtain rfl := Option.some.inj hg
    exact buildGrid_wf _ _ ((okN_iff s).mp hn).1
  case totime =>
    obtain ⟨hn, g, -, -, rfl⟩ := totimeBody_ok h
    obtain rfl := Option.some.inj hg
    exact toTimeDomain_wf _ _ _ ((okN_iff s).mp hn).2.le
  case toblk =>
    obtain ⟨-, x, -, hl, rfl⟩ := toblkBody_ok h
    obtain rfl := Option.some.inj hg
    exact toBlocks_wf _ _ _ hl
  case tofreq =>
    obtain ⟨-, g, -, -, rfl⟩ := tofreqBody_ok h
    obtain rfl := Option.some.inj hg
    exact toFrequencyDomain_wf _ _
  all_goals cases hg

theorem commandBody_ok_memory_wf {i : Instr} {s t : State} (h : commandBody Config.num i s = .ok t)
    (hs : Memory.wf s = true) : Memory.wf t = true := by
  rw [memory_wf_iff_bufferGrid] at hs ⊢
  obtain ⟨htable, hgrids⟩ := hs
  have hc := commandBody_ok_changes h
  obtain ⟨-, -, -, -, -, -, -, -, hsame⟩ := hc.sameConfig
  refine ⟨hsame ▸ htable, fun b g hg => ?_⟩
  by_cases hb : b ∈ destinations i
  · exact commandBody_ok_grid_wellFormed h hb hg
  · exact hgrids b g ((hc.sameBuffer hb).bufferGrid_eq.trans hg)

/-- Only `B2B` writes `BITS`, eight for each byte (40_bitframer R100). -/
theorem commandBody_ok_bitsWhole {i : Instr} {s t : State} (h : commandBody Config.num i s = .ok t)
    (hs : bitsWhole s = true) : bitsWhole t = true := by
  rw [bitsWhole_iff] at hs ⊢
  intro bits hbits
  by_cases hb : BufId.bits ∈ destinations i
  · obtain rfl : i = .b2b := by
      revert hb
      cases i <;> decide
    obtain ⟨bytes, -, rfl⟩ := b2bBody_ok h
    obtain rfl := Option.some.inj hbits
    rw [bytesToBits_length, Nat.mul_mod_right]
  · have hsame : s.bits = t.bits := (commandBody_ok_changes h).sameBuffer hb
    exact hs bits (hsame.trans hbits)

theorem ActionEffect.invariant {a : HostAction} {s t : State} (h : ActionEffect a s t) (hs : invariant s = true) :
    invariant t = true := by
  rw [invariant_iff] at hs ⊢
  obtain ⟨hmem, hstatus, hbits⟩ := hs
  cases h with
  | reset => exact ⟨reset_memory_wf, reset_statusWf, rfl⟩
  | outside | writeReg | loadInbuf => exact ⟨hmem, hstatus, hbits⟩
  | writeSweep hf k e => exact ⟨writeSweep_memory_wf s k e hmem, hstatus, hbits⟩
  | command hf i hok =>
    refine ⟨commandBody_ok_memory_wf hok hmem, ?_, commandBody_ok_bitsWhole hok hbits⟩
    have hc := commandBody_ok_changes hok
    rwa [statusWf, hc.faulted, State.faultField, State.fcmdField, hc.status]
  | fault hf code w ds =>
    exact ⟨raise_memory_wf s code w ds hmem, raise_statusWf s code w ds, raise_bitsWhole s code w ds hbits⟩

/-- Settles O17: each effect that an action can have keeps the invariant, which does not look at the host's queue. -/
theorem stepKeepsInvariant : Obligations.StepKeepsInvariant := by
  unfold Obligations.StepKeepsInvariant
  intro s t hs h
  obtain rfl | ⟨a, rest, -, heff⟩ := step_cases h
  · exact hs
  · exact heff.invariant hs

/-! ## Numbers in normal form -/

/-- Every Complex among the elements of the buffer is in normal form. -/
def elemsInForm (s : State) (b : BufId) : Prop :=
  ∀ es, bufferElems s b = some es → ∀ z, Elem.complex z ∈ es → z.inForm = true

theorem sameBuffer.elemsInForm_iff {s t : State} {b : BufId} (h : sameBuffer s t b) :
    elemsInForm s b ↔ elemsInForm t b := by
  rw [elemsInForm, elemsInForm, h.bufferElems_eq]

theorem elemsInForm_iff {s : State} {b : BufId} {xs : List Cplx} (h : bufferElems s b = some (xs.map .complex)) :
    elemsInForm s b ↔ ∀ z ∈ xs, z.inForm = true := by
  simp [elemsInForm, h]

/-- A buffer of Complexes: a sequence, or the data of a Grid. -/
theorem elemsInForm_iff_all {α : Type} {s : State} {b : BufId} {o : Option α} (content : α → List Cplx)
    (h : bufferElems s b = o.map fun x => (content x).map .complex) :
    elemsInForm s b ↔ o.all (fun x => (content x).all Cplx.inForm) = true := by
  cases o <;> simp [elemsInForm, h]

theorem numbersInForm_iff (s : State) : numbersInForm s = true ↔ ∀ b, elemsInForm s b := by
  simp only [numbersInForm, Bool.and_eq_true, and_assoc]
  refine ⟨fun ⟨hsym, htxgrid, htxblk, htxwave, hrxwave, hrxblk, hrxgrid, hrxflat, hrxsym⟩ b => ?_, fun h => ?_⟩
  · cases b
    case sym => exact (elemsInForm_iff_all id rfl).mpr hsym
    case txgrid => exact (elemsInForm_iff_all Grid.data rfl).mpr htxgrid
    case txblk => exact (elemsInForm_iff_all Grid.data rfl).mpr htxblk
    case txwave => exact (elemsInForm_iff_all id rfl).mpr htxwave
    case rxwave => exact (elemsInForm_iff_all id rfl).mpr hrxwave
    case rxblk => exact (elemsInForm_iff_all Grid.data rfl).mpr hrxblk
    case rxgrid => exact (elemsInForm_iff_all Grid.data rfl).mpr hrxgrid
    case rxflat => exact (elemsInForm_iff_all id rfl).mpr hrxflat
    case rxsym => exact (elemsInForm_iff_all id rfl).mpr hrxsym
    all_goals simp [elemsInForm, bufferElems]
  · exact ⟨(elemsInForm_iff_all id rfl).mp (h .sym), (elemsInForm_iff_all Grid.data rfl).mp (h .txgrid),
      (elemsInForm_iff_all Grid.data rfl).mp (h .txblk), (elemsInForm_iff_all id rfl).mp (h .txwave),
      (elemsInForm_iff_all id rfl).mp (h .rxwave), (elemsInForm_iff_all Grid.data rfl).mp (h .rxblk),
      (elemsInForm_iff_all Grid.data rfl).mp (h .rxgrid), (elemsInForm_iff_all id rfl).mp (h .rxflat),
      (elemsInForm_iff_all id rfl).mp (h .rxsym)⟩

theorem elemsInForm_reset (b : BufId) : elemsInForm State.reset b := by
  cases b <;> exact fun es hes => nomatch hes

theorem elemsInForm_raise {s : State} {b : BufId} (h : elemsInForm s b) (code : FaultCode) (w : Byte)
    (ds : List BufId) : elemsInForm (s.raise code w ds) b := by
  by_cases hb : b ∈ ds
  · intro es hes
    rw [bufferElems_eq_none_iff.mpr (raise_valid_of_mem hb s code w)] at hes
    cases hes
  · exact (sameBuffer_raise hb s code w).elemsInForm_iff.mp h

theorem mem_dft_inForm {N : Nat} {x : List Cplx} {z : Cplx} (h : z ∈ dft N x) : z.inForm = true := by
  obtain ⟨m, -, rfl⟩ := List.mem_map.mp h
  exact Cplx.inForm_sumOfProducts _ _

theorem mem_idft_inForm {N : Nat} {x : List Cplx} {z : Cplx} (h : z ∈ idft N x) : z.inForm = true := by
  obtain ⟨n, -, rfl⟩ := List.mem_map.mp h
  exact Cplx.inForm_scale _ _

theorem mem_of_mem_cpins {x : List Cplx} {p : Nat} {z : Cplx} (h : z ∈ cpins x p) : z ∈ x :=
  (List.mem_append.mp h).elim List.mem_of_mem_drop id

theorem mem_of_mem_chunk {x : List Cplx} {n c : Nat} {z : Cplx} (h : z ∈ chunk x n c) : z ∈ x :=
  List.mem_of_mem_drop (List.mem_of_mem_take h)

theorem mem_buildGrid_inForm {N : Nat} {syms : List Cplx} (hs : ∀ z ∈ syms, z.inForm = true) {z : Cplx}
    (h : z ∈ (buildGrid N syms).data) : z.inForm = true := by
  obtain h | h := List.mem_append.mp h
  · exact hs z h
  · rw [List.eq_of_mem_replicate h]
    exact Cplx.inForm_zero

theorem mem_toTimeDomain_inForm {N p : Nat} {g : Grid} {z : Cplx} (h : z ∈ (toTimeDomain Config.num N p g).data) :
    z.inForm = true := by
  obtain ⟨c, -, hz⟩ := List.mem_flatMap.mp h
  exact mem_idft_inForm (mem_of_mem_cpins hz)

theorem mem_toFrequencyDomain_inForm {N : Nat} {g : Grid} {z : Cplx}
    (h : z ∈ (toFrequencyDomain Config.num N g).data) : z.inForm = true := by
  obtain ⟨c, -, hz⟩ := List.mem_flatMap.mp h
  exact mem_dft_inForm hz

theorem mem_of_mem_toBlocks {N p : Nat} {x : List Cplx} {z : Cplx} (h : z ∈ (toBlocks N p x).data) : z ∈ x := by
  obtain ⟨c, -, hz⟩ := List.mem_flatMap.mp h
  exact mem_of_mem_chunk (List.mem_of_mem_drop hz)

/-- The channel scales each noise sample, which puts it in normal form, whatever form a script gives it in. -/
theorem mem_channel_inForm {x w : List Cplx} {snr : HostReal} (hx : ∀ z ∈ x, z.inForm = true) {z : Cplx}
    (h : z ∈ channel Config.num x snr w) : z.inForm = true := by
  rw [channel, ← List.map_uncurry_zip_eq_zipWith] at h
  obtain ⟨⟨a, b⟩, hab, rfl⟩ := List.mem_map.mp h
  exact Cplx.inForm_add (hx a (List.of_mem_zip hab).1) (Cplx.inForm_scale _ _)

/-- The Complexes that a command writes are in normal form where those that it reads are. -/
theorem commandBody_ok_elemsInForm {i : Instr} {s t : State} (h : commandBody Config.num i s = .ok t)
    (hs : ∀ b, elemsInForm s b) {b : BufId} (hb : b ∈ destinations i) : elemsInForm t b := by
  cases i
  case nop => cases hb
  all_goals obtain rfl := List.mem_singleton.mp hb
  case map =>
    obtain ⟨idx, -, rfl⟩ := mapBody_ok h
    refine (elemsInForm_iff rfl).mpr fun z hz => ?_
    obtain ⟨k, -, rfl⟩ := List.mem_map.mp hz
    exact Cplx.inForm_ofRats _ _
  case grid =>
    obtain ⟨-, syms, hsyms, rfl⟩ := gridBody_ok h
    have hin := (elemsInForm_iff (by rw [bufferElems, hsyms, Option.map_some])).mp (hs .sym)
    exact (elemsInForm_iff rfl).mpr fun z hz => mem_buildGrid_inForm hin hz
  case totime =>
    obtain ⟨-, g, -, -, rfl⟩ := totimeBody_ok h
    exact (elemsInForm_iff rfl).mpr fun z hz => mem_toTimeDomain_inForm hz
  case flattx =>
    obtain ⟨g, hg, rfl⟩ := flattxBody_ok h
    exact (elemsInForm_iff rfl).mpr ((elemsInForm_iff (bufferElems_of_bufferGrid (b := .txblk) hg)).mp (hs _))
  case chan =>
    obtain ⟨x, hx, rfl⟩ := chanBody_ok h
    have hin := (elemsInForm_iff (by rw [bufferElems, hx, Option.map_some])).mp (hs .txwave)
    exact (elemsInForm_iff rfl).mpr fun z hz => mem_channel_inForm hin hz
  case toblk =>
    obtain ⟨-, x, hx, -, rfl⟩ := toblkBody_ok h
    have hin := (elemsInForm_iff (by rw [bufferElems, hx, Option.map_some])).mp (hs .rxwave)
    exact (elemsInForm_iff rfl).mpr fun z hz => hin z (mem_of_mem_toBlocks hz)
  case tofreq =>
    obtain ⟨-, g, -, -, rfl⟩ := tofreqBody_ok h
    exact (elemsInForm_iff rfl).mpr fun z hz => mem_toFrequencyDomain_inForm hz
  case flatrx =>
    obtain ⟨g, hg, rfl⟩ := flatrxBody_ok h
    exact (elemsInForm_iff rfl).mpr ((elemsInForm_iff (bufferElems_of_bufferGrid (b := .rxgrid) hg)).mp (hs _))
  case trunc =>
    obtain ⟨flat, idx, hflat, -, -, rfl⟩ := truncBody_ok h
    have hin := (elemsInForm_iff (by rw [bufferElems, hflat, Option.map_some])).mp (hs .rxflat)
    exact (elemsInForm_iff rfl).mpr fun z hz => hin z (List.mem_of_mem_take hz)
  all_goals simp [elemsInForm, bufferElems]

theorem ActionEffect.elemsInForm {a : HostAction} {s t : State} (h : ActionEffect a s t) (hs : ∀ b, elemsInForm s b)
    (b : BufId) : elemsInForm t b := by
  cases h with
  | reset => exact elemsInForm_reset b
  | outside | writeReg | writeSweep => exact hs b
  | loadInbuf hf bytes =>
    by_cases hb : b = .inbuf
    · subst hb
      simp [Machine.elemsInForm, bufferElems]
    · exact (sameBuffer_withInbuf hb s bytes).elemsInForm_iff.mp (hs b)
  | command hf i hok =>
    by_cases hb : b ∈ destinations i
    · exact commandBody_ok_elemsInForm hok hs hb
    · exact ((commandBody_ok_changes hok).sameBuffer hb).elemsInForm_iff.mp (hs b)
  | fault hf code w ds => exact elemsInForm_raise (hs b) code w ds

/-- Settles O18: each effect that an action can have keeps the Complexes of each buffer in normal form. -/
theorem stepKeepsNumbersInForm : Obligations.StepKeepsNumbersInForm := by
  unfold Obligations.StepKeepsNumbersInForm
  intro s t hs h
  rw [numbersInForm_iff] at hs ⊢
  obtain rfl | ⟨a, rest, -, heff⟩ := step_cases h
  · exact hs
  · exact heff.elemsInForm hs

/-- Settles O16, part by part. -/
theorem invariantsHoldAtReset : Obligations.InvariantsHoldAtReset := by
  unfold Obligations.InvariantsHoldAtReset
  exact ⟨(invariant_iff _).mpr ⟨reset_memory_wf, reset_statusWf, rfl⟩, (numbersInForm_iff _).mpr elemsInForm_reset⟩

end Sys2Proof.Machine
end

section
/-! The order of a command's tests (60_exceptions R261 to R265), and what its outcome depends on (10_state R33). -/

namespace Sys2Proof.Machine

open Sys2Proof

/-! ## Outcomes of single commands -/

theorem totimeBody_of_not_okN {f : NumFormat} {s : State} (h : s.okN = false) : totimeBody f s = .error .eConfig := by
  simp [totimeBody, h]

theorem totimeBody_of_none {f : NumFormat} {s : State} (hn : s.okN = true) (h : s.txgrid = none) :
    totimeBody f s = .error .eSeq := by
  simp [totimeBody, hn, h]

theorem totimeBody_of_other_rows {f : NumFormat} {s : State} {g : Grid} (hn : s.okN = true) (h : s.txgrid = some g)
    (hr : g.rows ≠ s.cfgN) : totimeBody f s = .error .eShape := by
  simp [totimeBody, hn, h, hr]

theorem exec_totime {s : State} {g : Grid} (hs : s.faulted = false) (hn : s.okN = true) (h : s.txgrid = some g)
    (hr : g.rows = s.cfgN) :
    exec .totime s = .next { s with txblk := some (toTimeDomain Config.num s.cfgN s.cfgCp g) } :=
  exec_of_commandBody_ok hs (by simp [commandBody, totimeBody, hn, h, hr])

theorem tofreqBody_of_not_okN {f : NumFormat} {s : State} (h : s.okN = false) : tofreqBody f s = .error .eConfig := by
  simp [tofreqBody, h]

theorem tofreqBody_of_none {f : NumFormat} {s : State} (hn : s.okN = true) (h : s.rxblk = none) :
    tofreqBody f s = .error .eSeq := by
  simp [tofreqBody, hn, h]

theorem tofreqBody_of_other_rows {f : NumFormat} {s : State} {g : Grid} (hn : s.okN = true) (h : s.rxblk = some g)
    (hr : g.rows ≠ s.cfgN) : tofreqBody f s = .error .eShape := by
  simp [tofreqBody, hn, h, hr]

theorem exec_map {s : State} {idx : List Nat} (hs : s.faulted = false) (h : s.idx = some idx) :
    exec .map s = .next { s with sym := some (idx.map mapIndex) } :=
  exec_of_commandBody_ok hs (mapBody_of_some h)

theorem exec_demap {s : State} {syms : List Cplx} (hs : s.faulted = false) (h : s.rxsym = some syms) :
    exec .demap s = .next { s with rxint := some (syms.map (demapSymbol Config.num)) } :=
  exec_of_commandBody_ok hs (demapBody_of_some h)

theorem exec_flattx {s : State} {g : Grid} (hs : s.faulted = false) (h : s.txblk = some g) :
    exec .flattx s = .next { s with txwave := some g.data } :=
  exec_of_commandBody_ok hs (flattxBody_of_some h)

theorem exec_chan {s : State} {x : List Cplx} (hs : s.faulted = false) (h : s.txwave = some x) :
    exec .chan s = .next { s with
      rxwave := some (channel Config.num x s.cfgSnrNom (noise Config.num s.nomSeed x.length s.noiseScript s.freeIdx).w)
      noiseScript := (noise Config.num s.nomSeed x.length s.noiseScript s.freeIdx).script
      freeIdx := (noise Config.num s.nomSeed x.length s.noiseScript s.freeIdx).free } :=
  exec_of_commandBody_ok hs (chanBody_of_some h)

/-! ## The tests -/

/-- A command whose sequence test succeeds finds each of its sources. -/
theorem source_isSome {i : Instr} {s : State} (hs : sequenceTest i s = true) {b : BufId} (hb : b ∈ sources i) {α : Type}
    {o : Option α} (ho : s.valid b = o.isSome) : ∃ x, o = some x :=
  Option.isSome_iff_exists.mp (ho ▸ List.all_eq_true.mp hs b hb)

/-- The configuration is tested first (60_exceptions R265). -/
theorem commandBody_eConfig {f : NumFormat} {i : Instr} {s : State} (hc : configTest i s = false) :
    commandBody f i s = .error .eConfig := by
  cases i
  case pad => exact padBody_of_not_okM hc
  case group => exact groupBody_of_not_okM hc
  case grid => exact gridBody_of_not_okN hc
  case totime => exact totimeBody_of_not_okN hc
  case toblk => exact toblkBody_of_not_okN hc
  case tofreq => exact tofreqBody_of_not_okN hc
  case sweep => exact sweepBody_of_bad_config hc
  all_goals cases hc

/-- The sources are tested next (60_exceptions R263). -/
theorem commandBody_eSeq {f : NumFormat} {i : Instr} {s : State} (hc : configTest i s = true)
    (hs : sequenceTest i s = false) : commandBody f i s = .error .eSeq := by
  obtain ⟨b, hb, hv⟩ := List.all_eq_false.mp hs
  have none_of {α : Type} {o : Option α} (h : ¬ o.isSome = true) : o = none := Option.not_isSome_iff_eq_none.mp h
  cases i
  case nop => cases hb
  case trunc =>
    obtain rfl | rfl := List.mem_pair.mp hb
    · exact truncBody_of_none (.inl (none_of hv))
    · exact truncBody_of_none (.inr (none_of hv))
  case repack =>
    obtain rfl | rfl := List.mem_pair.mp hb
    · exact repackBody_of_none (.inl (none_of hv))
    · exact repackBody_of_none (.inr (none_of hv))
  case sweep =>
    obtain rfl | rfl := List.mem_pair.mp hb
    · exact sweepBody_of_none hc (.inl (none_of hv))
    · exact sweepBody_of_none hc (.inr (none_of hv))
  all_goals obtain rfl := List.mem_singleton.mp hb
  case b2b => exact b2bBody_of_none (none_of hv)
  case pad => exact padBody_of_none hc (none_of hv)
  case group => exact groupBody_of_none hc (none_of hv)
  case map => exact mapBody_of_none (none_of hv)
  case grid => exact gridBody_of_none hc (none_of hv)
  case totime => exact totimeBody_of_none hc (none_of hv)
  case flattx => exact flattxBody_of_none (none_of hv)
  case chan => exact chanBody_of_none (none_of hv)
  case toblk => exact toblkBody_of_none hc (none_of hv)
  case tofreq => exact tofreqBody_of_none hc (none_of hv)
  case flatrx => exact flatrxBody_of_none (none_of hv)
  case demap => exact demapBody_of_none (none_of hv)

/-- The shapes are tested last (60_exceptions R264). -/
theorem commandBody_eShape {f : NumFormat} {i : Instr} {s : State} (hc : configTest i s = true)
    (hs : sequenceTest i s = true) (ht : shapeTest i s = false) : commandBody f i s = .error .eShape := by
  cases i
  case group =>
    obtain ⟨pbits, h⟩ := source_isSome hs (b := .pbits) (by decide) rfl
    exact groupBody_of_not_multiple hc h (by simpa [shapeTest, lengthOf, h] using ht)
  case totime =>
    obtain ⟨g, h⟩ := source_isSome hs (b := .txgrid) (by decide) rfl
    exact totimeBody_of_other_rows hc h (by simpa [shapeTest, h] using ht)
  case toblk =>
    obtain ⟨x, h⟩ := source_isSome hs (b := .rxwave) (by decide) rfl
    exact toblkBody_of_not_whole hc h (by simpa [shapeTest, lengthOf, h] using ht)
  case tofreq =>
    obtain ⟨g, h⟩ := source_isSome hs (b := .rxblk) (by decide) rfl
    exact tofreqBody_of_other_rows hc h (by simpa [shapeTest, h] using ht)
  case trunc =>
    obtain ⟨flat, h⟩ := source_isSome hs (b := .rxflat) (by decide) rfl
    obtain ⟨idx, hi⟩ := source_isSome hs (b := .idx) (by decide) rfl
    exact truncBody_of_short h hi (by simpa [shapeTest, lengthOf, h, hi] using ht)
  case sweep =>
    obtain ⟨idx, hi⟩ := source_isSome hs (b := .idx) (by decide) rfl
    obtain ⟨wave, hw⟩ := source_isSome hs (b := .txwave) (by decide) rfl
    by_cases hl : wave.length % (s.cfgN + s.cfgCp) = 0
    · exact sweepBody_of_short hc hi hw (by simpa [shapeTest, lengthOf, hi, hw, hl] using ht)
    · exact sweepBody_of_not_whole hc hi hw hl
  all_goals cases ht

/-- With no test failing a command completes, and its destinations are valid (10_state R32). -/
theorem exec_of_tests {i : Instr} {s : State} (hf : s.faulted = false) (hc : configTest i s = true)
    (hs : sequenceTest i s = true) (ht : shapeTest i s = true) :
    ∃ t, exec i s = .next t ∧ t.faulted = false ∧ ∀ b ∈ destinations i, t.valid b = true := by
  have written {i : Instr} {t : State} {b : BufId} (hd : destinations i = [b]) (hv : t.valid b = true) :
      ∀ b ∈ destinations i, t.valid b = true := by
    rwa [hd, List.forall_mem_singleton]
  cases i
  case nop => exact ⟨s, exec_of_commandBody_ok hf rfl, hf, fun b hb => nomatch hb⟩
  case b2b =>
    obtain ⟨bytes, h⟩ := source_isSome hs (b := .inbuf) (by decide) rfl
    exact ⟨_, exec_of_commandBody_ok hf (b2bBody_of_some h), hf, written rfl rfl⟩
  case pad =>
    obtain ⟨bits, h⟩ := source_isSome hs (b := .bits) (by decide) rfl
    exact ⟨_, exec_of_commandBody_ok hf (padBody_of_some hc h), hf, written rfl rfl⟩
  case group =>
    obtain ⟨pbits, h⟩ := source_isSome hs (b := .pbits) (by decide) rfl
    have hl : pbits.length % s.cfgK = 0 := by simpa [shapeTest, lengthOf, h] using ht
    exact ⟨_, exec_of_commandBody_ok hf (groupBody_of_multiple hc h hl), hf, written rfl rfl⟩
  case map =>
    obtain ⟨idx, h⟩ := source_isSome hs (b := .idx) (by decide) rfl
    exact ⟨_, exec_map hf h, hf, written rfl rfl⟩
  case grid =>
    obtain ⟨syms, h⟩ := source_isSome hs (b := .sym) (by decide) rfl
    exact ⟨_, exec_of_commandBody_ok hf (gridBody_of_some hc h), hf, written rfl rfl⟩
  case totime =>
    obtain ⟨g, h⟩ := source_isSome hs (b := .txgrid) (by decide) rfl
    exact ⟨_, exec_totime hf hc h (by simpa [shapeTest, h] using ht), hf, written rfl rfl⟩
  case flattx =>
    obtain ⟨g, h⟩ := source_isSome hs (b := .txblk) (by decide) rfl
    exact ⟨_, exec_flattx hf h, hf, written rfl rfl⟩
  case chan =>
    obtain ⟨x, h⟩ := source_isSome hs (b := .txwave) (by decide) rfl
    exact ⟨_, exec_chan hf h, hf, written rfl rfl⟩
  case toblk =>
    obtain ⟨x, h⟩ := source_isSome hs (b := .rxwave) (by decide) rfl
    exact ⟨_, exec_toblk hf hc h (by simpa [shapeTest, lengthOf, h] using ht), hf, written rfl rfl⟩
  case tofreq =>
    obtain ⟨g, h⟩ := source_isSome hs (b := .rxblk) (by decide) rfl
    exact ⟨_, exec_tofreq hf hc h (by simpa [shapeTest, h] using ht), hf, written rfl rfl⟩
  case flatrx =>
    obtain ⟨g, h⟩ := source_isSome hs (b := .rxgrid) (by decide) rfl
    exact ⟨_, exec_flatrx hf h, hf, written rfl rfl⟩
  case trunc =>
    obtain ⟨flat, h⟩ := source_isSome hs (b := .rxflat) (by decide) rfl
    obtain ⟨idx, hi⟩ := source_isSome hs (b := .idx) (by decide) rfl
    exact ⟨_, exec_trunc hf h hi (by simpa [shapeTest, lengthOf, h, hi] using ht), hf, written rfl rfl⟩
  case demap =>
    obtain ⟨syms, h⟩ := source_isSome hs (b := .rxsym) (by decide) rfl
    exact ⟨_, exec_demap hf h, hf, written rfl rfl⟩
  case repack =>
    obtain ⟨ints, hi⟩ := source_isSome hs (b := .rxint) (by decide) rfl
    obtain ⟨bits, hb⟩ := source_isSome hs (b := .bits) (by decide) rfl
    exact ⟨_, exec_repack hf hi hb, hf, written rfl rfl⟩
  case sweep =>
    obtain ⟨idx, hi⟩ := source_isSome hs (b := .idx) (by decide) rfl
    obtain ⟨wave, hw⟩ := source_isSome hs (b := .txwave) (by decide) rfl
    obtain ⟨hl, hle⟩ : wave.length % (s.cfgN + s.cfgCp) = 0 ∧
        idx.length ≤ wave.length / (s.cfgN + s.cfgCp) * s.cfgN := by
      simpa [shapeTest, lengthOf, hi, hw] using ht
    exact ⟨_, exec_sweep hf hc hi hw hl hle, hf, written rfl rfl⟩

theorem hostIssue_of_decode {w : Byte} {i : Instr} (h : decode w = .ok i) (s : State) : hostIssue w s = exec i s := by
  rw [hostIssue, h]

/-- Settles O12: the outcome of each test in turn, the tests before it having succeeded. -/
theorem firstFailingTestDecides : Obligations.FirstFailingTestDecides := by
  unfold Obligations.FirstFailingTestDecides
  refine ⟨fun w s hf hw => ?_, fun w i s h => hostIssue_of_decode h s, fun i s hf =>
    ⟨fun hc => faultsWith_of_commandBody_error hf (commandBody_eConfig hc),
      fun hc hs => faultsWith_of_commandBody_error hf (commandBody_eSeq hc hs),
      fun hc hs ht => faultsWith_of_commandBody_error hf (commandBody_eShape hc hs ht), fun hc hs ht => ?_⟩⟩
  · cases hd : decode w with
    | ok i => exact absurd hd (hw i)
    | error e => simp only [hostIssue, hd, illegalWord, hf, Bool.false_eq_true, if_false]
  · obtain ⟨t, h, htf, hv⟩ := exec_of_tests hf hc hs ht
    exact ⟨t, h, (commandBody_ok_changes (commandBody_ok_of_exec hf h htf)).status, htf, hv⟩

/-! ## What the outcome depends on -/

theorem sameConfig.configTest_eq {s s' : State} (hcfg : sameConfig s s') (i : Instr) :
    configTest i s = configTest i s' := by
  obtain ⟨-, -, hN, hp, hM, -, hS, -, htable⟩ := hcfg
  have hokN : s.okN = s'.okN := by rw [State.okN, State.okN, hN, hp]
  have hokM : s.okM = s'.okM := by rw [State.okM, State.okM, State.cfgK, State.cfgK, hM]
  have hokSweep : s.okSweep = s'.okSweep := by
    rw [State.okSweep, State.okSweep, State.sweepEntries, State.sweepEntries, hS, htable]
  cases i <;> simp only [configTest, hokN, hokM, hokSweep]

section

variable {s s' : State} {i : Instr} (hsrc : ∀ b ∈ sources i, sameBuffer s s' b)
include hsrc

theorem sequenceTest_congr : sequenceTest i s = sequenceTest i s' := by
  rw [sequenceTest, sequenceTest, Bool.eq_iff_iff, List.all_eq_true, List.all_eq_true]
  exact forall₂_congr fun b hb => by rw [(hsrc b hb).valid_eq]

variable (hcfg : sameConfig s s')
include hcfg

theorem shapeTest_congr : shapeTest i s = shapeTest i s' := by
  obtain ⟨-, -, hN, hp, hM, -, -, -, -⟩ := hcfg
  cases i
  case group =>
    have h : s.pbits = s'.pbits := hsrc .pbits (by decide)
    rw [shapeTest, shapeTest, State.cfgK, State.cfgK, h, hM]
  case totime =>
    have h : s.txgrid = s'.txgrid := hsrc .txgrid (by decide)
    simp only [shapeTest, h, hN]
  case toblk =>
    have h : s.rxwave = s'.rxwave := hsrc .rxwave (by decide)
    simp only [shapeTest, h, hN, hp]
  case tofreq =>
    have h : s.rxblk = s'.rxblk := hsrc .rxblk (by decide)
    simp only [shapeTest, h, hN]
  case trunc =>
    have h : s.rxflat = s'.rxflat := hsrc .rxflat (by decide)
    have hi : s.idx = s'.idx := hsrc .idx (by decide)
    simp only [shapeTest, h, hi]
  case sweep =>
    have hi : s.idx = s'.idx := hsrc .idx (by decide)
    have hw : s.txwave = s'.txwave := hsrc .txwave (by decide)
    simp only [shapeTest, hi, hw, hN, hp]
  all_goals rfl

/-- What a completing command writes is a function of its sources and of the configuration (10_state R33). -/
theorem commandBody_ok_repeatable {f : NumFormat} {t t' : State} (hchan : i ≠ .chan) (hsweep : i ≠ .sweep)
    (h : commandBody f i s = .ok t) (h' : commandBody f i s' = .ok t') {b : BufId} (hb : b ∈ destinations i) :
    sameBuffer t t' b := by
  have source_eq {α : Type} {o o' : Option α} {x x' : α} (ho : o = o') (hx : o = some x) (hx' : o' = some x') :
      x = x' :=
    Option.some.inj (hx.symm.trans (ho.trans hx'))
  obtain ⟨-, -, hN, hp, hM, -, -, -, -⟩ := hcfg
  cases i
  case nop => cases hb
  case chan => exact absurd rfl hchan
  case sweep => exact absurd rfl hsweep
  all_goals obtain rfl := List.mem_singleton.mp hb
  case b2b =>
    obtain ⟨x, hx, rfl⟩ := b2bBody_ok h
    obtain ⟨x', hx', rfl⟩ := b2bBody_ok h'
    obtain rfl : x = x' := source_eq (hsrc .inbuf (by decide)) hx hx'
    rfl
  case pad =>
    obtain ⟨-, x, hx, rfl⟩ := padBody_ok h
    obtain ⟨-, x', hx', rfl⟩ := padBody_ok h'
    obtain rfl : x = x' := source_eq (hsrc .bits (by decide)) hx hx'
    rw [sameBuffer, State.cfgK, State.cfgK, hM]
  case group =>
    obtain ⟨-, x, hx, -, rfl⟩ := groupBody_ok h
    obtain ⟨-, x', hx', -, rfl⟩ := groupBody_ok h'
    obtain rfl : x = x' := source_eq (hsrc .pbits (by decide)) hx hx'
    rw [sameBuffer, State.cfgK, State.cfgK, hM]
  case map =>
    obtain ⟨x, hx, rfl⟩ := mapBody_ok h
    obtain ⟨x', hx', rfl⟩ := mapBody_ok h'
    obtain rfl : x = x' := source_eq (hsrc .idx (by decide)) hx hx'
    rfl
  case grid =>
    obtain ⟨-, x, hx, rfl⟩ := gridBody_ok h
    obtain ⟨-, x', hx', rfl⟩ := gridBody_ok h'
    obtain rfl : x = x' := source_eq (hsrc .sym (by decide)) hx hx'
    rw [sameBuffer, hN]
  case totime =>
    obtain ⟨-, x, hx, -, rfl⟩ := totimeBody_ok h
    obtain ⟨-, x', hx', -, rfl⟩ := totimeBody_ok h'
    obtain rfl : x = x' := source_eq (hsrc .txgrid (by decide)) hx hx'
    rw [sameBuffer, hN, hp]
  case flattx =>
    obtain ⟨x, hx, rfl⟩ := flattxBody_ok h
    obtain ⟨x', hx', rfl⟩ := flattxBody_ok h'
    obtain rfl : x = x' := source_eq (hsrc .txblk (by decide)) hx hx'
    rfl
  case toblk =>
    obtain ⟨-, x, hx, -, rfl⟩ := toblkBody_ok h
    obtain ⟨-, x', hx', -, rfl⟩ := toblkBody_ok h'
    obtain rfl : x = x' := source_eq (hsrc .rxwave (by decide)) hx hx'
    rw [sameBuffer, hN, hp]
  case tofreq =>
    obtain ⟨-, x, hx, -, rfl⟩ := tofreqBody_ok h
    obtain ⟨-, x', hx', -, rfl⟩ := tofreqBody_ok h'
    obtain rfl : x = x' := source_eq (hsrc .rxblk (by decide)) hx hx'
    rw [sameBuffer, hN]
  case flatrx =>
    obtain ⟨x, hx, rfl⟩ := flatrxBody_ok h
    obtain ⟨x', hx', rfl⟩ := flatrxBody_ok h'
    obtain rfl : x = x' := source_eq (hsrc .rxgrid (by decide)) hx hx'
    rfl
  case demap =>
    obtain ⟨x, hx, rfl⟩ := demapBody_ok h
    obtain ⟨x', hx', rfl⟩ := demapBody_ok h'
    obtain rfl : x = x' := source_eq (hsrc .rxsym (by decide)) hx hx'
    rfl
  case trunc =>
    obtain ⟨flat, idx, hflat, hidx, -, rfl⟩ := truncBody_ok h
    obtain ⟨flat', idx', hflat', hidx', -, rfl⟩ := truncBody_ok h'
    obtain rfl : flat = flat' := source_eq (hsrc .rxflat (by decide)) hflat hflat'
    obtain rfl : idx = idx' := source_eq (hsrc .idx (by decide)) hidx hidx'
    rfl
  case repack =>
    obtain ⟨ints, bits, hints, hbits, rfl⟩ := repackBody_ok h
    obtain ⟨ints', bits', hints', hbits', rfl⟩ := repackBody_ok h'
    obtain rfl : ints = ints' := source_eq (hsrc .rxint (by decide)) hints hints'
    obtain rfl : bits = bits' := source_eq (hsrc .bits (by decide)) hbits hbits'
    rfl

end

/-- Settles O14: the tests decide alike on both states; a command that faults leaves its destinations invalid on
both, one that completes writes the same content. -/
theorem commandsAreRepeatable : Obligations.CommandsAreRepeatable := by
  unfold Obligations.CommandsAreRepeatable
  intro i s s' hchan hsweep hf hf' hcfg hsrc
  have hconfig := hcfg.configTest_eq i
  have hsequence := sequenceTest_congr hsrc
  have hshape := shapeTest_congr hsrc hcfg
  have both_fault {code : FaultCode} (h : commandBody Config.num i s = .error code)
      (h' : commandBody Config.num i s' = .error code) :
      ∃ t t', exec i s = .next t ∧ exec i s' = .next t' ∧ ∀ b ∈ destinations i, sameBuffer t t' b :=
    ⟨_, _, faultsWith_of_commandBody_error hf h, faultsWith_of_commandBody_error hf' h',
      fun b hb => sameBuffer_of_not_valid (raise_valid_of_mem hb ..) (raise_valid_of_mem hb ..)⟩
  cases hc : configTest i s with
  | false => exact both_fault (commandBody_eConfig hc) (commandBody_eConfig (hconfig ▸ hc))
  | true =>
    have hc' := hconfig ▸ hc
    cases hs : sequenceTest i s with
    | false => exact both_fault (commandBody_eSeq hc hs) (commandBody_eSeq hc' (hsequence ▸ hs))
    | true =>
      have hs' := hsequence ▸ hs
      cases ht : shapeTest i s with
      | false => exact both_fault (commandBody_eShape hc hs ht) (commandBody_eShape hc' hs' (hshape ▸ ht))
      | true =>
        obtain ⟨t, h, htf, -⟩ := exec_of_tests hf hc hs ht
        obtain ⟨t', h', htf', -⟩ := exec_of_tests hf' hc' hs' (hshape ▸ ht)
        exact ⟨t, t', h, h', fun b hb => commandBody_ok_repeatable hsrc hcfg hchan hsweep
          (commandBody_ok_of_exec hf h htf) (commandBody_ok_of_exec hf' h' htf') hb⟩

end Sys2Proof.Machine
end

section
/-! Command words and programs (30_encoding R80 to R86), what a faulted core does (60_exceptions R267), and the host's
writes and register reads (R280). -/

namespace Sys2Proof.Machine

open Sys2Proof

/-! ## Command words and programs -/

/-- Settles O1 by decoding the sixteen words. -/
theorem opcodeMapDecodes : Obligations.OpcodeMapDecodes := by
  unfold Obligations.OpcodeMapDecodes
  decide

theorem decode_encode (i : Instr) : decode (encode i) = .ok i := by
  cases i <;> rfl

/-- No two words of the opcode map select one command (30_encoding R82). -/
theorem encode_of_decode {w : Byte} {i : Instr} (h : decode w = .ok i) : encode i = w := by
  refine BitVec.eq_of_toNat_eq ?_
  unfold decode at h
  split at h
  case h_17 => cases h
  all_goals
    cases h
    exact Eq.symm ‹_›

/-- Settles O2, each direction by the cases of its own function. -/
theorem decodeEncodeAgree : Obligations.DecodeEncodeAgree := by
  unfold Obligations.DecodeEncodeAgree
  exact ⟨fun i rest => by rw [decodeBytes, decode_encode], fun w i h => encode_of_decode h⟩

theorem perform_issue_of_decode {w : Byte} {i : Instr} (h : decode w = .ok i) (s : State) :
    perform (.issue w) s = exec i s :=
  hostIssue_of_decode h s

/-- Settles O4: the step performs the issue, which decodes the word. -/
theorem stepIssuesDecodedCommand : Obligations.StepIssuesDecodedCommand := by
  unfold Obligations.StepIssuesDecodedCommand
  intro s w i rest hp hw
  rw [step_of_pending hp, perform_issue_of_decode hw]

theorem exec_faulted {s : State} (hs : s.faulted = true) (i : Instr) : exec i s = .next s := by
  rw [exec_eq_runCommand, runCommand_faulted hs]

/-- Settles O10: every command is run by `runCommand`, which leaves a faulted core as it is. -/
theorem faultedCoreRunsNoCommand : Obligations.FaultedCoreRunsNoCommand := by
  unfold Obligations.FaultedCoreRunsNoCommand
  exact fun i s hs => exec_faulted hs i

theorem commandOfText_mnemonic (i : Instr) : commandOfText (mnemonic i) = some i := by
  cases i <;> decide

/-- Settles O5: the expansions are those of the table, and a faulted core runs none of their commands. -/
theorem programsIssueTheirCommands : Obligations.ProgramsIssueTheirCommands := by
  unfold Obligations.ProgramsIssueTheirCommands
  refine ⟨rfl, rfl, rfl, fun p => ?_, fun i => ⟨rfl, commandOfText_mnemonic i⟩, fun p s hs i _ => exec_faulted hs i⟩
  cases p <;> rfl

/-! ## The idle core and the faulted core -/

/-- Settles O8: with an empty queue nothing is performed. -/
theorem idleCoreWaits : Obligations.IdleCoreWaits := by
  unfold Obligations.IdleCoreWaits
  intro s hp
  rw [step, performNext, hp]

theorem readRegister_isSome {no : Nat} (h : no < 10) (s : State) : ∃ v, readRegister s no = some v := by
  interval_cases no <;> exact ⟨_, rfl⟩

theorem step_readReg {s : State} {no : Nat} {v : RegValue} {rest : List HostAction}
    (hp : s.pending = .readReg no :: rest) (hv : readRegister s no = some v) :
    step s = .next { s with pending := rest, answer := some (.reg v) } := by
  have hv' : readRegister { s with pending := rest } no = some v := hv
  simp only [step_of_pending hp, perform, hostReadReg, hv']

theorem hostIssue_faulted {s : State} (hs : s.faulted = true) (w : Byte) : hostIssue w s = .next s := by
  rw [hostIssue]
  split
  · exact exec_faulted hs _
  · rw [illegalWord, if_pos hs]

theorem bufferElems_isSome {s : State} {b : BufId} (h : s.valid b = true) : ∃ es, bufferElems s b = some es := by
  rw [← Option.ne_none_iff_exists', Ne, bufferElems_eq_none_iff, h]
  decide

/-- A read of the length of a valid buffer answers (20_memory R61). -/
theorem hostReadLen_answers {s : State} {b : BufId} (h : s.valid b = true) :
    ∃ ans, hostReadLen b s = .next { s with answer := some ans } := by
  obtain ⟨es, hes⟩ := bufferElems_isSome h
  cases hg : bufferGrid s b with
  | none => exact ⟨.len es.length, by simp only [hostReadLen, hes, hg]⟩
  | some g => exact ⟨.shape g.rows g.cols, by simp only [hostReadLen, hes, hg]⟩

/-- Settles O9, action by action. -/
theorem faultedCoreIsStuck : Obligations.FaultedCoreIsStuck := by
  unfold Obligations.FaultedCoreIsStuck
  intro s a rest hs hp
  have hstep := step_of_pending hp
  have hs' : ({ s with pending := rest } : State).faulted = true := hs
  cases a with
  | reset => exact ⟨_, hstep.trans (perform_reset _), rfl⟩
  | writeReg no v => exact hstep.trans (if_pos hs')
  | writeSweep t e => exact hstep.trans (if_pos hs')
  | readReg no =>
    intro hno
    obtain ⟨v, hv⟩ := readRegister_isSome hno s
    exact ⟨v, hv, step_readReg hp hv⟩
  | readSweep t => exact hstep
  | loadInbuf bytes => exact hstep.trans (if_pos hs')
  | readBuf b i => exact fun es e hes he => (readsElements_of_bufferElems hp hes).1 e he
  | readLen b =>
    intro hb
    obtain ⟨ans, h⟩ := hostReadLen_answers (s := { s with pending := rest }) (b := b) (by cases b <;> exact hb)
    exact ⟨ans, hstep.trans h⟩
  | issue w => exact hstep.trans (hostIssue_faulted hs' w)
  | noise script => exact ⟨_, hstep, rfl⟩

/-! ## Reads and writes of the registers -/

/-- Settles O15, register by register; the word for `VALID` holds the valid flags by `validWord_bit`. -/
theorem readsAnswerTheRegisters : Obligations.ReadsAnswerTheRegisters := by
  unfold Obligations.ReadsAnswerTheRegisters
  refine fun s rest => ⟨fun q hq hp => step_readReg hp ?_, fun hp => ⟨s.validWord, step_readReg hp rfl, validWord_bit s⟩,
    fun t hp => step_of_pending hp⟩
  simp only [List.mem_cons, List.not_mem_nil, or_false] at hq
  obtain rfl | rfl | rfl | rfl | rfl | rfl | rfl | rfl | rfl := hq <;> rfl

theorem step_writeReg {s : State} {no : Nat} {v : RegValue} {rest : List HostAction} (hs : s.faulted = false)
    (hp : s.pending = .writeReg no v :: rest) :
    step s = writeRegister Config.limits no v { s with pending := rest } := by
  rw [step_of_pending hp, perform, hostWriteReg_of_not_faulted (by exact hs)]

/-- Settles O50, register by register: no limit stands in the way of a write at the default limits. -/
theorem writeRegChangesOneRegister : Obligations.WriteRegChangesOneRegister := by
  unfold Obligations.WriteRegChangesOneRegister
  refine fun s rest hs => ⟨fun x hp => step_writeReg hs hp, fun x hp => step_writeReg hs hp,
    fun n hp => step_writeReg hs hp, fun n hp => step_writeReg hs hp, fun n hp => step_writeReg hs hp,
    fun x hp => step_writeReg hs hp, fun n hp => step_writeReg hs hp, fun e hp => step_writeReg hs hp, ?_⟩
  rintro v (hp | hp) <;> exact ⟨_, step_writeReg hs hp⟩

/-- Settles O51: a write to a table in form is read back at its index and changes no other entry. -/
theorem writeSweepChangesOneEntry : Obligations.WriteSweepChangesOneEntry := by
  unfold Obligations.WriteSweepChangesOneEntry
  intro s t e rest hs hp hwf
  have htable := ((memory_wf_iff s).mp hwf).1
  refine ⟨sweepWrite s.sweepTable t e, ?_, sweepRead_sweepWrite_same _ _ _ htable,
    fun u hu => sweepRead_sweepWrite_other _ _ _ _ hu htable⟩
  rw [step_of_pending hp, perform, hostWriteSweep_of_not_faulted (by exact hs), fitsTable_limits, fitsWidth_limits,
    keeping_true, keeping_true]

/-- Settles O52: the payload reaches no buffer but `INBUF`. -/
theorem loadInbufChangesInbufOnly : Obligations.LoadInbufChangesInbufOnly := by
  unfold Obligations.LoadInbufChangesInbufOnly
  intro s bytes rest hs hp
  refine ⟨_, ?_, rfl, rfl, fun b hb => ?_⟩
  · rw [step_of_pending hp, perform, hostLoadInbuf_of_not_faulted (by exact hs), fitsCapacity_limits, keeping_true]
  · exact (sameBuffer_withInbuf hb { s with pending := rest } bytes).valid_eq.symm

end Sys2Proof.Machine
end

section
/-! The transforms as complex sums (42_cmac_dft R145 to R149): the formulas, each transform the inverse of the other,
linearity, the sizes 1 and 2. -/

namespace Sys2Proof.Machine

open Sys2Proof

/-- Settles O26 by the formula for each element. -/
theorem forwardTransformFormula : Obligations.ForwardTransformFormula := by
  unfold Obligations.ForwardTransformFormula
  exact fun N x _ hx => ⟨dft_length N x, fun m hm => dft_elemVal hx hm⟩

/-- Settles O27 by the formula for each element. -/
theorem inverseTransformFormula : Obligations.InverseTransformFormula := by
  unfold Obligations.InverseTransformFormula
  exact fun N X _ hX => ⟨idft_length N X, fun n hn => idft_elemVal hX hn⟩

/-! ## Sequences as complex numbers -/

theorem map_val_eq_range (x : List Cplx) : x.map Cplx.val = (List.range x.length).map (elemVal x) := by
  refine List.ext_getElem (by simp) fun i h _ => ?_
  rw [List.length_map] at h
  simp [elemVal, h]

/-- Sequences of one length with the same complex numbers at each position. -/
theorem map_val_eq {x y : List Cplx} (hlen : x.length = y.length) (h : ∀ i < y.length, elemVal x i = elemVal y i) :
    x.map Cplx.val = y.map Cplx.val := by
  rw [map_val_eq_range, map_val_eq_range, hlen]
  exact List.map_congr_left fun i hi => h i (List.mem_range.mp hi)

/-! ## The inverse pair -/

section

variable {N a b : Nat} (ha : a < N) (hb : b < N)
include ha hb

/-- Different columns of the transform differ by a root of unity other than 1. -/
theorem exp_turn_ne_one (hab : a ≠ b) : Complex.exp (2 * Real.pi * Complex.I * ((a - b) / N)) ≠ 1 := by
  have hN : (N : ℂ) ≠ 0 := by
    rw [Nat.cast_ne_zero]
    omega
  rw [Ne, Complex.exp_eq_one_iff]
  rintro ⟨k, hk⟩
  rw [mul_comm (k : ℂ)] at hk
  have hmul : (a : ℂ) - b = N * k := by
    rw [← mul_left_cancel₀ Complex.two_pi_I_ne_zero hk, mul_div_cancel₀ _ hN]
  have hdvd : (N : ℤ) ∣ (a : ℤ) - b := ⟨k, by exact_mod_cast hmul⟩
  have := Int.eq_zero_of_abs_lt_dvd hdvd (by rw [abs_lt]; omega)
  omega

/-- The roots of unity cancel: the sum over `n` of `exp(2πj·(a − b)·n/N)` is `N` at `a = b`, and else 0. -/
theorem sum_exp_cancel :
    ∑ n ∈ Finset.range N, Complex.exp ((2 * Real.pi * (a * n) / N) * Complex.I) *
      Complex.exp (-(2 * Real.pi * (b * n) / N) * Complex.I) = if a = b then (N : ℂ) else 0 := by
  have hN : (N : ℂ) ≠ 0 := by
    rw [Nat.cast_ne_zero]
    omega
  set z : ℂ := Complex.exp (2 * Real.pi * Complex.I * ((a - b) / N)) with hz
  have hterm (n : Nat) : Complex.exp ((2 * Real.pi * (a * n) / N) * Complex.I) *
      Complex.exp (-(2 * Real.pi * (b * n) / N) * Complex.I) = z ^ n := by
    rw [hz, ← Complex.exp_add, ← Complex.exp_nat_mul]
    congr 1
    ring
  simp only [hterm]
  split_ifs with hab
  · simp [hz, hab]
  · have hroot : z ^ N = 1 := by
      rw [hz, ← Complex.exp_nat_mul, Complex.exp_eq_one_iff]
      refine ⟨(a : ℤ) - b, ?_⟩
      push_cast
      field_simp
    rw [geom_sum_eq (exp_turn_ne_one ha hb hab), hroot, sub_self, zero_div]

end

/-- A double sum over a kernel whose rows sum to `N` at `k` and to 0 elsewhere. -/
theorem sum_sum_kernel {N k : Nat} (hk : k < N) (x : Nat → ℂ) (e : Nat → Nat → ℂ)
    (he : ∀ m < N, ∑ n ∈ Finset.range N, e m n = if m = k then (N : ℂ) else 0) :
    (1 / (N : ℂ)) * ∑ n ∈ Finset.range N, ∑ m ∈ Finset.range N, x m * e m n = x k := by
  have hN : (N : ℂ) ≠ 0 := by
    rw [Nat.cast_ne_zero]
    omega
  have hsum : ∑ n ∈ Finset.range N, ∑ m ∈ Finset.range N, x m * e m n = x k * N := by
    calc ∑ n ∈ Finset.range N, ∑ m ∈ Finset.range N, x m * e m n
        = ∑ m ∈ Finset.range N, x m * ∑ n ∈ Finset.range N, e m n := by
          rw [Finset.sum_comm]
          exact Finset.sum_congr rfl fun m _ => (Finset.mul_sum ..).symm
      _ = ∑ m ∈ Finset.range N, x m * if m = k then (N : ℂ) else 0 :=
          Finset.sum_congr rfl fun m hm => by rw [he m (Finset.mem_range.mp hm)]
      _ = x k * N := by simp [hk]
  rw [hsum, one_div, mul_comm, mul_inv_cancel_right₀ hN]

theorem dft_idft_elemVal {N : Nat} {x : List Cplx} (hx : x.length = N) {k : Nat} (hk : k < N) :
    elemVal (dft N (idft N x)) k = elemVal x k := by
  rw [dft_elemVal (idft_length N x) hk]
  refine Eq.trans ?_ (sum_sum_kernel hk (elemVal x) _ fun m hm => sum_exp_cancel hm hk)
  rw [Finset.mul_sum]
  refine Finset.sum_congr rfl fun n hn => ?_
  rw [idft_elemVal hx (Finset.mem_range.mp hn), mul_assoc, Finset.sum_mul]
  simp only [mul_assoc]

theorem idft_dft_elemVal {N : Nat} {x : List Cplx} (hx : x.length = N) {k : Nat} (hk : k < N) :
    elemVal (idft N (dft N x)) k = elemVal x k := by
  rw [idft_elemVal (dft_length N x) hk]
  refine Eq.trans ?_ (sum_sum_kernel hk (elemVal x) _ fun n hn => (sum_exp_cancel hk hn).trans (by simp only [eq_comm]))
  refine congrArg _ (Finset.sum_congr rfl fun m hm => ?_)
  rw [dft_elemVal hx (Finset.mem_range.mp hm), Finset.sum_mul]
  refine Finset.sum_congr rfl fun n _ => ?_
  rw [mul_comm (m : ℂ) n, mul_comm (m : ℂ) k]
  ring

theorem map_val_dft_idft {N : Nat} {x : List Cplx} (hx : x.length = N) :
    (dft N (idft N x)).map Cplx.val = x.map Cplx.val :=
  map_val_eq ((dft_length N _).trans hx.symm) fun _ hk => dft_idft_elemVal hx (hx ▸ hk)

/-- Settles O28: the roots of unity cancel in the double sum that the two transforms make. -/
theorem transformsAreInverse : Obligations.TransformsAreInverse := by
  unfold Obligations.TransformsAreInverse
  exact fun N x _ hx => ⟨map_val_dft_idft hx,
    map_val_eq ((idft_length N _).trans hx.symm) fun _ hk => idft_dft_elemVal hx (hx ▸ hk)⟩

/-! ## Linearity, and the smallest sizes -/

/-- Element `i` of `x + s·y`. -/
theorem elemVal_zipWith_add_mul {x y : List Cplx} {s : Cplx} {i : Nat} (hx : i < x.length) (hy : i < y.length) :
    elemVal (List.zipWith (fun a b => Cplx.add a (Cplx.mul s b)) x y) i = elemVal x i + s.val * elemVal y i := by
  simp [elemVal, hx, hy]

theorem elemVal_impulse (c : Cplx) (N n : Nat) :
    elemVal (c :: List.replicate N Cplx.zero) n = if n = 0 then c.val else 0 := by
  cases n with
  | zero => rfl
  | succ n => by_cases hn : n < N <;> simp [elemVal, hn]

/-- Settles O29: both formulas are sums of products with the elements. -/
theorem transformsAreLinear : Obligations.TransformsAreLinear := by
  unfold Obligations.TransformsAreLinear
  refine ⟨?_, fun N c k hk => ?_⟩
  · intro N x y s _ hx hy z k hk
    have hz : z.length = N := by simp [z, hx, hy]
    have helem : ∀ n ∈ Finset.range N, elemVal z n = elemVal x n + s.val * elemVal y n := fun n hn => by
      rw [Finset.mem_range] at hn
      exact elemVal_zipWith_add_mul (hx ▸ hn) (hy ▸ hn)
    have hsum (e : Nat → ℂ) : ∑ n ∈ Finset.range N, elemVal z n * e n =
        ∑ n ∈ Finset.range N, elemVal x n * e n + s.val * ∑ n ∈ Finset.range N, elemVal y n * e n := by
      rw [Finset.mul_sum, ← Finset.sum_add_distrib]
      exact Finset.sum_congr rfl fun n hn => by rw [helem n hn]; ring
    constructor
    · rw [dft_elemVal hz hk, dft_elemVal hx hk, dft_elemVal hy hk, hsum]
    · rw [idft_elemVal hz hk, idft_elemVal hx hk, idft_elemVal hy hk, hsum]
      ring
  · have hlen : (c :: List.replicate (N - 1) Cplx.zero).length = N := by
      simp
      omega
    rw [dft_elemVal hlen hk]
    simp [elemVal_impulse, k.zero_lt_of_lt hk]

/-- Settles O30: the formulas at `N = 1` and `N = 2`, where `exp(±πj) = −1`. -/
theorem transformSizesOneAndTwo : Obligations.TransformSizesOneAndTwo := by
  unfold Obligations.TransformSizesOneAndTwo
  intro a b
  have hfirst (z : Cplx) (zs : List Cplx) : elemVal (z :: zs) 0 = z.val := rfl
  have hsecond : elemVal [a, b] 1 = b.val := rfl
  refine ⟨?_, ?_, ?_, ?_⟩
  · rw [map_val_eq_range, dft_length]
    simp [dft_elemVal, hfirst]
  · rw [map_val_eq_range, idft_length]
    simp [idft_elemVal, hfirst]
  · rw [map_val_eq_range, dft_length]
    simp [dft_elemVal, hfirst, hsecond, List.range_succ, Finset.sum_range_succ, Complex.exp_neg, ← sub_eq_add_neg]
  · rw [map_val_eq_range, idft_length]
    simp [idft_elemVal, hfirst, hsecond, List.range_succ, Finset.sum_range_succ, div_eq_inv_mul, ← sub_eq_add_neg]

end Sys2Proof.Machine
end

section
/-! `DEMAP` after `MAP` (41_symbolmapper R125), and the Grids that `TOTIME` and `TOFREQ` write (43_ofdm_framer R161,
R163, 45_ofdm_deframer R201), up to the round trip without noise (R205). -/

namespace Sys2Proof.Machine

open Sys2Proof

/-! ## `DEMAP` after `MAP` -/

theorem toRat?_ofRat (q : Rat) : (Num.ofRat q).toRat? = some q := by
  by_cases hq : q = 0 <;> simp [Num.ofRat, Num.toRat?, hq]

theorem nearest?_intCast (z : ℤ) : Num.nearest? z = some z := by
  simp [Num.nearest?]

/-- A known integer is its own rounding (41_symbolmapper R126). -/
theorem round_ofRat_intCast (z : ℤ) : Num.round (Num.ofRat z) = .lit z := by
  simp only [Num.round, toRat?_ofRat, nearest?_intCast]

theorem round_mapIndex_re (i : Nat) : Num.round (mapIndex i).re = .lit (2 * (i : ℤ) - 1) := by
  rw [← round_ofRat_intCast]
  push_cast
  rfl

theorem round_mapIndex_im (i : Nat) : Num.round (mapIndex i).im = .lit (-1) := by
  rw [← round_ofRat_intCast]
  push_cast
  rfl

theorem demapSymbol_mapIndex (i : Nat) : demapSymbol Config.num (mapIndex i) = ⟨.lit (2 * (i : ℤ) - 1), .lit (-1)⟩ := by
  rw [demapSymbol, Config.num_round, round_mapIndex_re, round_mapIndex_im]

/-- Settles O25: both parts of a mapped symbol are known integers. -/
theorem demapIsNotTheInverseOfMap : Obligations.DemapIsNotTheInverseOfMap := by
  unfold Obligations.DemapIsNotTheInverseOfMap
  refine ⟨fun s t idx hs hidx h => ?_, fun i => by omega⟩
  rw [exec_map hs hidx] at h
  cases h
  refine ⟨_, exec_demap (by exact hs) rfl, ?_⟩
  simp only [List.map_map, Function.comp_def, demapSymbol_mapIndex]

/-! ## `TOTIME` -/

theorem cpins_getD_front {t : List Cplx} {p i : Nat} (hi : i < p) (hp : p ≤ t.length) (z : Cplx) :
    (cpins t p).getD i z = t.getD (t.length - p + i) z := by
  rw [cpins, List.getD_append _ _ _ _ (by rw [List.length_drop]; omega)]
  simp

theorem cpins_getD_block {t : List Cplx} {p : Nat} (hp : p ≤ t.length) (n : Nat) (z : Cplx) :
    (cpins t p).getD (p + n) z = t.getD n z := by
  rw [cpins, List.getD_append_right _ _ _ _ (by rw [List.length_drop]; omega), List.length_drop]
  congr 1
  omega

@[simp] theorem toTimeDomain_rows (f : NumFormat) (N p : Nat) (g : Grid) : (toTimeDomain f N p g).rows = N + p := rfl

@[simp] theorem toTimeDomain_cols (f : NumFormat) (N p : Nat) (g : Grid) : (toTimeDomain f N p g).cols = g.cols := rfl

section

variable {N p : Nat} (hp : p ≤ N) {g : Grid} {c : Nat} (hc : c < g.cols)
include hp hc

/-- From row `p` on the samples are the inverse transform of the column (43_ofdm_framer R161, R163). -/
theorem gridElem_toTimeDomain_block {n : Nat} (hn : n < N) :
    gridElem (toTimeDomain Config.num N p g) (p + n) c = (idft N (g.col c)).getD n Cplx.zero := by
  have hrow : p + n < (toTimeDomain Config.num N p g).rows := by
    rw [toTimeDomain_rows]
    omega
  rw [← col_getD _ _ _ hrow, toTimeDomain_col _ N p hp g (fun _ _ => idft_length N _) c hc,
    cpins_getD_block (by rwa [Config.num_idft, idft_length]), Config.num_idft]

/-- The first `p` samples are a verbatim copy of the last (43_ofdm_framer R163, R164). -/
theorem gridElem_toTimeDomain_front {i : Nat} (hi : i < p) :
    gridElem (toTimeDomain Config.num N p g) i c = gridElem (toTimeDomain Config.num N p g) (N + i) c := by
  have hrow : i < (toTimeDomain Config.num N p g).rows := by
    rw [toTimeDomain_rows]
    omega
  rw [show N + i = p + (N - p + i) by omega, gridElem_toTimeDomain_block hp hc (by omega), ← col_getD _ _ _ hrow,
    toTimeDomain_col _ N p hp g (fun _ _ => idft_length N _) c hc,
    cpins_getD_front hi (by rwa [Config.num_idft, idft_length]), Config.num_idft, idft_length]

end

theorem elemVal_col {g : Grid} {r : Nat} (hr : r < g.rows) (c : Nat) : elemVal (g.col c) r = (gridElem g r c).val := by
  rw [elemVal, col_getD g r c hr]

/-- Settles O33: each column of the Grid that `TOTIME` writes is the inverse transform of the column behind a copy of
its last samples. -/
theorem totimeTransformsAndPrefixes : Obligations.TotimeTransformsAndPrefixes := by
  unfold Obligations.TotimeTransformsAndPrefixes
  refine ⟨by decide, fun s hs => ⟨fun h => ?_, fun h => ?_⟩⟩
  · exact faultsWith_of_commandBody_error hs (totimeBody_of_not_okN (okN_eq_false h))
  have hn : s.okN = true := (okN_iff s).mpr h
  obtain ⟨-, hp⟩ := h
  refine ⟨fun h => faultsWith_of_commandBody_error hs (totimeBody_of_none hn h),
    fun g h => ⟨fun hr => ?_, fun hr hg => ?_⟩⟩
  · exact faultsWith_of_commandBody_error hs (totimeBody_of_other_rows hn h hr)
  · refine ⟨toTimeDomain Config.num s.cfgN s.cfgCp g, exec_totime hs hn h hr, toTimeDomain_rows ..,
      toTimeDomain_cols .., wellFormed_length (toTimeDomain_wf _ _ _ hp.le), fun c hc i hi => ?_, fun c hc n hn => ?_⟩
    · exact gridElem_toTimeDomain_front hp.le (toTimeDomain_cols .. ▸ hc) hi
    rw [toTimeDomain_cols] at hc
    have hcol : (g.col c).length = s.cfgN := (col_length g hg c hc).trans hr
    rw [gridElem_toTimeDomain_block hp.le hc hn]
    refine (idft_elemVal hcol hn).trans (congrArg _ (Finset.sum_congr rfl fun m hm => ?_))
    rw [elemVal_col (hr ▸ Finset.mem_range.mp hm)]

/-! ## `TOFREQ` -/

@[simp] theorem toFrequencyDomain_rows (f : NumFormat) (N : Nat) (g : Grid) : (toFrequencyDomain f N g).rows = N := rfl

@[simp] theorem toFrequencyDomain_cols (f : NumFormat) (N : Nat) (g : Grid) :
    (toFrequencyDomain f N g).cols = g.cols := rfl

/-- Settles O39: each column of the Grid that `TOFREQ` writes is the forward transform of the column. -/
theorem tofreqTransformsColumns : Obligations.TofreqTransformsColumns := by
  unfold Obligations.TofreqTransformsColumns
  refine ⟨by decide, fun s hs => ⟨fun h => ?_, fun h => ?_⟩⟩
  · exact faultsWith_of_commandBody_error hs (tofreqBody_of_not_okN (okN_eq_false h))
  have hn : s.okN = true := (okN_iff s).mpr h
  refine ⟨fun h => faultsWith_of_commandBody_error hs (tofreqBody_of_none hn h),
    fun g h => ⟨fun hr => ?_, fun hr hg => ?_⟩⟩
  · exact faultsWith_of_commandBody_error hs (tofreqBody_of_other_rows hn h hr)
  · refine ⟨toFrequencyDomain Config.num s.cfgN g, exec_tofreq hs hn h hr, toFrequencyDomain_rows ..,
      toFrequencyDomain_cols .., wellFormed_length (toFrequencyDomain_wf _ _), fun c hc m hm => ?_⟩
    rw [toFrequencyDomain_cols] at hc
    have hcol : (g.col c).length = s.cfgN := (col_length g hg c hc).trans hr
    rw [← elemVal_col (by rwa [toFrequencyDomain_rows]), toFrequencyDomain_col _ _ _ (fun _ _ => dft_length _ _) c hc]
    refine (dft_elemVal hcol hm).trans (Finset.sum_congr rfl fun n hn => ?_)
    rw [elemVal_col (hr ▸ Finset.mem_range.mp hn)]

/-! ## The round trip without noise -/

theorem toTimeDomain_data_length {N p : Nat} (hp : p ≤ N) (g : Grid) :
    (toTimeDomain Config.num N p g).data.length = (N + p) * g.cols :=
  wellFormed_length (toTimeDomain_wf N p g hp)

section

variable {N p : Nat} (hN : 1 ≤ N) (hp : p ≤ N) (g : Grid)
include hN hp

theorem toTimeDomain_blocks : (toTimeDomain Config.num N p g).data.length / (N + p) = g.cols := by
  rw [toTimeDomain_data_length hp, Nat.mul_div_cancel_left _ (by omega)]

/-- The remover takes off what the inserter put on, block by block (45_ofdm_deframer R203, R205). -/
theorem deframe_toTimeDomain : deframe Config.num (toTimeDomain Config.num N p g).data N p =
    (List.range g.cols).flatMap fun c => dft N (idft N (g.col c)) := by
  rw [deframe, toTimeDomain_blocks hN hp]
  refine List.flatMap_congr fun c hc => ?_
  have hcol := toTimeDomain_col Config.num N p hp g (fun _ _ => idft_length N _) c (List.mem_range.mp hc)
  rw [Grid.col] at hcol
  rw [show chunk (toTimeDomain Config.num N p g).data (N + p) c = _ from hcol,
    cprem_cpins _ _ (by rwa [Config.num_idft, idft_length]), Config.num_dft, Config.num_idft]

theorem deframe_toTimeDomain_val (hr : g.rows = N) (hg : g.wellFormed = true) :
    (deframe Config.num (toTimeDomain Config.num N p g).data N p).map Cplx.val = g.data.map Cplx.val := by
  have hcols : (List.range g.cols).flatMap (fun c => g.col c) = g.data := flatMap_chunk _ _ _ (wellFormed_length hg)
  rw [deframe_toTimeDomain hN hp, ← hcols, List.map_flatMap, List.map_flatMap]
  exact List.flatMap_congr fun c hc => map_val_dft_idft ((col_length g hg c (List.mem_range.mp hc)).trans hr)

end

/-- Settles O42: the four commands complete, and the received grid holds the deframed waveform. -/
theorem zeroNoiseRoundTrip : Obligations.ZeroNoiseRoundTrip := by
  unfold Obligations.ZeroNoiseRoundTrip
  intro s g hs hN hp h hr hg
  have hn : s.okN = true := (okN_iff s).mpr ⟨hN, hp⟩
  have hlen : (toTimeDomain Config.num s.cfgN s.cfgCp g).data.length % (s.cfgN + s.cfgCp) = 0 := by
    rw [toTimeDomain_data_length hp.le, Nat.mul_mod_right]
  refine ⟨_, _, _, _, exec_totime hs hn h hr, exec_flattx (by exact hs) rfl,
    exec_toblk (by exact hs) (by exact hn) rfl (by exact hlen),
    exec_tofreq (by exact hs) (by exact hn) rfl rfl, hs, _, rfl, hr.symm, toTimeDomain_blocks hN hp.le g, ?_⟩
  rw [toFrequencyDomain_toBlocks _ _ _ _ hlen]
  exact deframe_toTimeDomain_val hN hp.le g hr hg

end Sys2Proof.Machine
end

section
/-! The noise of one use (30_encoding R85, 44_channel R183, R186), seeded trials and trials without noise
(46_sweep R225, R227), and `REPACK` in closed form (47_output_and_misc R242). -/

namespace Sys2Proof.Machine

open Sys2Proof

/-! ## `CHAN` -/

theorem noiseVal_of_zeros {seed : Seed} (h : seed.en = false) (free i : Nat) :
    noiseVal seed (some .zeros) free i = 0 := by
  simp [noiseVal, h]

theorem noiseVal_of_samples {seed : Seed} (h : seed.en = false) {ws : List Cplx} {i : Nat} (hi : i < ws.length)
    (free : Nat) : noiseVal seed (some (.samples ws)) free i = elemVal ws i := by
  simp [noiseVal, h, hi]

/-- Settles O36: the oldest script gives the samples of an unseeded use and is taken off the queue. -/
theorem chanUsesNoiseScript : Obligations.ChanUsesNoiseScript := by
  unfold Obligations.ChanUsesNoiseScript
  intro s x script rest hs hseed hx hscript
  have hleft : (noise Config.num s.nomSeed x.length s.noiseScript s.freeIdx).script = rest := by
    rw [noise_script, hseed, hscript]
    rfl
  have helem : ∀ i < x.length, elemVal (channel Config.num x s.cfgSnrNom
      (noise Config.num s.nomSeed x.length s.noiseScript s.freeIdx).w) i =
      elemVal x i + Real.sqrt ((10 : ℝ) ^ (-s.cfgSnrNom.val / 10)) * noiseVal s.nomSeed (some script) s.freeIdx i := by
    intro i hi
    rw [channel_elemVal _ _ _ (noise_length ..) _ hi, noise_elemVal _ _ _ _ _ hi, hscript]
    rfl
  refine ⟨_, _, hleft ▸ exec_chan hs hx, channel_length _ _ _ _ (noise_length ..), ?_⟩
  cases script with
  | zeros => exact fun i hi => by rw [helem i hi, noiseVal_of_zeros hseed, mul_zero, add_zero]
  | samples ws => exact fun i hi hw => by rw [helem i hi, noiseVal_of_samples hseed hw]

/-- A seeded use depends on the seed value only (44_channel R186). -/
theorem noise_w_of_seeded {seed : Seed} (h : seed.en = true) (f : NumFormat) (L : Nat) (script : List NoiseScript)
    (free : Nat) : (noise f seed L script free).w = seededNoise f seed.val L := by
  simp only [noise, h, if_true]

/-- Settles O37: a seeded use gives the same noise in both states. -/
theorem seededChanIsRepeatable : Obligations.SeededChanIsRepeatable := by
  unfold Obligations.SeededChanIsRepeatable
  intro s s' x hs hs' hx hx' hsnr hseed hen
  refine ⟨_, _, _, exec_chan hs hx, exec_chan hs' hx', rfl, ?_⟩
  rw [noise_w_of_seeded hen, noise_w_of_seeded (hseed ▸ hen), hsnr, hseed]

/-! ## Seeded trials -/

/-- The rate of a seeded trial does not depend on the scripts and the free values before it (46_sweep R225). -/
theorem trial_rate_of_seeded {e : SweepEntry} (he : e.seed.en = true) {idx : List Nat} (hi : idx ≠ []) (f : NumFormat)
    (wave : List Cplx) (N p : Nat) (script script' : List NoiseScript) (free free' : Nat) :
    (trial f idx wave N p e script free).rate = (trial f idx wave N p e script' free').rate := by
  have hlen : idx.length ≠ 0 := fun h => hi (List.eq_nil_of_length_eq_zero h)
  simp only [trial, if_neg hlen, noise_w_of_seeded he]

/-- Entry `k` of the result of a sweep that completes. -/
theorem exec_sweep_entry {s t : State} {idx : List Nat} {wave : List Cplx} {res : List (HostReal × Rate)} {k : Nat}
    (hs : s.faulted = false) (hi : s.idx = some idx) (hne : idx ≠ []) (hw : s.txwave = some wave)
    (h : exec .sweep s = .next t) (ht : t.faulted = false) (hres : t.result = some res) (hk : k < s.cfgSweepLen) :
    ∃ script free, res[k]? = some ((sweepRead s.sweepTable k).snr,
      (trial Config.num idx wave s.cfgN s.cfgCp (sweepRead s.sweepTable k) script free).rate) := by
  obtain ⟨-, -, idx', wave', hi', hw', -, -, rfl⟩ := sweepBody_ok (commandBody_ok_of_exec hs h ht)
  obtain rfl := Option.some.inj (hi.symm.trans hi')
  obtain rfl := Option.some.inj (hw.symm.trans hw')
  obtain rfl := Option.some.inj hres
  exact ⟨_, _, sweepTrials_entry _ _ _ _ _ hne _ _ _ _ _ (sweepEntries_getElem? hk)⟩

/-- Settles O45: entry `k` of either result is the trial of the same seeded sweep entry. -/
theorem seededTrialsAreIndependent : Obligations.SeededTrialsAreIndependent := by
  unfold Obligations.SeededTrialsAreIndependent
  intro s s' t t' idx wave res res' k hs hs' hi hi' hne hw hw' hN hp h ht h' ht' hres hres' hk hk' hentry hseed
  obtain ⟨script, free, hr⟩ := exec_sweep_entry hs hi hne hw h ht hres hk
  obtain ⟨script', free', hr'⟩ := exec_sweep_entry hs' hi' hne hw' h' ht' hres' hk'
  refine ⟨_, hr, ?_⟩
  rw [hr', ← hentry, ← hN, ← hp, trial_rate_of_seeded hseed hne]

/-! ## Trials without noise -/

theorem noisyWave_of_zeros {e : SweepEntry} (he : e.seed.en = false) {script : List NoiseScript}
    (hs : script[0]? = some .zeros) {wave : List Cplx} {j : Nat} (hj : j < wave.length) (free : Nat) :
    elemVal (noisyWave wave e script free) j = elemVal wave j := by
  rw [noisyWave_elemVal hj, hs, noiseVal_of_zeros he, mul_zero, add_zero]

/-- The deframed symbols depend on the numbers that the samples denote only (45_ofdm_deframer R204). -/
theorem deframe_val_congr {N p : Nat} (hN : 1 ≤ N) {x y : List Cplx} (hl : x.length % (N + p) = 0)
    (hlen : y.length = x.length) (h : ∀ j < x.length, elemVal y j = elemVal x j) :
    (deframe Config.num y N p).map Cplx.val = (deframe Config.num x N p).map Cplx.val := by
  refine map_val_eq (by rw [deframe_length, deframe_length, hlen]) fun i hi => ?_
  rw [deframe_length] at hi
  have hc : i / N < x.length / (N + p) := Nat.div_lt_of_lt_mul hi
  have hm : i % N < N := Nat.mod_lt i hN
  have hpos : i / N * N + i % N = i := by rw [Nat.mul_comm, Nat.div_add_mod]
  rw [← hpos, deframe_elemVal (hlen ▸ hl) (hlen ▸ hc) hm, deframe_elemVal hl hc hm]
  exact Finset.sum_congr rfl fun n hn => by rw [h _ (block_sample_lt hc (Finset.mem_range.mp hn))]

/-- The recovered integers depend on the numbers that the symbols denote only (46_sweep R221). -/
theorem recovered_val (flat : List Cplx) (n : Nat) :
    (recovered Config.num flat n).map IntTerm.val = ((flat.map Cplx.val).take n).map fun z => roundReal z.re := by
  simp [recovered, Function.comp_def]

/-- The first elements of the Grid are the symbols (43_ofdm_framer R160). -/
theorem buildGrid_data_take (N : Nat) (syms : List Cplx) : (buildGrid N syms).data.take syms.length = syms :=
  List.take_left

/-- The waveform that `GRID` and `TOTIME` make of the mapped indices (46_sweep R227). -/
def mappedWave (N p : Nat) (idx : List Nat) : List Cplx :=
  (toTimeDomain Config.num N p (buildGrid N (idx.map mapIndex))).data

theorem roundReal_mapIndex (i : Nat) : roundReal (mapIndex i).val.re = 2 * (i : ℤ) - 1 := by
  rw [Cplx.val_re, ← IntTerm.val_round, round_mapIndex_re]
  rfl

section

variable {N p : Nat} (hN : 1 ≤ N) (hp : p ≤ N) (idx : List Nat)
include hp

theorem mappedWave_length_mod : (mappedWave N p idx).length % (N + p) = 0 := by
  rw [mappedWave, toTimeDomain_data_length hp, Nat.mul_mod_right]

include hN

theorem length_le_mappedWave : idx.length ≤ (mappedWave N p idx).length / (N + p) * N := by
  have hcover := (buildGrid_cols_le_iff hN (idx.map mapIndex) _).mp le_rfl
  rwa [mappedWave, toTimeDomain_blocks hN hp, ← List.length_map mapIndex]

/-- Without noise the recovered integer of an index `i` is `2·i − 1` (41_symbolmapper R125, 46_sweep R227). -/
theorem trialIntegers_mappedWave {e : SweepEntry} (he : e.seed.en = false) {script : List NoiseScript}
    (hs : script[0]? = some .zeros) (free : Nat) :
    trialIntegers idx.length (mappedWave N p idx) N p e script free = idx.map fun (i : Nat) => 2 * (i : ℤ) - 1 := by
  rw [trialIntegers, recovered_val, deframe_val_congr hN (mappedWave_length_mod hp idx) (noisyWave_length ..)
    (fun j hj => noisyWave_of_zeros he hs hj free), mappedWave,
    deframe_toTimeDomain_val hN hp _ (buildGrid_rows ..) (buildGrid_wf _ _ hN)]
  rw [← List.map_take, ← List.length_map (as := idx) mapIndex, buildGrid_data_take, List.map_map, List.map_map]
  exact List.map_congr_left fun i _ => roundReal_mapIndex i

end

theorem countP_mapped_ne (idx : List Nat) :
    ((idx.map fun (i : Nat) => 2 * (i : ℤ) - 1).zip idx).countP (fun p => decide (p.1 ≠ (p.2 : ℤ))) =
      idx.countP fun i => decide (i ≠ 1) := by
  rw [← List.map_prod_right_eq_zip, List.countP_map]
  refine List.countP_congr fun i _ => ?_
  simp
  omega

/-- Settles O46: every trial takes a script of zeros, so that its integers are those of the mapped indices. -/
theorem zeroNoiseRateCountsIndicesOtherThanOne : Obligations.ZeroNoiseRateCountsIndicesOtherThanOne := by
  unfold Obligations.ZeroNoiseRateCountsIndicesOtherThanOne
  intro s idx hs hokN hokSweep hi hne hw hseed hscript
  change s.txwave = some (mappedWave s.cfgN s.cfgCp idx) at hw
  obtain ⟨hN, hp⟩ := (okN_iff s).mp hokN
  have hc : (s.okN && s.okSweep) = true := by rw [hokN, hokSweep, Bool.and_self]
  refine ⟨_, _, exec_sweep hs hc hi hw (mappedWave_length_mod hp.le idx) (length_le_mappedWave hN hp.le idx), rfl,
    (sweepTrials_length ..).trans (sweepEntries_length s), fun entry hentry => ?_⟩
  obtain ⟨k, hk⟩ := List.mem_iff_getElem?.mp hentry
  have hlt : k < s.cfgSweepLen := by
    have := (List.getElem?_eq_some_iff.mp hk).1
    rwa [sweepTrials_length, sweepEntries_length] at this
  rw [sweepTrials_entry _ _ _ _ _ hne _ _ _ _ _ (sweepEntries_getElem? hlt), unseeded_take_sweepEntries s k hlt.le] at hk
  obtain rfl := Option.some.inj hk
  have hzeros : (s.noiseScript.drop (unseededBefore s k))[0]? = some .zeros := by
    have hbefore : unseededBefore s k ≤ k := List.countP_le_length.trans_eq List.length_range
    rw [List.getElem?_drop, hscript, List.getElem?_replicate, if_pos (by omega)]
  refine (trial_rate_val hne ..).trans ?_
  rw [trialIntegers_mappedWave hN hp.le idx (hseed k hlt) hzeros, countP_mapped_ne]

/-! ## `REPACK` in closed form -/

/-- Settles O48: an output byte is the recovered byte at its place. -/
theorem repackClosedForm : Obligations.RepackClosedForm := by
  unfold Obligations.RepackClosedForm
  intro s ints bits n hs hints hbits hlen
  refine ⟨_, exec_repack hs hints hbits, ?_, fun q y p hy hp => ?_⟩
  · rw [repackBytes_length, hlen]
    omega
  · have h := recoveredBytes_getElem?_of_repackBytes hy
    rw [recoveredBytes, List.getElem?_map, hp] at h
    exact (Option.some.inj h).symm

end Sys2Proof.Machine
end
